-- ==== Sys2Proof/Word.lean ====
section
/-! DEFINITION. The bit-vector types of the block. -/

namespace Sys2Proof

/-- Eight bits, numbered 7 (most significant) down to 0 (R9). -/
abbrev Byte := BitVec 8

/-- Four bits: one half of a byte, the width of the controller's data bus. -/
abbrev Nibble := BitVec 4

/-- A bus device address (`ADDR_W` = 7, R7). -/
abbrev Addr7 := BitVec 7

/-- A command word (`CMD_W` = 16, R80). -/
abbrev CmdWord := BitVec 16

/-- One bit as a bit vector, 1 for `true`. -/
abbrev bit (b : Bool) : BitVec 1 := BitVec.ofBool b

end Sys2Proof
end

