-- ==== Sys2Proof/Syntax.lean ====
section
/-! DEFINITION. The fifteen commands of the command port (R80 to R82), one constructor a row of the
opcode table. -/

namespace Sys2Proof

/-- The flag `KIND` (R81): what the logical byte is to the controller. -/
inductive Kind where
  /-- `KIND` = 0. -/
  | command
  /-- `KIND` = 1, character data. -/
  | data
  deriving DecidableEq, Repr

/-- The flag `SIZE` (R81): how much of the logical byte is sent. -/
inductive Size where
  /-- `SIZE` = 0, both nibbles. -/
  | full
  /-- `SIZE` = 1, nibble only. -/
  | nibble
  deriving DecidableEq, Repr

/-- The bit of the command word and of the expander byte that stands for a kind. -/
def Kind.toBool : Kind → Bool
  | .command => false
  | .data => true

def Kind.ofBool : Bool → Kind
  | false => .command
  | true => .data

def Size.toBool : Size → Bool
  | .full => false
  | .nibble => true

def Size.ofBool : Bool → Size
  | false => .full
  | true => .nibble

/-- The commands. Operand widths are those of R87. -/
inductive Instr where
  /-- `INIT` (R101). -/
  | init
  /-- `START` (R102). -/
  | start
  /-- `STOP` (R104). -/
  | stop
  /-- `WBYTE v` (R106). -/
  | wbyte (v : Byte)
  /-- `LDBUF i, v` (R111); legal for `i` 0 to 4. -/
  | ldbuf (idx : BitVec 3) (v : Byte)
  /-- `WBYTES n`, or `WBYTES.H n` when `h` (R112); legal for `n` 0 to 5. -/
  | wbytes (h : Bool) (n : BitVec 3)
  /-- `BEGINW a` (R130). -/
  | beginw (a : Addr7)
  /-- `END` (R131). -/
  | endt
  /-- `SETADDR a` (R170). -/
  | setaddr (a : Addr7)
  /-- `SETBL b` (R171). -/
  | setbl (b : Bool)
  /-- `PACK.ks v` (R144). -/
  | pack (size : Size) (kind : Kind) (v : Byte)
  /-- `EMITC.ks v` (R145). -/
  | emitc (size : Size) (kind : Kind) (v : Byte)
  /-- `SENDC.ks v` (R146). -/
  | sendc (size : Size) (kind : Kind) (v : Byte)
  /-- `BLNOW` (R147). -/
  | blnow
  /-- `RDREG r` (R174); legal for `r` not 7, 13, 14, 15. -/
  | rdreg (r : BitVec 4)
  deriving DecidableEq, Repr

end Sys2Proof
end

