-- ==== Sys2Proof/WellFormed.lean ====
section
/-! DEFINITION. The value limits of R82: what makes a command term one of the legal commands. -/

namespace Sys2Proof

/-- R81, R82: `LDBUF`'s index is one of the five entries. -/
def legalIndex (idx : BitVec 3) : Bool := idx.toNat ≤ 4

/-- R81, R82: `WBYTES`' count is at most the depth of the buffer. -/
def legalCount (n : BitVec 3) : Bool := n.toNat ≤ 5

/-- R39, R82: register numbers 7, 13, 14 and 15 are reserved. -/
def legalReg (r : BitVec 4) : Bool := r.toNat ≤ 6 || (8 ≤ r.toNat && r.toNat ≤ 12)

/-- A command is well formed when the value limits of R82 hold. -/
def Instr.wf : Instr → Bool
  | .init => true
  | .start => true
  | .stop => true
  | .wbyte _ => true
  | .ldbuf idx _ => legalIndex idx
  | .wbytes _ n => legalCount n
  | .beginw _ => true
  | .endt => true
  | .setaddr _ => true
  | .setbl _ => true
  | .pack _ _ _ => true
  | .emitc _ _ _ => true
  | .sendc _ _ _ => true
  | .blnow => true
  | .rdreg r => legalReg r

/-- The nine commands that drive the lines and need `INITD` (R100 (b), R176). `INIT` drives them too
and needs nothing. -/
def Instr.needsInit : Instr → Bool
  | .init => false
  | .start => true
  | .stop => true
  | .wbyte _ => true
  | .ldbuf _ _ => false
  | .wbytes _ _ => true
  | .beginw _ => true
  | .endt => true
  | .setaddr _ => false
  | .setbl _ => false
  | .pack _ _ _ => false
  | .emitc _ _ _ => true
  | .sendc _ _ _ => true
  | .blnow => true
  | .rdreg _ => false

end Sys2Proof
end

