-- ==== Sys2Proof/Decode.lean ====
section
/-! DEFINITION. Decoding a command word, total and rejecting by name (R82, R83), and the encoder
(R81, R90). -/

namespace Sys2Proof

/-- The three reasons of R83 for which a word is illegal. -/
inductive DecodeError where
  /-- `OP` is `0x0`. -/
  | reservedOp
  /-- A bit that R81 says must be 0 is 1. -/
  | mustBeZero
  /-- A value limit of R82 fails. -/
  | valueLimit
  deriving DecidableEq, Repr

/-- `OP = cmd[15:12]` (R80). -/
def opField (w : CmdWord) : BitVec 4 := w.extractLsb' 12 4

/-- `MOD = cmd[11:8]` (R80). -/
def modField (w : CmdWord) : BitVec 4 := w.extractLsb' 8 4

/-- `IMM = cmd[7:0]` (R80). -/
def immField (w : CmdWord) : Byte := w.extractLsb' 0 8

/-- Accept a command if its must-be-zero bits are 0 and its value limits hold, in the order R83 names
the two. -/
def checkWord (zeros : Bool) (i : Instr) : Except DecodeError Instr :=
  if zeros = false then .error .mustBeZero
  else if i.wf then .ok i
  else .error .valueLimit

/-- `SIZE = cmd[9]`, `KIND = cmd[8]` (R87), from `MOD`. -/
def sizeOfMod (m : BitVec 4) : Size := Size.ofBool (m.getLsbD 1)

def kindOfMod (m : BitVec 4) : Kind := Kind.ofBool (m.getLsbD 0)

/-- The verdict on a command word (R82, R83): one of the fifteen commands, or illegal and why. -/
def decodeWord (w : CmdWord) : Except DecodeError Instr :=
  let m := modField w
  let v := immField w
  match (opField w).toNat with
  | 1 => checkWord (m == 0#4 && v == 0#8) .init
  | 2 => checkWord (m == 0#4 && v == 0#8) .start
  | 3 => checkWord (m == 0#4 && v == 0#8) .stop
  | 4 => checkWord (m == 0#4) (.wbyte v)
  | 5 => checkWord (m.getLsbD 3 == false) (.ldbuf (m.extractLsb' 0 3) v)
  | 6 => checkWord (m.extractLsb' 0 3 == 0#3 && v.extractLsb' 3 5 == 0#5)
           (.wbytes (m.getLsbD 3) (v.extractLsb' 0 3))
  | 7 => checkWord (m == 0#4 && v.getLsbD 7 == false) (.beginw (v.extractLsb' 0 7))
  | 8 => checkWord (m == 0#4 && v == 0#8) .endt
  | 9 => checkWord (m == 0#4 && v.getLsbD 7 == false) (.setaddr (v.extractLsb' 0 7))
  | 10 => checkWord (m == 0#4 && v.extractLsb' 1 7 == 0#7) (.setbl (v.getLsbD 0))
  | 11 => checkWord (m.extractLsb' 2 2 == 0#2) (.pack (sizeOfMod m) (kindOfMod m) v)
  | 12 => checkWord (m.extractLsb' 2 2 == 0#2) (.emitc (sizeOfMod m) (kindOfMod m) v)
  | 13 => checkWord (m.extractLsb' 2 2 == 0#2) (.sendc (sizeOfMod m) (kindOfMod m) v)
  | 14 => checkWord (m == 0#4 && v == 0#8) .blnow
  | 15 => checkWord (m == 0#4 && v.extractLsb' 4 4 == 0#4) (.rdreg (v.extractLsb' 0 4))
  | _ => .error .reservedOp

/-- The command a word stands for, if it is legal. -/
def decode (w : CmdWord) : Option Instr :=
  match decodeWord w with
  | .ok i => some i
  | .error _ => none

/-- The host's numbering of a word (spec/opcode_table.json): the low `nbits` bits of `w`. -/
def decodeTableWord (nbits w : Nat) : Option Instr := decode (BitVec.ofNat 16 (w % 2 ^ nbits))

/-- A word of the format `CMD16` from its three fields (R80). -/
def cmd16 (op m : BitVec 4) (v : Byte) : CmdWord := op ++ m ++ v

/-- `MOD` of `PACK`, `EMITC` and `SENDC`: two zeros, `SIZE`, `KIND` (R81). -/
def packMod (size : Size) (kind : Kind) : BitVec 4 := 0#2 ++ bit size.toBool ++ bit kind.toBool

/-- The word of a command (R81, R90). -/
def encode : Instr → CmdWord
  | .init => cmd16 0x1 0 0
  | .start => cmd16 0x2 0 0
  | .stop => cmd16 0x3 0 0
  | .wbyte v => cmd16 0x4 0 v
  | .ldbuf idx v => cmd16 0x5 (0#1 ++ idx) v
  | .wbytes h n => cmd16 0x6 (bit h ++ 0#3) (0#5 ++ n)
  | .beginw a => cmd16 0x7 0 (0#1 ++ a)
  | .endt => cmd16 0x8 0 0
  | .setaddr a => cmd16 0x9 0 (0#1 ++ a)
  | .setbl b => cmd16 0xA 0 (0#7 ++ bit b)
  | .pack size kind v => cmd16 0xB (packMod size kind) v
  | .emitc size kind v => cmd16 0xC (packMod size kind) v
  | .sendc size kind v => cmd16 0xD (packMod size kind) v
  | .blnow => cmd16 0xE 0 0
  | .rdreg r => cmd16 0xF 0 (0#4 ++ r)

end Sys2Proof
end

