-- ==== Sys2Proof/Config.lean ====
section
/-! DEFINITION. The implementation parameters (R7, R42). Those the spec leaves OPEN or makes a parameter
are arguments of the functions that use them; their defaults and minimums stand here. -/

namespace Sys2Proof.Config

/-- `TXBUF_DEPTH`: the capacity of the transmit buffer (R7, R27). -/
def txbufDepth : Nat := 5

/-- `F_SCL_HZ` when the build does not say otherwise (R7; decision D7). -/
def fSclHzDefault : Nat := 100000

/-- The parameters of the block's delays (R7, R42; U10; decision D7), over a field `K` of numbers: the
reals, or the rationals where a value is to be evaluated. -/
structure Timing (K : Type) where
  /-- `CLK_HZ`, OPEN: a positive real. -/
  clkHz : K
  /-- `F_SCL_HZ`: a positive integer. -/
  fSclHz : Nat
  /-- `T_EN` in microseconds. -/
  tEnUs : K
  /-- `T_PREARM` in microseconds. -/
  tPrearmUs : K
  deriving DecidableEq, Repr

section Timing

variable {K : Type} [Field K]

/-- The least `T_EN`, 0.2 us, and its default (R149, U10). -/
def tEnMinUs : K := 1 / 5

/-- The least `T_PREARM`, 0.05 us, and its default (R149, U10). -/
def tPrearmMinUs : K := 1 / 20

/-- The defaults, for a clock of the frequency given: `CLK_HZ` has none (R7; decision D7). -/
def Timing.offered (clkHz : K) : Timing K where
  clkHz := clkHz
  fSclHz := fSclHzDefault
  tEnUs := tEnMinUs
  tPrearmUs := tPrearmMinUs

/-- `T_HALF` in microseconds, always from the formula (R7). -/
def Timing.tHalfUs (p : Timing K) : K := 500000 / p.fSclHz

/-- The values the parameters may take (R7, R89 item 5, U10): `F_SCL_HZ = 0` is not one. -/
structure Timing.Legal [LinearOrder K] (p : Timing K) : Prop where
  clk : 0 < p.clkHz
  bus : 0 < p.fSclHz
  en : tEnMinUs ≤ p.tEnUs
  prearm : tPrearmMinUs ≤ p.tPrearmUs

end Timing

/-- The host's waits (R7): lower bounds on the time the host lets pass. -/
inductive HostWait where
  | powerOn
  | initFirst
  | initStep
  | initFinal
  | move
  | clear
  deriving DecidableEq, Repr

/-- The least length of each host wait, in microseconds (R7, R184, R185, R186). -/
def HostWait.us : HostWait → Nat
  | .powerOn => 30000
  | .initFirst => 4100
  | .initStep => 2000
  | .initFinal => 10000
  | .move => 100
  | .clear => 1180

end Sys2Proof.Config
end

