-- ==== Sys2Proof/Machine/State.lean ====
section
/-! DEFINITION. The state of the machine: the block's registers and control position, the inputs and
the devices on the two lines, and the host (10_state.md R20 to R44). -/

namespace Sys2Proof.Machine

/-- Why the machine stops. -/
inductive Fault where
  /-- Raised by the byte loop (`loadByte`) when it reads a transmit-buffer index above 4, an address
  that R60 says does not exist. No legal command reaches it: `BYTEIDX` is below the count and the
  count is at most 5 (R112). Safe. -/
  | noSuchBufferEntry
  deriving DecidableEq, Repr

/-- Why an instruction has no meaning. -/
inductive Refusal where
  /-- Raised by an arm of `exec` whose instruction the model gives no meaning yet; `exec` has no such
  arm. Safe. -/
  | notModelled (mnemonic : String)
  deriving DecidableEq, Repr

/-- The transmit buffer, the block's one memory (R27, R60): the entries that are not 0x00, index
rising. An index that is not listed reads as 0x00, the reset contents of R44. -/
abbrev Memory := List Host.Cell

/-! ### The control position (R30) -/

/-- The four steps of `START` (R102), each named for the primitive it performs. -/
inductive StartPos where
  | fallSda
  | holdSda
  | fallScl
  | holdScl
  deriving DecidableEq, Repr

/-- The steps of the byte transmitter (R106): five of the bit loop, then eight of the ninth clock and
the park. -/
inductive BytePos where
  | putBit
  | lowHalf
  | raise
  | highHalf
  | fall
  | ackRelease
  | ackLow
  | ackRaise
  | ackWait
  | ackSample
  | ackHold
  | parkScl
  | parkSda
  deriving DecidableEq, Repr

/-- The seven steps of `STOP` (R104). -/
inductive StopPos where
  | fallSda
  | lowHold
  | raise
  | waitScl
  | highHold
  | riseSda
  | freeHold
  deriving DecidableEq, Repr

/-- Which occurrence of the byte transmitter in a command's pseudocode is running. -/
inductive ByteRole where
  /-- The body of `WBYTE` run alone (R106). -/
  | single
  /-- The address byte of `BEGINW` (R130), run in line by `SENDC` and `BLNOW` too. -/
  | frame
  /-- A byte of the loop of `WBYTES` (R112), run in line by `EMITC`, `SENDC` and `BLNOW` too. -/
  | data
  deriving DecidableEq, Repr

/-- `USTEP`: the next primitive of the running command (R30). Its width is the model's choice; the
model names the positions (DESIGN CHOICE, log entry 5; safe). -/
inductive UStep where
  | idle
  | start (p : StartPos)
  | byte (r : ByteRole) (p : BytePos)
  | hook
  | stop (p : StopPos)
  deriving DecidableEq, Repr

/-! ### The response port -/

/-- The field `ST` (R84). Status `11` is never produced and has no constructor (U4). -/
inductive Status where
  | ok
  | nack
  | illegal
  deriving DecidableEq, Repr

/-- A response (R84). -/
structure Response where
  st : Status
  data : Byte
  deriving DecidableEq, Repr

/-! ### Delays -/

/-- The delays the block takes (R219): a half-period of the bus, and the two of the hook (R149). -/
inductive Delay where
  | half
  | en
  | enPrearm
  deriving DecidableEq, Repr

/-- How many delays of each kind the block has taken: `half * T_HALF + en * T_EN + prearm * T_PREARM`
is the lower bound on time of R258. The model's own count (log entry 10; safe). -/
structure Spent where
  half : Nat
  en : Nat
  prearm : Nat
  deriving DecidableEq, Repr

/-! ### The environment -/

/-- What the outside drives at one step: `SDA_ENV`, `SCL_ENV` (R22; `true` is released) and `rst` (R43). -/
structure Input where
  sda : Bool
  scl : Bool
  rst : Bool
  deriving DecidableEq, Repr

/-- What a bus monitor writes down: a start condition, a byte with its acknowledgment, a stop
condition (95_test_vectors.md, "wire transcript"). -/
inductive WireEvent where
  | start
  | byte (v : Byte) (ack : Bool)
  | stop
  deriving DecidableEq, Repr

/-- The bus monitor (DEDUCED, log entry 13; unsafe). -/
structure Bus where
  /-- The line levels last seen. -/
  sda : Bool
  scl : Bool
  /-- Between a start condition and the next stop condition. -/
  active : Bool
  /-- Clocks of the current byte seen, 9 after the acknowledgment clock has risen. -/
  nbits : Nat
  shift : Byte
  /-- The wire transcript, oldest first. -/
  log : List WireEvent
  deriving DecidableEq, Repr

/-- The reference expander (R40, R226; PRESUMED, log entry 14; unsafe). -/
structure Expander where
  /-- Its bus address `X`. -/
  address : Addr7
  /-- `none`: the acknowledgment rule of R226. `some l`: the scripted responder, one answer a byte in
  wire order, no acknowledgment once the list has run out. -/
  acks : Option (List Bool)
  /-- The output latch `LATCH`. -/
  latch : Byte
  /-- Whether the next byte is the first after a start condition. -/
  first : Bool
  /-- Whether it acknowledged its address in this transaction. -/
  selected : Bool
  /-- Whether it holds the data line low now. -/
  driving : Bool
  /-- What the controller behind it was given: (`RS`, nibble) at each fall of `EN` (R150), oldest first. -/
  given : List (Bool × Nibble)
  deriving DecidableEq, Repr

/-- The environment and the platform's inputs. -/
structure Env where
  /-- The drive of the scripted devices at this step. -/
  sda : Bool
  scl : Bool
  /-- `rst` as sampled at this step. -/
  rst : Bool
  /-- The inputs of the steps to come; the last drive is held when they have run out (DESIGN CHOICE,
  log entry 1; unsafe). -/
  script : List Input
  bus : Bus
  expander : Option Expander
  deriving DecidableEq, Repr

/-! ### The host -/

/-- The session's `state` (R181). -/
inductive SessionState where
  | uninitialized
  | ready
  deriving DecidableEq, Repr

/-- The Display Session's own variables (R41, R180). -/
structure Session where
  width : Nat
  curX : Nat
  curY : Nat
  state : SessionState
  deriving DecidableEq, Repr

/-- One action of the host: a line of a session operation's expansion (44_host_session.md). -/
inductive HostAct where
  /-- Issue a command; the status is thrown away. -/
  | issue (w : CmdWord)
  /-- `ok <- ` the status of a command. -/
  | track (w : CmdWord)
  /-- `if ok: ok <- ` the status of a command. -/
  | ifOk (w : CmdWord)
  /-- `host_wait(t)`. -/
  | wait (t : Config.HostWait)
  /-- `WIDTH <- w`. -/
  | width (w : Nat)
  /-- `CUR_X <- x ; CUR_Y <- y`. -/
  | cursor (x y : Nat)
  /-- `state <- ready`. -/
  | ready
  deriving DecidableEq, Repr

/-- The host (R20): what it is going to do, and the session. -/
structure HostAgent where
  queue : List HostAct
  /-- The variable `ok` of the batch operations (R189, R190). -/
  ok : Bool
  /-- Whether the response to come is read into `ok`. -/
  tracking : Bool
  session : Session
  deriving DecidableEq, Repr

/-! ### The machine -/

/-- The state of the machine. Lines, drives and flags are `true` for 1. -/
structure State where
  /-- `SDA_OUT`: `false` drives the data line low, `true` has released it (R21). -/
  sdaOut : Bool
  /-- `SCL_OUT` (R21). -/
  sclOut : Bool
  /-- `SHREG` (R24). -/
  shreg : Byte
  /-- `BITCNT` (R25). -/
  bitcnt : BitVec 4
  /-- `BYTEIDX` (R26). -/
  byteidx : BitVec 3
  /-- `TXBUF[0..4]` (R27). -/
  txbuf : Memory
  /-- `TXLEN` (R28). -/
  txlen : BitVec 3
  /-- `SENTCNT` (R29). -/
  sentcnt : BitVec 3
  /-- `OPEN` (R31). -/
  isOpen : Bool
  /-- `LASTOK` (R32). -/
  lastok : Bool
  /-- `INITD` (R33). -/
  initd : Bool
  /-- `ADDR` (R35). -/
  addr : Addr7
  /-- `BL` (R36). -/
  bl : Bool
  /-- `CUR_OP` (R30). -/
  curOp : Option Instr
  /-- `USTEP` (R30). -/
  ustep : UStep
  /-- The local variable `a` of R106, the level sampled on the ninth clock (log entry 6). -/
  ackLevel : Bool
  /-- The delay timer (R219), in `clk` cycles still to count (log entry 9). -/
  timer : Nat
  /-- The response port: `rsp_valid` is whether there is one (R43, R84). -/
  rsp : Option Response
  spent : Spent
  env : Env
  host : HostAgent
  deriving DecidableEq, Repr

/-- A quiet bus with no device on it and no input to come (DESIGN CHOICE, log entry 2; unsafe). -/
def Env.reset : Env where
  sda := true
  scl := true
  rst := false
  script := []
  bus := { sda := true, scl := true, active := false, nbits := 0, shift := 0, log := [] }
  expander := none

/-- A host with nothing to do and a session not yet set up (R181; DESIGN CHOICE, log entries 15 and
17; unsafe). -/
def HostAgent.reset : HostAgent where
  queue := []
  ok := false
  tracking := false
  session := { width := 0, curX := 0, curY := 0, state := .uninitialized }

/-- The machine right after hardware reset: the reset column of R44. `timer`, `ackLevel`, `spent` and
the agents outside the block are DESIGN CHOICES (log entries 2, 6, 9, 10, 15, 17; unsafe). -/
def State.reset : State where
  sdaOut := true
  sclOut := true
  shreg := 0
  bitcnt := 0
  byteidx := 0
  txbuf := []
  txlen := 0
  sentcnt := 0
  isOpen := false
  lastok := false
  initd := false
  addr := 0
  bl := false
  curOp := none
  ustep := .idle
  ackLevel := false
  timer := 0
  rsp := none
  spent := { half := 0, en := 0, prearm := 0 }
  env := Env.reset
  host := HostAgent.reset

end Sys2Proof.Machine
end

