-- ==== Sys2Proof/Machine/Operands.lean ====
section
/-! DEFINITION. Operand assembly (R86, R87), the packing function (R140 to R143), and what a command's
operands mean to the shared bodies it runs in line. -/

namespace Sys2Proof.Machine

/-- `FRAME = {A7, 0}` (R86, R87): the address byte, write bit 0. -/
def frameOf (a : Addr7) : Byte := a ++ 0#1

/-- `HI(VAL) = VAL AND 0xF0` (R87). -/
def hi (v : Byte) : Byte := v &&& 0xF0

/-- `LO(VAL) = (VAL << 4) AND 0xFF` (R87). -/
def lo (v : Byte) : Byte := v <<< 4

/-- A flag as the byte 0 or 1. -/
def flagByte (b : Bool) : Byte := (bit b).setWidth 8

/-- `CTL(k, e) = (BL << 3) OR (e << 2) OR k` (R87), with `RW` = 0. -/
def ctl (bl k e : Bool) : Byte := (flagByte bl <<< 3) ||| (flagByte e <<< 2) ||| flagByte k

/-- The five phases of a full byte (R142). -/
def packFull (bl : Bool) (kind : Kind) (v : Byte) : List Byte :=
  [ hi v ||| ctl bl kind.toBool true,
    hi v ||| ctl bl kind.toBool false,
    lo v ||| ctl bl kind.toBool true,
    lo v ||| ctl bl kind.toBool false,
    ctl bl false true ]

/-- The three phases of a nibble-only byte (R143). -/
def packNibble (bl : Bool) (kind : Kind) (v : Byte) : List Byte :=
  [ lo v ||| ctl bl kind.toBool true,
    lo v ||| ctl bl kind.toBool false,
    ctl bl false true ]

/-- The packing function (R140). -/
def packBytes (bl : Bool) : Size → Kind → Byte → List Byte
  | .full => packFull bl
  | .nibble => packNibble bl

/-- The byte of the backlight-only transaction, `CTL(0, 1)` (R147). -/
def backlightByte (bl : Bool) : Byte := ctl bl false true

/-- The address a command puts in its address byte: `BEGINW`'s own operand, else `ADDR` (R130, R146,
R147). -/
def frameAddr (s : State) : Instr → Addr7
  | .beginw a => a
  | .init => s.addr
  | .start => s.addr
  | .stop => s.addr
  | .wbyte _ => s.addr
  | .ldbuf _ _ => s.addr
  | .wbytes _ _ => s.addr
  | .endt => s.addr
  | .setaddr _ => s.addr
  | .setbl _ => s.addr
  | .pack _ _ _ => s.addr
  | .emitc _ _ _ => s.addr
  | .sendc _ _ _ => s.addr
  | .blnow => s.addr
  | .rdreg _ => s.addr

/-- The count a command gives its `WBYTES` (R112, R145, R146, R147): `WBYTES`' own operand, 1 for
`BLNOW`, else `TXLEN`. -/
def byteCount (s : State) : Instr → BitVec 3
  | .wbytes _ n => n
  | .blnow => 1
  | .init => s.txlen
  | .start => s.txlen
  | .stop => s.txlen
  | .wbyte _ => s.txlen
  | .ldbuf _ _ => s.txlen
  | .beginw _ => s.txlen
  | .endt => s.txlen
  | .setaddr _ => s.txlen
  | .setbl _ => s.txlen
  | .pack _ _ _ => s.txlen
  | .emitc _ _ _ => s.txlen
  | .sendc _ _ _ => s.txlen
  | .rdreg _ => s.txlen

/-- Whether a command's `WBYTES` runs the hook (R112, R145, R146, R147). -/
def hooked : Instr → Bool
  | .wbytes h _ => h
  | .emitc _ _ _ => true
  | .sendc _ _ _ => true
  | .blnow => false
  | .init => false
  | .start => false
  | .stop => false
  | .wbyte _ => false
  | .ldbuf _ _ => false
  | .beginw _ => false
  | .endt => false
  | .setaddr _ => false
  | .setbl _ => false
  | .pack _ _ _ => false
  | .rdreg _ => false

/-- Whether a command goes on after its start condition to an address byte (R130, R146, R147). -/
def addresses : Instr → Bool
  | .beginw _ => true
  | .sendc _ _ _ => true
  | .blnow => true
  | .init => false
  | .start => false
  | .stop => false
  | .wbyte _ => false
  | .ldbuf _ _ => false
  | .wbytes _ _ => false
  | .endt => false
  | .setaddr _ => false
  | .setbl _ => false
  | .pack _ _ _ => false
  | .emitc _ _ _ => false
  | .rdreg _ => false

/-- Whether a command is a whole transaction, which runs `END` in every outcome (R146, R147). -/
def closes : Instr → Bool
  | .sendc _ _ _ => true
  | .blnow => true
  | .init => false
  | .start => false
  | .stop => false
  | .wbyte _ => false
  | .ldbuf _ _ => false
  | .wbytes _ _ => false
  | .beginw _ => false
  | .endt => false
  | .setaddr _ => false
  | .setbl _ => false
  | .pack _ _ _ => false
  | .emitc _ _ _ => false
  | .rdreg _ => false

/-- The hook's delay after byte `i` of `n` (R149): the longer one when the pre-arm phase is next. -/
def hookDelay (i n : BitVec 3) : Delay :=
  if i.toNat + 2 = n.toNat then .enPrearm else .en

/-- The response word `rsp[9:0]` (R84). -/
def Response.word (r : Response) : BitVec 10 :=
  (match r.st with
    | .ok => 0#2
    | .nack => 1#2
    | .illegal => 2#2) ++ r.data

/-- OK if a boolean command returned true, else NACK (R84, R100 (e)). -/
def statusOf (b : Bool) : Status := if b then .ok else .nack

end Sys2Proof.Machine
end

