-- ==== Sys2Proof/Machine/Wire.lean ====
section
/-! DEFINITION. The two lines as every device sees them: the wired AND (R22), the bus monitor, the
reference expander (R226) and what the controller is given (R150). -/

namespace Sys2Proof.Machine

/-! ### The monitor -/

/-- What a device sees when the line levels change from those last seen. -/
inductive BusEvent where
  | quiet
  /-- A fall of the data line while the clock is high (R103). -/
  | start
  /-- A rise of the data line while the clock is high (R105). -/
  | stop
  /-- One of the eight data clocks rises. -/
  | bit (b : Bool)
  /-- The clock falls after the eighth data clock: byte `v` is complete and the ninth clock is next. -/
  | ackOpens (v : Byte)
  /-- The ninth clock rises; `low` is whether the data line is low. -/
  | ack (low : Bool)
  /-- The ninth clock falls. -/
  | ackCloses
  deriving DecidableEq, Repr

/-- Two lines that change together make no event: U5, U6 (DEDUCED, log entry 13; unsafe). -/
def Bus.event (b : Bus) (sda scl : Bool) : BusEvent :=
  if b.scl && scl then
    if b.sda && !sda then .start
    else if !b.sda && sda then .stop
    else .quiet
  else if b.active && (b.sda == sda) then
    if !b.scl && scl then
      if b.nbits < 8 then .bit sda
      else if b.nbits = 8 then .ack (!sda)
      else .quiet
    else if b.scl && !scl then
      if b.nbits = 8 then .ackOpens b.shift
      else if b.nbits = 9 then .ackCloses
      else .quiet
    else .quiet
  else .quiet

/-- The shift register of a device: most significant bit first (R62). -/
def shiftIn (v : Byte) (b : Bool) : Byte := (v <<< 1) ||| (bit b).setWidth 8

/-- The monitor after an event, the line levels apart. -/
def Bus.record (b : Bus) : BusEvent → Bus
  | .quiet => b
  | .start => { b with active := true, nbits := 0, log := b.log ++ [.start] }
  | .stop => { b with active := false, nbits := 0, log := b.log ++ [.stop] }
  | .bit x => { b with nbits := b.nbits + 1, shift := shiftIn b.shift x }
  | .ackOpens _ => b
  | .ack low => { b with nbits := 9, log := b.log ++ [.byte b.shift low] }
  | .ackCloses => { b with nbits := 0 }

/-- The monitor sees the line levels `sda`, `scl`. -/
def Bus.see (b : Bus) (sda scl : Bool) : Bus :=
  { b.record (b.event sda scl) with sda := sda, scl := scl }

/-! ### The expander and the controller behind it -/

/-- The `EN` bit of an expander byte (R85). -/
def enBit (e : Byte) : Bool := e.getLsbD 2

/-- What the controller latches when the expander's outputs change from `old` to `new`: (`RS`, nibble)
if `EN` falls (R40, R150). -/
def strobe (old new : Byte) : List (Bool × Nibble) :=
  if enBit old && !enBit new then [(new.getLsbD 0, new.extractLsb' 4 4)] else []

/-- The function `latched` of R150 over the acknowledged bytes `seq`, from the previous byte `prev`. -/
def latched (prev : Byte) : List Byte → List (Bool × Nibble)
  | [] => []
  | e :: rest => strobe prev e ++ latched e rest

/-- The expander takes a data byte as its new output latch (R40, R226). -/
def Expander.take (x : Expander) (v : Byte) : Expander :=
  { x with latch := v, given := x.given ++ strobe x.latch v }

/-- Whether the expander acknowledges byte `v` (R226): the scripted answer, or its own address as the
first byte and every byte after it. -/
def Expander.answers (x : Expander) (v : Byte) : Bool :=
  match x.acks with
  | some l => l.headD false
  | none => if x.first then v == (x.address ++ 0#1) else x.selected

/-- The expander at the end of the eighth data clock: it answers, and takes a data byte that it
acknowledges (R226). -/
def Expander.atByte (x : Expander) (v : Byte) : Expander :=
  let yes := x.answers v
  let y := if yes && !x.first then x.take v else x
  { y with
      acks := y.acks.map List.tail
      first := false
      selected := yes
      driving := yes }

/-- The expander reacts to what it sees on the lines (R226). -/
def Expander.react (x : Expander) : BusEvent → Expander
  | .quiet => x
  | .start => { x with first := true, selected := false, driving := false }
  | .stop => { x with first := false, selected := false, driving := false }
  | .bit _ => x
  | .ackOpens v => x.atByte v
  | .ack _ => x
  | .ackCloses => { x with driving := false }

/-! ### The environment as a whole -/

/-- `SDA_ENV` (R22): 0 when some device holds the data line low. -/
def Env.sdaEnv (e : Env) : Bool :=
  e.sda && !(match e.expander with
    | some x => x.driving
    | none => false)

/-- `SCL_ENV` (R22). The reference expander never stretches the clock (R226). -/
def Env.sclEnv (e : Env) : Bool := e.scl

/-- Every device on the bus sees the line levels that the block's drives and its own make (R22). -/
def Env.observe (e : Env) (sdaOut sclOut : Bool) : Env :=
  let sda := sdaOut && e.sdaEnv
  let scl := sclOut && e.sclEnv
  { e with
      bus := e.bus.see sda scl
      expander := e.expander.map fun x => x.react (e.bus.event sda scl) }

/-- The inputs of the next step arrive (R10, R22): the next entry of the script, or the drive held and
no reset when there is none (DESIGN CHOICE, log entry 1; unsafe). -/
def Env.advance (e : Env) : Env :=
  match e.script with
  | [] => { e with rst := false }
  | d :: rest => { e with sda := d.sda, scl := d.scl, rst := d.rst, script := rest }

/-- The input the environment gives `n` steps from now (0 is the next step), reacting devices apart. -/
def Env.ahead (e : Env) : Nat → Input
  | 0 => { sda := e.advance.sda, scl := e.advance.scl, rst := e.advance.rst }
  | n + 1 => e.advance.ahead n

end Sys2Proof.Machine
end

