-- ==== Sys2Proof/Machine/Flags.lean ====
section
/-! DEFINITION. The flags, the two assembled registers `STATUS` and `PINS`, the line levels the block
senses, and the modes (R22, R34, R37, R38, R218). -/

namespace Sys2Proof.Machine

/-- `BUSY` (R34): a command is executing. -/
def State.busy (s : State) : Bool := s.curOp.isSome

/-- `SDA_IN = SDA_OUT AND SDA_ENV` (R22). -/
def State.sdaIn (s : State) : Bool := s.sdaOut && s.env.sdaEnv

/-- `SCL_IN = SCL_OUT AND SCL_ENV` (R22). -/
def State.sclIn (s : State) : Bool := s.sclOut && s.env.sclEnv

/-- The layout of `STATUS` (R37). -/
def statusByte (lastok busy isOpen initd : Bool) : Byte :=
  0#4 ++ bit lastok ++ bit busy ++ bit isOpen ++ bit initd

/-- `STATUS` (R37). -/
def State.status (s : State) : Byte := statusByte s.lastok s.busy s.isOpen s.initd

/-- `STATUS` as `RDREG` returns it: `BUSY` always reads 0 (R37, R174). -/
def State.statusRead (s : State) : Byte := statusByte s.lastok false s.isOpen s.initd

/-- `PINS` (R38). -/
def State.pins (s : State) : Byte :=
  0#4 ++ bit s.sclOut ++ bit s.sdaOut ++ bit s.sclIn ++ bit s.sdaIn

/-- The three modes of operation (R218). -/
inductive Mode where
  | uninitialised
  | idle
  | opened
  deriving DecidableEq, Repr

/-- The mode, told by `INITD` and `OPEN` (R218). -/
def State.mode (s : State) : Mode :=
  if s.initd then (if s.isOpen then .opened else .idle) else .uninitialised

/-- Which commands are legal in a mode (R176, R218). -/
def Mode.legal : Mode → Instr → Bool
  | .uninitialised, i => !i.needsInit
  | .idle, _ => true
  | .opened, _ => true

end Sys2Proof.Machine
end

