-- ==== Sys2Proof/Machine/Ops.lean ====
section
/-! DEFINITION. The shared operations: the transmit buffer, the primitives of R9, the step's clock and
reset, the two ways a command ends, and IllegalCommand. -/

namespace Sys2Proof.Machine

/-- The outcome of a step of this machine. -/
abbrev Result := Host.Outcome State Fault Refusal

/-- Go on from a next state; a stop stays a stop. -/
def andThen (o : Result) (f : State → Result) : Result :=
  match o with
  | .next s => f s
  | .fault r => .fault r
  | .refused r => .refused r

/-! ### The transmit buffer (R27, R60) -/

/-- The byte at an index, 0x00 when it is not listed (R44). -/
def Memory.get : Memory → Nat → Byte
  | [], _ => 0
  | (a, b) :: rest, i => if a = i then b else Memory.get rest i

/-- `MemRead(i, 1)` (R9): none where there is no such entry (R60). -/
def Memory.read (m : Memory) (i : Nat) : Option Byte :=
  if i < Config.txbufDepth then some (m.get i) else none

/-- The list without the entry of index `i`. -/
def Memory.erase : Memory → Nat → Memory
  | [], _ => []
  | (a, b) :: rest, i => if a = i then rest else (a, b) :: Memory.erase rest i

/-- The list with an entry for index `i`, which it does not hold yet, in rising order. -/
def Memory.insert : Memory → Nat → Byte → Memory
  | [], i, v => [(i, v)]
  | (a, b) :: rest, i, v =>
    if i < a then (i, v) :: (a, b) :: rest else (a, b) :: Memory.insert rest i v

/-- `MemWrite(i, 1, v)` (R9), for `i` below 5: its callers write no other index. Writing 0x00 removes
the entry. -/
def Memory.write (m : Memory) (i : Nat) (v : Byte) : Memory :=
  if v = 0 then m.erase i else (m.erase i).insert i v

/-- Store a list of bytes at ascending indices from `i` (R64). -/
def Memory.store (m : Memory) (i : Nat) : List Byte → Memory
  | [] => m
  | v :: rest => (m.write i v).store (i + 1) rest

/-- The canonical form, from a lower bound on the indices: strictly rising, no 0x00 listed, every index
an entry that exists. -/
def Memory.wfFrom (least : Nat) : Memory → Bool
  | [] => true
  | (a, b) :: rest =>
    decide (least ≤ a) && decide (a < Config.txbufDepth) && decide (b ≠ 0)
      && Memory.wfFrom (a + 1) rest

/-- The canonical form of the transmit buffer. -/
def Memory.wf (m : Memory) : Bool := m.wfFrom 0

/-! ### Time (R8, R73, R219) -/

section Time

variable {K : Type} [Field K]

/-- The lower bound on a delay, in microseconds (R7, R149). -/
def Delay.us (p : Config.Timing K) : Delay → K
  | .half => p.tHalfUs
  | .en => p.tEnUs
  | .enPrearm => p.tEnUs + p.tPrearmUs

/-- The `clk` cycles the delay timer is loaded with: the delay rounded up, at least 1 (R89 item 5,
R219; decision D7). -/
def Delay.cycles [LinearOrder K] [FloorSemiring K] (p : Config.Timing K) (d : Delay) : Nat :=
  max 1 ⌈d.us p * p.clkHz / 1000000⌉₊

/-- The lower bound on time of a count of delays, in microseconds (R258). -/
def Spent.us (p : Config.Timing K) (t : Spent) : K :=
  t.half * p.tHalfUs + t.en * p.tEnUs + t.prearm * p.tPrearmUs

end Time

/-- Count one delay. -/
def Spent.add (t : Spent) : Delay → Spent
  | .half => { t with half := t.half + 1 }
  | .en => { t with en := t.en + 1 }
  | .enPrearm => { t with en := t.en + 1, prearm := t.prearm + 1 }

/-! ### The step's clock, and hardware reset -/

/-- Every device sees the lines as they are now. -/
def State.observe (s : State) : State :=
  { s with env := s.env.observe s.sdaOut s.sclOut }

/-- A step begins: the inputs of the step arrive and change the lines (R10), and a response that was
valid is valid no longer (R84). -/
def State.latch (s : State) : State :=
  State.observe { s with rsp := none, env := s.env.advance }

/-- `rst` sampled 1 (R240, R241): every register takes its reset value, both lines are released in the
same cycle, the running command is abandoned without a response. The environment, the host and the
model's count of time are not the block's and stay. -/
def State.resetBlock (s : State) : State :=
  State.observe { State.reset with env := s.env, host := s.host, spent := s.spent }

/-- One step: its inputs arrive; `rst` wins over the step's own effect `f` (R240, R241). -/
def clocked (s : State) (f : State → Result) : Result :=
  if s.latch.env.rst then .next s.latch.resetBlock else f s.latch

/-! ### The primitives of R9 -/

/-- `sda_release()` for `true`, `sda_low()` for `false`. -/
def State.setSda (b : Bool) (s : State) : State := State.observe { s with sdaOut := b }

/-- `scl_release()` for `true`, `scl_low()` for `false`. -/
def State.setScl (b : Bool) (s : State) : State := State.observe { s with sclOut := b }

/-- `delay(d)`: the timer is loaded with `d.cycles`, counts down, and the step ends at zero, so it
leaves zero (R8, R219). The model counts the delay. -/
def State.delay (d : Delay) (s : State) : State := { s with timer := 0, spent := s.spent.add d }

/-- The control position moves (R30). -/
def State.goto (p : UStep) (s : State) : State := { s with ustep := p }

/-! ### How a command begins and ends -/

/-- A command is accepted: `BUSY` rises and `USTEP` is its first step (R30, R34). -/
def State.accept (i : Instr) (p : UStep) (s : State) : State :=
  { s with curOp := some i, ustep := p }

/-- A command ends: its response appears, `CUR_OP` is cleared, `BUSY` falls (R30, R34, R84). -/
def State.finish (st : Status) (data : Byte) (s : State) : State :=
  { s with curOp := none, ustep := .idle, rsp := some { st := st, data := data } }

/-- A command whose whole effect `f` is one step (log entry 3), answered OK with `data` of the state at
that step. -/
def oneStep (s : State) (f : State → State) (data : State → Byte) : Result :=
  clocked s fun t => .next ((f t).finish .ok (data t))

/-- IllegalCommand (R211): the response is ILLEGAL, `BUSY` does not rise, no register and no line
changes. -/
def illegalCommand (s : State) : Result :=
  clocked s fun t => .next { t with rsp := some { st := .illegal, data := 0 } }

/-- The checks before a command's first step, in the order of R214: the value limits of its encoding,
then `INITD` if it drives the lines. -/
def checked (i : Instr) (s : State) (run : State → Result) : Result :=
  if i.wf = false then illegalCommand s
  else if i.needsInit && !s.initd then illegalCommand s
  else run s

/-- The body of `PACK` (R144): the packed bytes in the transmit buffer and their number in `TXLEN`. -/
def State.packed (size : Size) (kind : Kind) (v : Byte) (s : State) : State :=
  { s with
      txbuf := s.txbuf.store 0 (packBytes s.bl size kind v)
      txlen := match size with
        | .full => 5
        | .nibble => 3 }

/-- The first two lines of `BLNOW` (R147). -/
def State.packedBacklight (s : State) : State :=
  { s with txbuf := s.txbuf.write 0 (backlightByte s.bl), txlen := 1 }

/-- The register with a number (R39, R174), zero-extended to 8 bits. Number 6 samples the lines. A
reserved number reads nothing: `RDREG` of it is illegal (R39). -/
def State.readReg (s : State) (r : BitVec 4) : Byte :=
  match r.toNat with
  | 0 => s.statusRead
  | 1 => s.addr.setWidth 8
  | 2 => flagByte s.bl
  | 3 => s.txlen.setWidth 8
  | 4 => s.sentcnt.setWidth 8
  | 5 => s.shreg
  | 6 => s.pins
  | 8 => s.txbuf.get 0
  | 9 => s.txbuf.get 1
  | 10 => s.txbuf.get 2
  | 11 => s.txbuf.get 3
  | 12 => s.txbuf.get 4
  | _ => 0

end Sys2Proof.Machine
end

