-- ==== Sys2Proof/Machine/Sequencer.lean ====
section
/-! DEFINITION. The control position at work: one primitive a step (R10, R30), for the bodies that the
line-driving commands share: the start condition (R102), the byte transmitter (R106 to R110), the byte
loop (R112), the hook (R148, R149) and the stop condition (R104). -/

namespace Sys2Proof.Machine

/-! ### Entering the shared bodies -/

/-- The head of `WBYTE`'s body: `SHREG <- v ; BITCNT <- 0` (R106). -/
def beginByte (r : ByteRole) (v : Byte) (s : State) : State :=
  { s with shreg := v, bitcnt := 0, ustep := .byte r .putBit }

/-- `WBYTE(MemRead(BYTEIDX, 1))` (R112). -/
def loadByte (s : State) : Result :=
  match s.txbuf.read s.byteidx.toNat with
  | some v => .next (beginByte .data v s)
  | none => .fault .noSuchBufferEntry

/-- `WBYTES` has returned `ok`: `SENDC` and `BLNOW` go on to `END`, the other commands return it
(R112, R145, R146, R147). -/
def loopDone (i : Instr) (ok : Bool) (s : State) : State :=
  if closes i then s.goto (.stop .fallSda) else s.finish (statusOf ok) 0

/-- The head of `WBYTES` (R112). -/
def beginLoop (i : Instr) (s : State) : Result :=
  let t := { s with sentcnt := 0, byteidx := 0 }
  if byteCount t i = 0 then .next (loopDone i true t) else loadByte t

/-- The end of one round of `WBYTES`' loop (R112). -/
def nextByte (i : Instr) (s : State) : Result :=
  if s.byteidx.toNat + 1 < (byteCount s i).toNat then
    loadByte { s with byteidx := s.byteidx + 1 }
  else .next (loopDone i true s)

/-! ### Leaving the shared bodies -/

/-- The end of `START`'s body: `OPEN <- 1`, then the address byte, or the end of `START` (R102, R130). -/
def afterStart (i : Instr) (s : State) : Result :=
  let t := { s with isOpen := true }
  if addresses i then .next (beginByte .frame (frameOf (frameAddr t i)) t)
  else .next (t.finish .ok 0)

/-- The end of `STOP`'s body: `OPEN <- 0`; `SENDC` and `BLNOW` return the result of their last byte,
which is `LASTOK` (R104, R131, R146; DEDUCED, log entry 7; safe). -/
def afterStop (i : Instr) (s : State) : Result :=
  let t := { s with isOpen := false }
  .next (t.finish (if closes i then statusOf t.lastok else .ok) 0)

/-- The result of the address byte: `BEGINW` returns it; `SENDC` and `BLNOW` send their bytes if it was
acknowledged and go to `END` if not (R130, R146, R147). -/
def afterFrame (i : Instr) (ok : Bool) (s : State) : Result :=
  if closes i then
    if ok then beginLoop i s else .next (loopDone i false s)
  else .next (s.finish (statusOf ok) 0)

/-- The result of a byte of the loop (R112): stop at the first nack, else count it and run the hook. -/
def afterData (i : Instr) (ok : Bool) (s : State) : Result :=
  if ok then
    let t := { s with sentcnt := s.sentcnt + 1 }
    if hooked i then .next (t.goto .hook) else nextByte i t
  else .next (loopDone i false s)

/-- The end of `WBYTE`'s body: `LASTOK <- (a = 0)`, and its result to whatever ran it (R106). -/
def afterByte (i : Instr) (r : ByteRole) (s : State) : Result :=
  let ok := !s.ackLevel
  let t := { s with lastok := ok }
  match r with
  | .single => .next (t.finish (statusOf ok) 0)
  | .frame => afterFrame i ok t
  | .data => afterData i ok t

/-! ### The steps -/

/-- The steps of `START` (R102). -/
def startStep (i : Instr) (p : StartPos) (s : State) : Result :=
  match p with
  | .fallSda => .next ((s.setSda false).goto (.start .holdSda))
  | .holdSda => .next ((s.delay .half).goto (.start .fallScl))
  | .fallScl => .next ((s.setScl false).goto (.start .holdScl))
  | .holdScl => afterStart i (s.delay .half)

/-- The steps of `STOP` (R104). `waitScl` is `wait_scl_high()`: it stays where it is while `SCL_IN`
reads 0 (R107, R212). -/
def stopStep (i : Instr) (p : StopPos) (s : State) : Result :=
  match p with
  | .fallSda => .next ((s.setSda false).goto (.stop .lowHold))
  | .lowHold => .next ((s.delay .half).goto (.stop .raise))
  | .raise => .next ((s.setScl true).goto (.stop .waitScl))
  | .waitScl => .next (if s.sclIn then s.goto (.stop .highHold) else s)
  | .highHold => .next ((s.delay .half).goto (.stop .riseSda))
  | .riseSda => .next ((s.setSda true).goto (.stop .freeHold))
  | .freeHold => afterStop i (s.delay .half)

/-- The end of one data clock: shift, count, and back to the loop head while fewer than eight bits are
out (R106, R108). -/
def afterBit (r : ByteRole) (s : State) : State :=
  let t := { s with shreg := s.shreg <<< 1, bitcnt := s.bitcnt + 1 }
  t.goto (.byte r (if t.bitcnt.toNat < 8 then .putBit else .ackRelease))

/-- The steps of the byte transmitter (R106): a data clock (R108), the ninth clock (R109), the park
(R110). `ackWait` is `wait_scl_high()`. -/
def byteStep (i : Instr) (r : ByteRole) (p : BytePos) (s : State) : Result :=
  match p with
  | .putBit => .next ((s.setSda (s.shreg.getLsbD 7)).goto (.byte r .lowHalf))
  | .lowHalf => .next ((s.delay .half).goto (.byte r .raise))
  | .raise => .next ((s.setScl true).goto (.byte r .highHalf))
  | .highHalf => .next ((s.delay .half).goto (.byte r .fall))
  | .fall => .next (afterBit r (s.setScl false))
  | .ackRelease => .next ((s.setSda true).goto (.byte r .ackLow))
  | .ackLow => .next ((s.delay .half).goto (.byte r .ackRaise))
  | .ackRaise => .next ((s.setScl true).goto (.byte r .ackWait))
  | .ackWait => .next (if s.sclIn then s.goto (.byte r .ackSample) else s)
  | .ackSample => .next { s with ackLevel := s.sdaIn, ustep := .byte r .ackHold }
  | .ackHold => .next ((s.delay .half).goto (.byte r .parkScl))
  | .parkScl => .next ((s.setScl false).goto (.byte r .parkSda))
  | .parkSda => afterByte i r (s.setSda false)

/-- The hook (R148, R149): it delays and does nothing else. -/
def hookStep (i : Instr) (s : State) : Result :=
  nextByte i (s.delay (hookDelay s.byteidx (byteCount s i)))

/-- The primitive at the control position. With no command running there is none. -/
def primitive (s : State) : Result :=
  match s.curOp with
  | none => .next s
  | some i =>
    match s.ustep with
    | .idle => .next s
    | .start p => startStep i p s
    | .byte r p => byteStep i r p s
    | .hook => hookStep i s
    | .stop p => stopStep i p s

/-- One step of the running command (R10). -/
def tick (s : State) : Result := clocked s primitive

/-- Steps of the running command, at most the number given, until it has ended or a read of the clock in
`wait_scl_high()` has left it where it was (log entry 4). -/
def runSteps : Nat → State → Result
  | 0, s => .next s
  | n + 1, s => andThen (tick s) fun t =>
      if t.curOp.isSome && decide (t.ustep ≠ s.ustep) then runSteps n t else .next t

/-- More steps than any command has between two reads of the clock that find it low: `SENDC` of a full
byte, the longest, has 304. -/
def runBound : Nat := 512

/-- Run the command at the control position. -/
def runCommand (s : State) : Result := runSteps runBound s

end Sys2Proof.Machine
end

