-- ==== Sys2Proof/Machine/BusDriver.lean ====
section
/-! DEFINITION. The bus driver commands (40_bus_driver.md). -/

namespace Sys2Proof.Machine

/-- `INIT` (R101): both lines released in one step, the shift-register state and `OPEN` cleared,
`INITD` set. -/
def execInit (s : State) : Result :=
  checked .init s fun s =>
    oneStep s
      (fun t => State.observe { t with
        sdaOut := true, sclOut := true, shreg := 0, bitcnt := 0, isOpen := false, initd := true })
      (fun _ => 0)

/-- `START` (R102). -/
def execStart (s : State) : Result :=
  checked .start s fun s => runCommand (s.accept .start (.start .fallSda))

/-- `STOP` (R104). -/
def execStop (s : State) : Result :=
  checked .stop s fun s => runCommand (s.accept .stop (.stop .fallSda))

/-- `WBYTE v` (R106). -/
def execWbyte (v : Byte) (s : State) : Result :=
  checked (.wbyte v) s fun s =>
    runCommand (beginByte .single v (s.accept (.wbyte v) (.byte .single .putBit)))

/-- `LDBUF i, v` (R111). -/
def execLdbuf (idx : BitVec 3) (v : Byte) (s : State) : Result :=
  checked (.ldbuf idx v) s fun s =>
    oneStep s (fun t => { t with txbuf := t.txbuf.write idx.toNat v }) (fun _ => 0)

/-- `WBYTES n` and `WBYTES.H n` (R112). A count of 0 sends nothing: one step. -/
def execWbytes (h : Bool) (n : BitVec 3) (s : State) : Result :=
  checked (.wbytes h n) s fun s =>
    if n = 0 then oneStep s (fun t => { t with sentcnt := 0, byteidx := 0 }) (fun _ => 0)
    else andThen (beginLoop (.wbytes h n) (s.accept (.wbytes h n) .idle)) runCommand

end Sys2Proof.Machine
end

