-- ==== Sys2Proof/Machine/CommandSequencer.lean ====
section
/-! DEFINITION. The command sequencer commands (42_command_sequencer.md). -/

namespace Sys2Proof.Machine

/-- `PACK.ks v` (R144). -/
def execPack (size : Size) (kind : Kind) (v : Byte) (s : State) : Result :=
  checked (.pack size kind v) s fun s => oneStep s (State.packed size kind v) (fun _ => 0)

/-- `EMITC.ks v` (R145): `PACK`, then `WBYTES(TXLEN, 1)`. -/
def execEmitc (size : Size) (kind : Kind) (v : Byte) (s : State) : Result :=
  checked (.emitc size kind v) s fun s =>
    andThen
      (beginLoop (.emitc size kind v) ((s.packed size kind v).accept (.emitc size kind v) .idle))
      runCommand

/-- `SENDC.ks v` (R146): `PACK`, `BEGINW(ADDR)`, `WBYTES(TXLEN, 1)` if the address byte was
acknowledged, `END` always. -/
def execSendc (size : Size) (kind : Kind) (v : Byte) (s : State) : Result :=
  checked (.sendc size kind v) s fun s =>
    runCommand ((s.packed size kind v).accept (.sendc size kind v) (.start .fallSda))

/-- `BLNOW` (R147). -/
def execBlnow (s : State) : Result :=
  checked .blnow s fun s => runCommand (s.packedBacklight.accept .blnow (.start .fallSda))

end Sys2Proof.Machine
end

