-- ==== Sys2Proof/Machine/ConfigStatus.lean ====
section
/-! DEFINITION. The configuration and read-back commands (43_config_status.md). -/

namespace Sys2Proof.Machine

/-- `SETADDR a` (R170). -/
def execSetaddr (a : Addr7) (s : State) : Result :=
  checked (.setaddr a) s fun s => oneStep s (fun t => { t with addr := a }) (fun _ => 0)

/-- `SETBL b` (R171). -/
def execSetbl (b : Bool) (s : State) : Result :=
  checked (.setbl b) s fun s => oneStep s (fun t => { t with bl := b }) (fun _ => 0)

/-- `RDREG r` (R174): the register's value at that step in the response's `DATA`. -/
def execRdreg (r : BitVec 4) (s : State) : Result :=
  checked (.rdreg r) s fun s => oneStep s (fun t => t) (fun t => t.readReg r)

end Sys2Proof.Machine
end

