-- ==== Sys2Proof/Machine/Transaction.lean ====
section
/-! DEFINITION. The transaction wrapper commands (41_transaction.md). -/

namespace Sys2Proof.Machine

/-- `BEGINW a` (R130): `START`, then the address byte. -/
def execBeginw (a : Addr7) (s : State) : Result :=
  checked (.beginw a) s fun s => runCommand (s.accept (.beginw a) (.start .fallSda))

/-- `END` (R131): the body of `STOP`. -/
def execEndt (s : State) : Result :=
  checked .endt s fun s => runCommand (s.accept .endt (.stop .fallSda))

end Sys2Proof.Machine
end

