-- ==== Sys2Proof/Machine/Dispatch.lean ====
section
/-! DEFINITION. One arm a command. -/

namespace Sys2Proof.Machine

def exec (i : Instr) (s : State) : Host.Outcome State Fault Refusal :=
  match i with
  | .init => Sys2Proof.Machine.execInit s
  | .start => Sys2Proof.Machine.execStart s
  | .stop => Sys2Proof.Machine.execStop s
  | .wbyte v => Sys2Proof.Machine.execWbyte v s
  | .ldbuf idx v => Sys2Proof.Machine.execLdbuf idx v s
  | .wbytes h n => Sys2Proof.Machine.execWbytes h n s
  | .beginw a => Sys2Proof.Machine.execBeginw a s
  | .endt => Sys2Proof.Machine.execEndt s
  | .setaddr a => Sys2Proof.Machine.execSetaddr a s
  | .setbl b => Sys2Proof.Machine.execSetbl b s
  | .pack size kind v => Sys2Proof.Machine.execPack size kind v s
  | .emitc size kind v => Sys2Proof.Machine.execEmitc size kind v s
  | .sendc size kind v => Sys2Proof.Machine.execSendc size kind v s
  | .blnow => Sys2Proof.Machine.execBlnow s
  | .rdreg r => Sys2Proof.Machine.execRdreg r s

end Sys2Proof.Machine
end

