-- ==== Sys2Proof/Machine/HostAgent.lean ====
section
/-! DEFINITION. The host's side of the command port: reading responses, taking the next action, issuing
a command word (R20, R43, R100 (a)); and the step of the whole machine built from it. -/

namespace Sys2Proof.Machine

/-- The host reads a valid response into the variable `ok` of a batch operation, if that is what it
waits for (R189, R190): OK reads as true and NACK as false (R84, R100 (e)). ILLEGAL, which no rule maps to
a boolean, reads as false (DESIGN CHOICE, log entry 29; unsafe). -/
def State.hostReads (s : State) : State :=
  match s.rsp with
  | some r =>
    if s.host.tracking then
      { s with host := { s.host with ok := decide (r.st = .ok), tracking := false } }
    else s
  | none => s

/-- The host's coming actions become `q`. -/
def State.withQueue (q : List HostAct) (s : State) : State :=
  { s with host := { s.host with queue := q } }

/-- Whether the response to come is to be read into `ok`. -/
def State.withTracking (b : Bool) (s : State) : State :=
  { s with host := { s.host with tracking := b } }

/-- The session's variables become `v` (R180). -/
def State.withSession (v : Session) (s : State) : State :=
  { s with host := { s.host with session := v } }

/-- No command is presented: the block waits (R240), and its inputs go on. -/
def idleStep (s : State) : Result := clocked s fun t => .next t

/-- A command word is accepted (R100 (a)): it is decoded, and executed or refused with
IllegalCommand. -/
def issueWord (w : CmdWord) (s : State) : Result :=
  match decode w with
  | some i => exec i s
  | none => illegalCommand s

/-- The host's next action, when the block is not busy: a line of a session operation's expansion
(44_host_session.md). Waits and session updates take one idle step (DESIGN CHOICE, log entry 15; safe). -/
def hostAct (a : HostAct) (s : State) : Result :=
  match a with
  | .issue w => issueWord w (s.withTracking false)
  | .track w => issueWord w (s.withTracking true)
  | .ifOk w => if s.host.ok then issueWord w (s.withTracking true) else idleStep s
  | .wait _ => idleStep s
  | .width w => idleStep (s.withSession { s.host.session with width := w })
  | .cursor x y => idleStep (s.withSession { s.host.session with curX := x, curY := y })
  | .ready => idleStep (s.withSession { s.host.session with state := .ready })

/-- The block is not busy: the host acts, or there is nothing to do. The action leaves the queue whatever
becomes of it: a word presented at a step that samples `rst` 1, and a command that `rst` abandons, get no
response, the host goes on to its next action, and `ok` keeps its value (DESIGN CHOICE, log entry 24;
unsafe). -/
def hostStep (s : State) : Result :=
  match s.host.queue with
  | [] => idleStep s
  | a :: q => hostAct a (s.withQueue q)

/-- A step of the machine: a running command goes on; otherwise the host takes its next action (R20,
R30, R34). -/
def machineStep (s : State) : Result :=
  match s.hostReads.curOp with
  | some _ => runCommand s.hostReads
  | none => hostStep s.hostReads

/-- The inputs with `rst` low at the next step. -/
def clearNextRst : List Input → List Input
  | [] => []
  | d :: rest => { d with rst := false } :: rest

/-- `s` with a command word presented by the host, so that the next step accepts it: the block is not
busy and `rst` is not sampled at that step. -/
def State.present (w : CmdWord) (s : State) : State :=
  { s with
      curOp := none
      ustep := .idle
      env := { s.env with script := clearNextRst s.env.script }
      host := { s.host with queue := .issue w :: s.host.queue } }

end Sys2Proof.Machine
end

