-- ==== Sys2Proof/Machine/Ports.lean ====
section
/-! DEFINITION. The output ports of the block (R43), computed from its state. -/

namespace Sys2Proof.Machine

/-- `cmd_ready` = `NOT BUSY`. -/
def State.cmdReady (s : State) : Bool := !s.busy

/-- `rsp_valid`. -/
def State.rspValid (s : State) : Bool := s.rsp.isSome

/-- `rsp`, where it is valid. -/
def State.rspWord (s : State) : Option (BitVec 10) := s.rsp.map Response.word

/-- `sda_oe_n` equals `SDA_OUT`. -/
def State.sdaOeN (s : State) : Bool := s.sdaOut

/-- `scl_oe_n` equals `SCL_OUT`. -/
def State.sclOeN (s : State) : Bool := s.sclOut

/-- `cmd_valid`: the host has a command to present. A command under `ifOk` is presented only if `ok`
holds once the host has read the response it waited for (R20, R189, R190). While `BUSY` is 1 nothing is
accepted whatever this answers (R34); the model's host shows its next command then too, one under `ifOk`
by the `ok` it has so far (DESIGN CHOICE, log entry 28; unsafe). -/
def State.cmdValid (s : State) : Bool :=
  match s.hostReads.host.queue with
  | .issue _ :: _ => true
  | .track _ :: _ => true
  | .ifOk _ :: _ => s.hostReads.host.ok
  | .wait _ :: _ => false
  | .width _ :: _ => false
  | .cursor _ _ :: _ => false
  | .ready :: _ => false
  | [] => false

end Sys2Proof.Machine
end

