-- ==== Sys2Proof/Machine/Session.lean ====
section
/-! DEFINITION. The Display Session (44_host_session.md): each operation expanded into host actions. The
session is the host's and not part of the block (R4, R41). -/

namespace Sys2Proof.Machine

/-- The parameters the spec leaves OPEN for the host (R7; decisions D24, D25): model arguments. -/
structure HostParams where
  /-- `INIT_SEQ`: the steps of the controller's initialization, all of kind command (R184). -/
  initSeq : List (Size × Byte)
  /-- `CMD_SET_DDRAM`. -/
  cmdSetDdram : Byte
  /-- `CMD_CLEAR`. -/
  cmdClear : Byte
  deriving DecidableEq, Repr

/-- The defaults the spec offers, "from general knowledge, not in source" (R184, R185, R186). -/
def HostParams.offered : HostParams where
  initSeq := [(.nibble, 0x03), (.nibble, 0x03), (.nibble, 0x03), (.nibble, 0x02),
    (.full, 0x28), (.full, 0x0C), (.full, 0x01), (.full, 0x06)]
  cmdSetDdram := 0x80
  cmdClear := 0x01

/-- The shape of `INIT_SEQ` that the source gives: the first four steps nibble-only, the rest full
bytes (R184). -/
def HostParams.shaped (p : HostParams) : Bool :=
  decide (4 ≤ p.initSeq.length)
    && (p.initSeq.take 4).all (fun e => decide (e.1 = .nibble))
    && (p.initSeq.drop 4).all (fun e => decide (e.1 = .full))

/-- `LINE_OFFSET` (R182); a row above 3 has none. -/
def lineOffset : Nat → Option Nat
  | 0 => some 0x00
  | 1 => some 0x40
  | 2 => some 0x10
  | 3 => some 0x50
  | _ => none

/-- The operations (R91). `setup` is `initialize`; the last four are the accessors (R192). -/
inductive SessionOp where
  | setup (address : Byte) (width : Nat) (backlight : Bool)
  | moveCursor (x y : Nat)
  | clear
  | putChar (c : Byte)
  | putString (str : List Byte)
  | putStringFast (str : List Byte)
  | putStringAtFast (x y : Nat) (str : List Byte)
  | setBacklight (on now : Bool)
  | askBacklight
  | askWidth
  | askColumn
  | askRow
  deriving DecidableEq, Repr

/-- The set-address command byte of a position (R183 (a), (b)). A row above 3 is never asked for: the
callers refuse it (U8). -/
def setAddressByte (p : HostParams) (x y : Nat) : Byte :=
  p.cmdSetDdram ||| BitVec.ofNat 8 ((lineOffset y).getD 0 + x)

/-- The word of `SETADDR` with an 8-bit argument; with bit 7 set the block refuses it (U8). -/
def setAddrWord (address : Byte) : CmdWord := cmd16 0x9 0 address

def sendCommand (v : Byte) : CmdWord := encode (.sendc .full .command v)

def sendData (v : Byte) : CmdWord := encode (.sendc .full .data v)

def emitData (v : Byte) : CmdWord := encode (.emitc .full .data v)

/-- `move_cursor(x, y)` (R185). -/
def moveCursorActs (p : HostParams) (x y : Nat) : List HostAct :=
  [.issue (sendCommand (setAddressByte p x y)), .cursor x y, .wait .move]

/-- `clear()` (R186). -/
def clearActs (p : HostParams) : List HostAct :=
  [.issue (sendCommand p.cmdClear), .cursor 0 0, .wait .clear]

/-- Whether a `put_char` at column `x` fills the last column (R187). -/
def wraps (width x : Nat) : Bool := decide (width ≤ x + 1)

/-- `put_char(c)` from the cursor `(x, y)` (R187). -/
def putCharActs (p : HostParams) (width x y : Nat) (c : Byte) : List HostAct :=
  [.issue (sendData c), .cursor (x + 1) y]
    ++ if wraps width x then moveCursorActs p 0 (min (y + 1) 3) else []

/-- The cursor after `put_char` from `(x, y)` (R187). -/
def putCharCursor (width x y : Nat) : Nat × Nat :=
  if wraps width x then (0, min (y + 1) 3) else (x + 1, y)

/-- `put_string(s)` (R188): `put_char` for each character. -/
def putStringActs (p : HostParams) (width x y : Nat) : List Byte → List HostAct
  | [] => []
  | c :: rest =>
    putCharActs p width x y c
      ++ putStringActs p width (putCharCursor width x y).1 (putCharCursor width x y).2 rest

/-- `put_string_fast(s)` (R189), to the expander at the address given to `SETADDR`. -/
def putStringFastActs (address : Addr7) (x y : Nat) (str : List Byte) : List HostAct :=
  [.track (encode (.beginw address))]
    ++ str.map (fun c => .ifOk (emitData c))
    ++ [.issue (encode .endt), .cursor (x + str.length) y]

/-- `put_string_at_fast(x, y, s)` (R190): the cursor is updated first; `ok` is the result. -/
def putStringAtFastActs (p : HostParams) (address : Addr7) (x y : Nat) (str : List Byte) :
    List HostAct :=
  [.cursor (x + str.length) y,
   .track (encode (.beginw address)),
   .ifOk (encode (.emitc .full .command (setAddressByte p x y)))]
    ++ str.map (fun c => .ifOk (emitData c))
    ++ [.issue (encode .endt)]

/-- `set_backlight(on, instant)` (R191). -/
def setBacklightActs (on now : Bool) : List HostAct :=
  .issue (encode (.setbl on)) :: if now then [.issue (encode .blnow)] else []

/-- The accessor of the backlight flag, in R192's form `RDREG 2` (DESIGN CHOICE of R192's two, log entry
27; safe). -/
def askBacklightActs : List HostAct := [.issue (encode (.rdreg 2))]

/-- The initialization steps, each followed by the settle `t` (R184). -/
def initStepActs (t : Config.HostWait) (step : Size × Byte) : List HostAct :=
  [.issue (encode (.sendc step.1 .command step.2)), .wait t]

/-- The loop of `initialize` over `INIT_SEQ` (R184): the first step has the longer settle. -/
def initSeqActs : List (Size × Byte) → List HostAct
  | [] => []
  | step :: rest => initStepActs .initFirst step ++ rest.flatMap (initStepActs .initStep)

/-- `initialize(address, width, backlight_on)` (R184). -/
def setupActs (p : HostParams) (address : Byte) (width : Nat) (backlight : Bool) : List HostAct :=
  [.issue (setAddrWord address),
   .issue (encode (.setbl backlight)),
   .width width,
   .cursor 0 0,
   .issue (encode .init),
   .wait .powerOn]
    ++ initSeqActs p.initSeq
    ++ [.wait .initFinal, .ready]

/-- Whether a position is one the session accepts: a row of the table and a column below `WIDTH`
(R41, U8). -/
def Session.onScreen (v : Session) (x y : Nat) : Bool := decide (x < v.width) && decide (y < 4)

/-- An operation's expansion, or none where the host model refuses the call: before `initialize` (U2),
or with an argument out of range (U8). `initialize` called again in the *ready* state, of which the spec
says nothing, is expanded as the first time, and `state` stays *ready* while it runs (DESIGN CHOICE, log
entry 25; unsafe). -/
def SessionOp.expand (p : HostParams) (address : Addr7) (v : Session) (op : SessionOp) :
    Option (List HostAct) :=
  match op with
  | .setup a width backlight =>
    if 1 ≤ width ∧ width ≤ 40 then some (setupActs p a width backlight) else none
  | .moveCursor x y =>
    if v.state = .ready ∧ v.onScreen x y then some (moveCursorActs p x y) else none
  | .clear => if v.state = .ready then some (clearActs p) else none
  | .putChar c =>
    if v.state = .ready then some (putCharActs p v.width v.curX v.curY c) else none
  | .putString str =>
    if v.state = .ready then some (putStringActs p v.width v.curX v.curY str) else none
  | .putStringFast str =>
    if v.state = .ready then some (putStringFastActs address v.curX v.curY str) else none
  | .putStringAtFast x y str =>
    if v.state = .ready ∧ v.onScreen x y then some (putStringAtFastActs p address x y str) else none
  | .setBacklight on now => if v.state = .ready then some (setBacklightActs on now) else none
  | .askBacklight => if v.state = .ready then some askBacklightActs else none
  | .askWidth => if v.state = .ready then some [] else none
  | .askColumn => if v.state = .ready then some [] else none
  | .askRow => if v.state = .ready then some [] else none

/-- The host calls an operation. It has one thread: the call is refused while an earlier operation has
not ended (R180; DESIGN CHOICE, log entry 16; safe). The batch operations' address is `ADDR` at the call
(log entry 23), which after an `initialize` with an address above 0x7F is still the old one, its
`SETADDR` having been refused (DESIGN CHOICE, log entry 26; unsafe). -/
def State.call (p : HostParams) (op : SessionOp) (s : State) : Option State :=
  if s.host.queue = [] ∧ s.busy = false then
    match op.expand p s.addr s.host.session with
    | some acts => some (s.withQueue acts)
    | none => none
  else none

/-- The boolean a batch operation returns (R190, R194): `ok`, the last tracked response read (false for
ILLEGAL: log entry 29). -/
def State.batchResult (s : State) : Bool := s.hostReads.host.ok

/-- A value the host may read in the *ready* state only: before `initialize` it refuses (R181, U2). -/
def State.whenReady {α : Type} (x : α) (s : State) : Option α :=
  if s.host.session.state = .ready then some x else none

/-- What the four accessors answer (R192): the backlight flag as `RDREG 2` gives it, the width and the
cursor. -/
def State.backlight (s : State) : Option Bool := s.whenReady ((s.readReg 2).getLsbD 0)

def State.width (s : State) : Option Nat := s.whenReady s.host.session.width

def State.cursorColumn (s : State) : Option Nat := s.whenReady s.host.session.curX

def State.cursorRow (s : State) : Option Nat := s.whenReady s.host.session.curY

end Sys2Proof.Machine
end

