-- ==== Sys2Proof/Machine/Step.lean ====
section
/-! DEFINITION. The step of the machine. -/

namespace Sys2Proof.Machine

/-- One step: the running command goes on, or the host's next action is taken (`machineStep`). -/
def step (s : State) : Host.Outcome State Fault Refusal := machineStep s

/-- `s` with the word of the opcode table's numbering presented on the command port, so that the very
next step accepts it: the block fetches nothing (R30), commands arrive on the port (log entry 15). -/
def State.withFetchWord (s : State) (nbits w : Nat) : State :=
  s.present (BitVec.ofNat 16 (w % 2 ^ nbits))

end Sys2Proof.Machine
end

