-- ==== Sys2Proof/Safety.lean ====
section
/-! DEFINITION. What counts as a safe run: the invariant of the machine, the host's discipline (R132,
R218), and the promises about the environment that a claim may take as a premise (R246). -/

namespace Sys2Proof.Machine

/-! ### Promises about the environment -/

/-- `rst` is not sampled 1 at any coming step. -/
def Env.noReset (e : Env) : Prop := ∀ n, (e.ahead n).rst = false

/-- No slave holds the clock low at any coming step: every slave releases the clock in finite time, at
its shortest (R246). -/
def Env.clockFree (e : Env) : Prop := ∀ n, (e.ahead n).scl = true

/-- A slave holds the clock low for ever (U1). -/
def Env.clockHeld (e : Env) : Prop := ∀ n, (e.ahead n).scl = false

/-- Whether the scripted devices hold the data line low at the `n`-th coming step: with no expander on
the bus, the acknowledgment of a byte whose sample is that step (R109). -/
def Env.ackAt (e : Env) (n : Nat) : Bool := !(e.ahead n).sda

/-- How many of the first `n` bytes are acknowledged before the first that is not. -/
def ackedBefore (ack : Nat → Bool) : Nat → Nat
  | 0 => 0
  | n + 1 => if ack 0 then ackedBefore (fun k => ack (k + 1)) n + 1 else 0

/-! ### The lines -/

/-- Both lines released by the block: the idle level (R133). -/
def State.released (s : State) : Bool := s.sdaOut && s.sclOut

/-- Both lines driven low by the block: parked (R110). -/
def State.parked (s : State) : Bool := !s.sdaOut && !s.sclOut

/-- The drives as they stand when the next primitive is the one at a position. Between commands the
lines are parked or released together, and an open transaction is parked. -/
def linesAt (isOpen sda scl : Bool) : UStep → Bool
  | .idle => (sda == scl) && (!isOpen || !scl)
  | .start .fallSda => true
  | .start .holdSda => !sda
  | .start .fallScl => !sda
  | .start .holdScl => !sda && !scl
  | .byte _ .putBit => true
  | .byte _ .lowHalf => true
  | .byte _ .raise => true
  | .byte _ .highHalf => scl
  | .byte _ .fall => scl
  | .byte _ .ackRelease => !scl
  | .byte _ .ackLow => sda && !scl
  | .byte _ .ackRaise => sda && !scl
  | .byte _ .ackWait => sda && scl
  | .byte _ .ackSample => sda && scl
  | .byte _ .ackHold => sda && scl
  | .byte _ .parkScl => sda && scl
  | .byte _ .parkSda => sda && !scl
  | .hook => !sda && !scl
  | .stop .fallSda => true
  | .stop .lowHold => !sda
  | .stop .raise => !sda
  | .stop .waitScl => !sda && scl
  | .stop .highHold => !sda && scl
  | .stop .riseSda => !sda && scl
  | .stop .freeHold => sda && scl

/-! ### The control position -/

/-- Whether a command's `WBYTES` loop is part of its pseudocode (R112, R145, R146, R147). -/
def loops : Instr → Bool
  | .wbytes _ _ => true
  | .emitc _ _ _ => true
  | .sendc _ _ _ => true
  | .blnow => true
  | .init => false
  | .start => false
  | .stop => false
  | .wbyte _ => false
  | .ldbuf _ _ => false
  | .beginw _ => false
  | .endt => false
  | .setaddr _ => false
  | .setbl _ => false
  | .pack _ _ _ => false
  | .rdreg _ => false

/-- Whether a position is one of a command's pseudocode (R30). -/
def belongs (i : Instr) : UStep → Bool
  | .idle => false
  | .start _ => addresses i || decide (i = .start)
  | .byte .single _ =>
    match i with
    | .wbyte _ => true
    | .init => false
    | .start => false
    | .stop => false
    | .ldbuf _ _ => false
    | .wbytes _ _ => false
    | .beginw _ => false
    | .endt => false
    | .setaddr _ => false
    | .setbl _ => false
    | .pack _ _ _ => false
    | .emitc _ _ _ => false
    | .sendc _ _ _ => false
    | .blnow => false
    | .rdreg _ => false
  | .byte .frame _ => addresses i
  | .byte .data _ => loops i
  | .hook => hooked i
  | .stop _ => closes i || decide (i = .stop) || decide (i = .endt)

/-- Whether a position is one of the eight data clocks. -/
def inDataClock : UStep → Bool
  | .byte _ .putBit => true
  | .byte _ .lowHalf => true
  | .byte _ .raise => true
  | .byte _ .highHalf => true
  | .byte _ .fall => true
  | .byte _ .ackRelease => false
  | .byte _ .ackLow => false
  | .byte _ .ackRaise => false
  | .byte _ .ackWait => false
  | .byte _ .ackSample => false
  | .byte _ .ackHold => false
  | .byte _ .parkScl => false
  | .byte _ .parkSda => false
  | .idle => false
  | .start _ => false
  | .hook => false
  | .stop _ => false

/-- Whether a position is `wait_scl_high()` (R107: the two places). -/
def atWait : UStep → Bool
  | .byte _ .ackWait => true
  | .stop .waitScl => true
  | .byte _ .putBit => false
  | .byte _ .lowHalf => false
  | .byte _ .raise => false
  | .byte _ .highHalf => false
  | .byte _ .fall => false
  | .byte _ .ackRelease => false
  | .byte _ .ackLow => false
  | .byte _ .ackRaise => false
  | .byte _ .ackSample => false
  | .byte _ .ackHold => false
  | .byte _ .parkScl => false
  | .byte _ .parkSda => false
  | .idle => false
  | .start _ => false
  | .hook => false
  | .stop .fallSda => false
  | .stop .lowHold => false
  | .stop .raise => false
  | .stop .highHold => false
  | .stop .riseSda => false
  | .stop .freeHold => false

/-- The machine is inside a clock-stretch wait (R212). -/
def State.waiting (s : State) : Bool := s.busy && atWait s.ustep

/-- Where a command is in its byte loop: the index is below the count, and the bytes acknowledged are
those before it, with it too once the hook runs (R29, R112). -/
def loopOk (s : State) (i : Instr) : UStep → Bool
  | .byte .data _ =>
    decide (s.byteidx.toNat < (byteCount s i).toNat) && decide (s.sentcnt.toNat = s.byteidx.toNat)
  | .hook =>
    decide (s.byteidx.toNat < (byteCount s i).toNat)
      && decide (s.sentcnt.toNat = s.byteidx.toNat + 1)
  | .idle => true
  | .start _ => true
  | .byte .single _ => true
  | .byte .frame _ => true
  | .stop _ => true

/-- The running command and its position: none and idle, or a legal line-driving command at a position
of its own (R30, R34, R176). -/
def State.controlOk (s : State) : Bool :=
  match s.curOp with
  | none => decide (s.ustep = .idle)
  | some i => i.wf && i.needsInit && s.initd && belongs i s.ustep && loopOk s i s.ustep

/-- The counters' ranges (R25, R26, R28, R29, R89 item 4): none of them ever wraps. -/
def State.countersOk (s : State) : Bool :=
  decide (s.bitcnt.toNat ≤ 8) && decide (s.byteidx.toNat ≤ 4) && decide (s.txlen.toNat ≤ 5)
    && decide (s.sentcnt.toNat ≤ 5) && (!inDataClock s.ustep || decide (s.bitcnt.toNat < 8))

/-- Before `INIT` the block has touched no line and runs nothing (R176, R218, R240). -/
def State.uninitOk (s : State) : Bool := s.initd || (s.released && !s.isOpen && !s.busy)

/-- The invariant of the machine. It says nothing of the environment or the host. -/
abbrev State.Inv (s : State) : Prop :=
  s.txbuf.wf = true ∧ s.countersOk = true ∧ s.controlOk = true ∧ s.uninitOk = true
    ∧ linesAt s.isOpen s.sdaOut s.sclOut s.ustep = true ∧ s.timer = 0

/-! ### The course of a command -/

/-- `t` is where the machine stands with the command `i` accepted at `s`: right after its acceptance, or
after further steps of the machine, each taken while the command ran on without a response (R30, R34,
R84). A command that no read of the clock has kept waiting has none of these. -/
inductive Carried (i : Instr) (s : State) : State → Prop
  | accepted {t : State} : exec i s = .next t → Carried i s t
  | goesOn {t u : State} :
      Carried i s t → t.busy = true → t.rsp = none → step t = .next u → Carried i s u

/-- Whether the next primitive is the first of a byte, `SHREG` holding the byte whole (R106). -/
def State.atByteHead (s : State) : Bool :=
  s.curOp.isSome && decide (s.bitcnt = 0) &&
    match s.ustep with
    | .byte _ p => decide (p = .putBit)
    | .idle => false
    | .start _ => false
    | .hook => false
    | .stop _ => false

/-- The bytes that the next `n` steps of the running command begin to send, in order: `SHREG` at the head
of each. -/
def bytesBegun : Nat → State → List Byte
  | 0, _ => []
  | n + 1, s =>
    (if s.atByteHead then [s.shreg] else []) ++
      match tick s with
      | .next t => bytesBegun n t
      | .fault _ => []
      | .refused _ => []

/-! ### The host's discipline -/

/-- The commands that are correct use in each mode (R218). That a byte may be sent only while no byte of
the transaction has failed is not told by the mode: it is the premise `fine`. -/
def Mode.correctUse (m : Mode) (fine : Bool) (i : Instr) : Bool :=
  match m with
  | .uninitialised => m.legal i
  | .idle =>
    match i with
    | .wbyte _ => false
    | .wbytes _ _ => false
    | .emitc _ _ _ => false
    | .stop => false
    | .endt => false
    | .init => true
    | .start => true
    | .ldbuf _ _ => true
    | .beginw _ => true
    | .setaddr _ => true
    | .setbl _ => true
    | .pack _ _ _ => true
    | .sendc _ _ _ => true
    | .blnow => true
    | .rdreg _ => true
  | .opened =>
    match i with
    | .wbyte _ => fine
    | .wbytes _ _ => fine
    | .emitc _ _ _ => fine
    | .stop => true
    | .endt => true
    | .ldbuf _ _ => true
    | .setaddr _ => true
    | .setbl _ => true
    | .pack _ _ _ => true
    | .rdreg _ => true
    | .init => false
    | .start => false
    | .beginw _ => false
    | .sendc _ _ _ => false
    | .blnow => false

/-- The lines as the next bus user needs them before a start condition: idle and high (R247). -/
def State.busIdle (s : State) : Bool := s.sdaIn && s.sclIn

end Sys2Proof.Machine
end

