-- ==== Sys2Proof/Certificates/Slice0/Obligations.lean ====
section
/-! DEFINITION. The statements for the provers, with the predicates they share. A statement about one
step takes `rst` low at the inputs it uses; what `rst` does is stated on its own. -/

namespace Sys2Proof.Machine

/-! ### What a statement says is unchanged -/

/-- `ADDR`, `BL` and `INITD` keep their values. -/
structure SameSettings (s t : State) : Prop where
  addr : t.addr = s.addr
  bl : t.bl = s.bl
  initd : t.initd = s.initd

/-- Every byte of the transmit buffer reads as before. -/
def SameBuffer (s t : State) : Prop := ∀ j, t.txbuf.get j = s.txbuf.get j

/-- `SHREG`, `BITCNT` and `LASTOK` keep their values. -/
structure SameShift (s t : State) : Prop where
  shreg : t.shreg = s.shreg
  bitcnt : t.bitcnt = s.bitcnt
  lastok : t.lastok = s.lastok

/-- `BYTEIDX` and `SENTCNT` keep their values. -/
structure SameLoop (s t : State) : Prop where
  byteidx : t.byteidx = s.byteidx
  sentcnt : t.sentcnt = s.sentcnt

/-- Both drives and `OPEN` keep their values. -/
structure SameLines (s t : State) : Prop where
  sdaOut : t.sdaOut = s.sdaOut
  sclOut : t.sclOut = s.sclOut
  isOpen : t.isOpen = s.isOpen

/-- Every register and both lines keep their values. -/
structure SameBlock (s t : State) : Prop where
  settings : SameSettings s t
  buffer : SameBuffer s t
  txlen : t.txlen = s.txlen
  shift : SameShift s t
  loop : SameLoop s t
  lines : SameLines s t

/-! ### How a command ends -/

/-- The command has ended with a response: `CUR_OP` is none, `BUSY` is 0 (R30, R34, R84). -/
structure Ended (t : State) (st : Status) (data : Byte) : Prop where
  curOp : t.curOp = none
  ustep : t.ustep = .idle
  rsp : t.rsp = some { st := st, data := data }

/-- One step has passed: the inputs have moved on by one and no delay was taken. -/
structure OneStep (s t : State) : Prop where
  ahead : ∀ n, t.env.ahead n = s.env.ahead (n + 1)
  spent : t.spent = s.spent

/-- The delays taken between two states (R258). -/
structure Took (s t : State) (half en prearm : Nat) : Prop where
  half : t.spent.half = s.spent.half + half
  en : t.spent.en = s.spent.en + en
  prearm : t.spent.prearm = s.spent.prearm + prearm

/-- The machine answers IllegalCommand: the response is ILLEGAL with `DATA` 0, `BUSY` is as it was, every
register and both lines are as before (R211). -/
def AnswersIllegal (o : Result) (s : State) : Prop :=
  ∃ t, o = .next t ∧ t.rsp = some { st := .illegal, data := 0 } ∧ t.busy = s.busy ∧ SameBlock s t

/-- The drives after each of the next `n` steps of the running command. -/
def driveTrace : Nat → State → List (Bool × Bool)
  | 0, _ => []
  | n + 1, s =>
    match tick s with
    | .next t => (t.sdaOut, t.sclOut) :: driveTrace n t
    | .fault _ => []
    | .refused _ => []

/-- The drives of one data clock that carries `b`, from the clock drive `scl` (R108). -/
def bitDrives (scl b : Bool) : List (Bool × Bool) :=
  [(b, scl), (b, scl), (b, true), (b, true), (b, false)]

/-- The drives of the ninth clock and the park (R109, R110). -/
def ackDrives : List (Bool × Bool) :=
  [(true, false), (true, false), (true, true), (true, true), (true, true), (true, true),
   (true, false), (false, false)]

/-- The drives of a byte (R106): eight data clocks, most significant bit first, the ninth clock, the park. -/
def byteDrives (scl : Bool) (v : Byte) : List (Bool × Bool) :=
  bitDrives scl (v.getLsbD 7) ++ bitDrives false (v.getLsbD 6) ++ bitDrives false (v.getLsbD 5)
    ++ bitDrives false (v.getLsbD 4) ++ bitDrives false (v.getLsbD 3) ++ bitDrives false (v.getLsbD 2)
    ++ bitDrives false (v.getLsbD 1) ++ bitDrives false (v.getLsbD 0) ++ ackDrives

/-- The next `n` steps of the running command, one primitive each (R10). -/
def ticks : Nat → State → Result
  | 0, s => .next s
  | n + 1, s => andThen (tick s) (ticks n)

/-- The state in which a transaction's address byte is about to be sent: the start condition is made and
`SHREG` holds the frame of `a` (R130). -/
structure FrameLoaded (t : State) (a : Addr7) : Prop where
  shreg : t.shreg = frameOf a
  ustep : t.ustep = .byte .frame .putBit
  isOpen : t.isOpen = true

/-- Whether byte `k` of a byte loop whose first step is the `start`-th coming one is acknowledged: its
sample is the 45th step of the byte, and a hook adds a step to each byte before it. -/
def loopAck (e : Env) (start : Nat) (hook : Bool) (k : Nat) : Bool :=
  e.ackAt (start + (if hook then 49 else 48) * k + 44)

/-- The delays of a byte loop of `n` bytes of which `k` are acknowledged before the first that is not
(R112, R149): bytes on the wire, hooks run, pre-arm gaps. -/
def loopBytes (n k : Nat) : Nat := min (k + 1) n

def loopHooks (hook : Bool) (k : Nat) : Nat := if hook then k else 0

def loopPrearms (hook : Bool) (n k : Nat) : Nat := if hook ∧ 2 ≤ n ∧ n ≤ k + 1 then 1 else 0

/-- What a byte loop of `n` bytes, at least one, leaves in the registers when `k` bytes are acknowledged
before the first that is not (R112). -/
structure LoopLeft (t : State) (n k : Nat) : Prop where
  sentcnt : t.sentcnt.toNat = k
  byteidx : t.byteidx.toNat = min k (n - 1)
  lastok : t.lastok = decide (k = n)
  shreg : t.shreg = 0
  bitcnt : t.bitcnt = 8

/-- The number of bytes a packed command has (R88, R140). -/
def packedCount : Size → Nat
  | .full => 5
  | .nibble => 3

/-- The transmit buffer after packing: the packed bytes from index 0, every other byte as before (R144). -/
def HoldsPacked (s t : State) (size : Size) (kind : Kind) (v : Byte) : Prop :=
  (∀ j, t.txbuf.get j =
      if j < packedCount size then (packBytes s.bl size kind v).getD j 0 else s.txbuf.get j)
    ∧ t.txlen.toNat = packedCount size

end Sys2Proof.Machine

open Sys2Proof Sys2Proof.Machine

/-! ### Encoding -/

/-- Words of the spec's own list (95_test_vectors.md V4) decode to the commands it names. A sanity
statement. -/
def Obligations.ReferenceWordsDecode : Prop :=
  decode 0x1000 = some .init ∧ decode 0x404E = some (.wbyte 0x4E)
    ∧ decode 0x52BD = some (.ldbuf 2 0xBD) ∧ decode 0x6805 = some (.wbytes true 5)
    ∧ decode 0x7027 = some (.beginw 0x27) ∧ decode 0x8000 = some .endt
    ∧ decode 0x9027 = some (.setaddr 0x27) ∧ decode 0xA001 = some (.setbl true)
    ∧ decode 0xB303 = some (.pack .nibble .data 0x03)
    ∧ decode 0xC084 = some (.emitc .full .command 0x84)
    ∧ decode 0xD1AB = some (.sendc .full .data 0xAB)
    ∧ decode 0xD203 = some (.sendc .nibble .command 0x03) ∧ decode 0xF00C = some (.rdreg 12)

/-- Decoding the word of a well-formed command gives it back, every operand at every value the encoding
admits. -/
def Obligations.DecodeOfEncodeIsIdentity : Prop :=
  ∀ i : Instr, i.wf = true → decode (encode i) = some i

/-- A word decodes to a well-formed command whose word it is: no word stands for two commands and no two
words for one. -/
def Obligations.LegalWordsHaveOneMeaning : Prop :=
  ∀ (w : CmdWord) (i : Instr), decode w = some i → i.wf = true ∧ encode i = w

namespace Sys2Proof.Machine

/-- A row of the opcode map of R82. -/
structure OpcodeRow where
  matchBits : CmdWord
  mask : CmdWord

/-- The row a command belongs to, its `match` and `mask` as R82 prints them. -/
def rowOf : Instr → OpcodeRow
  | .init => ⟨0x1000, 0xFFFF⟩
  | .start => ⟨0x2000, 0xFFFF⟩
  | .stop => ⟨0x3000, 0xFFFF⟩
  | .wbyte _ => ⟨0x4000, 0xFF00⟩
  | .ldbuf _ _ => ⟨0x5000, 0xF800⟩
  | .wbytes _ _ => ⟨0x6000, 0xF7F8⟩
  | .beginw _ => ⟨0x7000, 0xFF80⟩
  | .endt => ⟨0x8000, 0xFFFF⟩
  | .setaddr _ => ⟨0x9000, 0xFF80⟩
  | .setbl _ => ⟨0xA000, 0xFFFE⟩
  | .pack _ _ _ => ⟨0xB000, 0xFC00⟩
  | .emitc _ _ _ => ⟨0xC000, 0xFC00⟩
  | .sendc _ _ _ => ⟨0xD000, 0xFC00⟩
  | .blnow => ⟨0xE000, 0xFFFF⟩
  | .rdreg _ => ⟨0xF000, 0xFFF0⟩

/-- The value limits of R82, on the word: `LDBUF`'s `IDX`, `WBYTES`' `N`, `RDREG`'s `REG`. -/
def limitHolds (w : CmdWord) : Bool :=
  let op := w.toNat / 4096
  if op = 5 then decide (w.toNat / 256 % 8 ≤ 4)
  else if op = 6 then decide (w.toNat % 8 ≤ 5)
  else if op = 15 then decide (w.toNat % 16 ≠ 7 ∧ w.toNat % 16 ≤ 12)
  else true

end Sys2Proof.Machine

/-- The opcode map (R82): a word is the command of a row when the row's bits match and the value limits
hold, for every word and every row. -/
def Obligations.OpcodeMapIsTheDecoder : Prop :=
  ∀ (w : CmdWord) (j : Instr),
    (w &&& (rowOf j).mask = (rowOf j).matchBits ∧ limitHolds w = true) ↔
      ∃ i, decode w = some i ∧ rowOf i = rowOf j

/-- Operand assembly (R87): which bits of a legal word each operand is. -/
def Obligations.OperandsComeFromTheirBits : Prop :=
  ∀ (w : CmdWord) (i : Instr), decode w = some i →
    match i with
    | .wbyte v => v = w.extractLsb' 0 8
    | .ldbuf idx v => idx = w.extractLsb' 8 3 ∧ v = w.extractLsb' 0 8
    | .wbytes h n => h = w.getLsbD 11 ∧ n = w.extractLsb' 0 3
    | .beginw a => a = w.extractLsb' 0 7
    | .setaddr a => a = w.extractLsb' 0 7
    | .setbl b => b = w.getLsbD 0
    | .pack size kind v =>
      size.toBool = w.getLsbD 9 ∧ kind.toBool = w.getLsbD 8 ∧ v = w.extractLsb' 0 8
    | .emitc size kind v =>
      size.toBool = w.getLsbD 9 ∧ kind.toBool = w.getLsbD 8 ∧ v = w.extractLsb' 0 8
    | .sendc size kind v =>
      size.toBool = w.getLsbD 9 ∧ kind.toBool = w.getLsbD 8 ∧ v = w.extractLsb' 0 8
    | .rdreg r => r = w.extractLsb' 0 4
    | .init => True
    | .start => True
    | .stop => True
    | .endt => True
    | .blnow => True

/-! ### The step -/

/-- A step runs the decoded command: when the block is not busy and the host presents a word, the step is
`exec` of the command the word decodes to, or IllegalCommand; around it the host has read a response it
waited for and taken the action off its queue. `withFetchWord` presents a word so and touches no register.
A running command goes on; with nothing to do the step is idle, and while `cmd_valid` is 0 no command is
accepted. The queue and its actions are the model's own form of the host (log entry 15); that a word
presented at a step that samples `rst` 1 leaves the queue too is the model's choice (log entry 24). -/
def Obligations.StepRunsTheDecodedCommand : Prop :=
  (∀ (s : State) (w : CmdWord) (q : List HostAct) (i : Instr),
      s.curOp = none → s.host.queue = .issue w :: q → decode w = some i →
      step s = exec i ((s.hostReads.withQueue q).withTracking false))
  ∧ (∀ (s : State) (w : CmdWord) (q : List HostAct) (i : Instr),
      s.curOp = none → s.host.queue = .track w :: q → decode w = some i →
      step s = exec i ((s.hostReads.withQueue q).withTracking true))
  ∧ (∀ (s : State) (w : CmdWord) (q : List HostAct) (i : Instr),
      s.curOp = none → s.host.queue = .ifOk w :: q → s.hostReads.host.ok = true →
      decode w = some i → step s = exec i ((s.hostReads.withQueue q).withTracking true))
  ∧ (∀ (s : State) (w : CmdWord) (q : List HostAct),
      s.curOp = none → s.host.queue = .issue w :: q → decode w = none →
      step s = illegalCommand ((s.hostReads.withQueue q).withTracking false))
  ∧ (∀ (s : State) (nbits w : Nat) (i : Instr), decodeTableWord nbits w = some i →
      step (s.withFetchWord nbits w)
          = exec i (((s.withFetchWord nbits w).hostReads.withQueue s.host.queue).withTracking false)
        ∧ (s.withFetchWord nbits w).curOp = none ∧ SameBlock s (s.withFetchWord nbits w)
        ∧ ((s.withFetchWord nbits w).env.ahead 0).sda = (s.env.ahead 0).sda
        ∧ ((s.withFetchWord nbits w).env.ahead 0).scl = (s.env.ahead 0).scl
        ∧ ((s.withFetchWord nbits w).env.ahead 0).rst = false)
  ∧ (∀ (s : State) (i : Instr), s.curOp = some i → step s = runCommand s.hostReads)
  ∧ (∀ s : State, s.curOp = none → s.host.queue = [] → step s = idleStep s.hostReads)
  ∧ (∀ s : State, s.cmdReady = true → s.cmdValid = false → (s.env.ahead 0).rst = false →
      ∃ t, step s = .next t ∧ t.busy = false ∧ t.rsp = none ∧ SameBlock s t)

/-- Every command answers a next state from every state: no command faults or is refused, whatever the
inputs do (a wait that finds the clock low is a next state too, R212). -/
def Obligations.ExecAlwaysAnswersNext : Prop :=
  ∀ (i : Instr) (s : State), ∃ t, exec i s = .next t

/-- Every legal command ends with one response, OK or NACK, when `rst` stays low and every slave leaves
the clock free (R84, R246): line-driving commands once `INITD` is set, the others always. Slaves may
drive the data line at will, a reacting expander included. -/
def Obligations.CommandsEndOnAFreeClock : Prop :=
  ∀ (i : Instr) (s : State), i.wf = true → (i.needsInit = true → s.initd = true) →
    s.env.noReset → s.env.clockFree →
    ∃ t r, exec i s = .next t ∧ t.curOp = none ∧ t.busy = false ∧ t.rsp = some r
      ∧ (r.st = .ok ∨ r.st = .nack)

/-- After a command is accepted the block either has ended it, with its response, or is busy in a
clock-stretch wait whose read found the clock low, with none (R34, R84, R107). -/
def Obligations.BusyUntilTheResponse : Prop :=
  ∀ (i : Instr) (s t : State), s.curOp = none → s.env.noReset → exec i s = .next t →
    (t.busy = false ∧ t.rsp.isSome = true)
      ∨ (t.busy = true ∧ t.curOp = some i ∧ t.rsp = none ∧ atWait t.ustep = true
          ∧ t.sclOut = true ∧ t.sclIn = false)

/-- The response word (R84): its fields, the status codes, `11` never produced; `DATA` is 0 but for
`RDREG`. -/
def Obligations.ResponseCoding : Prop :=
  (∀ r : Response, r.word.extractLsb' 0 8 = r.data ∧ r.word.extractLsb' 8 2 ≠ 3#2
      ∧ (r.word.extractLsb' 8 2 = 0#2 ↔ r.st = .ok) ∧ (r.word.extractLsb' 8 2 = 1#2 ↔ r.st = .nack)
      ∧ (r.word.extractLsb' 8 2 = 2#2 ↔ r.st = .illegal))
  ∧ (∀ (i : Instr) (s t : State) (r : Response), (∀ n, i ≠ .rdreg n) → exec i s = .next t →
      t.rsp = some r → r.data = 0)

/-! ### Illegal commands -/

/-- An illegal word, and a line-driving command before `INIT`, raise IllegalCommand and change nothing
(R211). -/
def Obligations.IllegalCommandChangesNothing : Prop :=
  (∀ (s : State) (w : CmdWord), (s.env.ahead 0).rst = false → decode w = none →
      AnswersIllegal (issueWord w s) s)
  ∧ (∀ (s : State) (i : Instr), (s.env.ahead 0).rst = false → i.needsInit = true →
      s.initd = false → AnswersIllegal (exec i s) s)

/-- Line-driving commands before `INIT` (R176): the nine are refused, the six are legal at any time. -/
def Obligations.LineCommandsNeedInit : Prop :=
  (∀ (s : State) (v : Byte) (h : Bool) (n : BitVec 3) (a : Addr7) (size : Size) (kind : Kind),
      s.initd = false → (s.env.ahead 0).rst = false →
      AnswersIllegal (exec .start s) s ∧ AnswersIllegal (exec .stop s) s
        ∧ AnswersIllegal (exec (.wbyte v) s) s ∧ AnswersIllegal (exec (.wbytes h n) s) s
        ∧ AnswersIllegal (exec (.beginw a) s) s ∧ AnswersIllegal (exec .endt s) s
        ∧ AnswersIllegal (exec (.emitc size kind v) s) s
        ∧ AnswersIllegal (exec (.sendc size kind v) s) s ∧ AnswersIllegal (exec .blnow s) s)
  ∧ (∀ (s : State) (i : Instr), (s.env.ahead 0).rst = false → i.wf = true → i.needsInit = false →
      ∃ t d, exec i s = .next t ∧ t.rsp = some { st := .ok, data := d })

/-! ### Reset and INIT -/

/-- The block's registers as the reset column of R44 has them. -/
def Sys2Proof.Machine.ResetColumn (t : State) : Prop :=
  t.sdaOut = true ∧ t.sclOut = true ∧ t.shreg = 0 ∧ t.bitcnt = 0 ∧ t.byteidx = 0
    ∧ (∀ j, t.txbuf.get j = 0) ∧ t.txlen = 0 ∧ t.sentcnt = 0 ∧ t.isOpen = false
    ∧ t.lastok = false ∧ t.initd = false ∧ t.busy = false ∧ t.curOp = none ∧ t.ustep = .idle
    ∧ t.addr = 0 ∧ t.bl = false

/-- Hardware reset and `INIT` leave the two columns of R44's table; the mode after reset is
uninitialised. -/
def Obligations.ResetTable : Prop :=
  (ResetColumn State.reset ∧ State.reset.mode = .uninitialised)
  ∧ (∀ s : State, (s.env.ahead 0).rst = true →
      ∃ t, step s = .next t ∧ ResetColumn t ∧ t.mode = .uninitialised)
  ∧ (∀ s : State, (s.env.ahead 0).rst = false →
      ∃ t, exec .init s = .next t ∧ t.sdaOut = true ∧ t.sclOut = true ∧ t.shreg = 0
        ∧ t.bitcnt = 0 ∧ t.isOpen = false ∧ t.initd = true ∧ t.busy = false ∧ t.curOp = none
        ∧ t.ustep = .idle ∧ SameLoop s t ∧ SameBuffer s t ∧ t.txlen = s.txlen
        ∧ t.lastok = s.lastok ∧ t.addr = s.addr ∧ t.bl = s.bl)

/-- `rst` at any step of a running command, a read in a clock-stretch wait included, abandons the command
without a response and releases both lines in that step (R240, R241). The other agents go on: the
coming inputs and the host's plans stay (log entry 12). -/
def Obligations.ResetAbandonsTheCommand : Prop :=
  ∀ (s : State) (i : Instr), s.curOp = some i → (s.env.ahead 0).rst = true →
    ∃ t, tick s = .next t ∧ ResetColumn t ∧ t.rsp = none ∧ t.env.script = s.env.advance.script
      ∧ t.host = s.host

/-- `INIT` (R101): both lines released in one step, the shift-register state and `OPEN` cleared, `INITD`
set, nothing else touched, no delay, in every mode. -/
def Obligations.InitReleasesAndClears : Prop :=
  ∀ s : State, (s.env.ahead 0).rst = false →
    ∃ t, exec .init s = .next t ∧ Ended t .ok 0 ∧ OneStep s t ∧ t.sdaOut = true ∧ t.sclOut = true
      ∧ t.shreg = 0 ∧ t.bitcnt = 0 ∧ t.isOpen = false ∧ t.initd = true ∧ t.addr = s.addr
      ∧ t.bl = s.bl ∧ SameBuffer s t ∧ t.txlen = s.txlen ∧ SameLoop s t ∧ t.lastok = s.lastok

/-! ### Configuration and read-back -/

/-- `SETADDR a` (R170): the register and nothing else, in every mode; `SENDC` and `BLNOW` put it in their
address byte after the four steps of their start condition, `BEGINW` its own operand. -/
def Obligations.SetaddrStoresTheAddress : Prop :=
  (∀ (s : State) (a : Addr7), (s.env.ahead 0).rst = false →
    ∃ t, exec (.setaddr a) s = .next t ∧ Ended t .ok 0 ∧ OneStep s t ∧ t.addr = a ∧ t.bl = s.bl
      ∧ t.initd = s.initd ∧ SameBuffer s t ∧ t.txlen = s.txlen ∧ SameShift s t ∧ SameLoop s t
      ∧ SameLines s t)
  ∧ (∀ (s : State) (a : Addr7) (size : Size) (kind : Kind) (v : Byte),
      frameAddr s (.sendc size kind v) = s.addr ∧ frameAddr s .blnow = s.addr
        ∧ frameAddr s (.beginw a) = a)
  ∧ (∀ (s : State) (size : Size) (kind : Kind) (v : Byte), s.env.noReset →
      (∃ t, ticks 4 ((s.packed size kind v).accept (.sendc size kind v) (.start .fallSda)) = .next t
        ∧ FrameLoaded t s.addr)
      ∧ (∃ t, ticks 4 (s.packedBacklight.accept .blnow (.start .fallSda)) = .next t
        ∧ FrameLoaded t s.addr))
  ∧ (∀ w : CmdWord, opField w = 9 → (w.getLsbD 7 = true ∨ modField w ≠ 0) → decode w = none)

/-- `SETBL b` (R171): the flag and nothing else; bytes already packed are not repacked. -/
def Obligations.SetblStoresTheFlag : Prop :=
  (∀ (s : State) (b : Bool), (s.env.ahead 0).rst = false →
    ∃ t, exec (.setbl b) s = .next t ∧ Ended t .ok 0 ∧ OneStep s t ∧ t.bl = b ∧ t.addr = s.addr
      ∧ t.initd = s.initd ∧ SameBuffer s t ∧ t.txlen = s.txlen ∧ SameShift s t ∧ SameLoop s t
      ∧ SameLines s t)
  ∧ (∀ w : CmdWord, opField w = 10 → (w.extractLsb' 1 7 ≠ 0#7 ∨ modField w ≠ 0) → decode w = none)

/-- `RDREG r` (R39, R174): the value of each register number, zero-extended; nothing is written; the
reserved numbers are refused. `PINS` is sampled at the step itself. -/
def Obligations.RdregReturnsTheRegister : Prop :=
  (∀ (s : State) (r : BitVec 4), (s.env.ahead 0).rst = false → legalReg r = true →
    ∃ t d, exec (.rdreg r) s = .next t ∧ Ended t .ok d ∧ OneStep s t ∧ SameBlock s t
      ∧ (r = 0 → d = 0#4 ++ bit s.lastok ++ 0#1 ++ bit s.isOpen ++ bit s.initd)
      ∧ (r = 1 → d.toNat = s.addr.toNat) ∧ (r = 2 → d.toNat = s.bl.toNat)
      ∧ (r = 3 → d.toNat = s.txlen.toNat) ∧ (r = 4 → d.toNat = s.sentcnt.toNat)
      ∧ (r = 5 → d = s.shreg)
      ∧ (r = 6 → d = 0#4 ++ bit t.sclOut ++ bit t.sdaOut ++ bit t.sclIn ++ bit t.sdaIn)
      ∧ (8 ≤ r.toNat → d = s.txbuf.get (r.toNat - 8)))
  ∧ (∀ (s : State) (r : BitVec 4), (s.env.ahead 0).rst = false →
      (r = 7 ∨ r = 13 ∨ r = 14 ∨ r = 15) → AnswersIllegal (exec (.rdreg r) s) s)
  ∧ (∀ w : CmdWord, opField w = 15 →
      (w.extractLsb' 4 8 ≠ 0#8 ∨ legalReg (w.extractLsb' 0 4) = false) → decode w = none)

/-- `STATUS` and `PINS` (R37, R38): their bits, the reserved ones 0, `BUSY` 0 as `RDREG` reads it, over
line levels that are the wired AND of the block's drive and the environment's (R22). -/
def Obligations.StatusAndPinsBits : Prop :=
  ∀ s : State, s.status.getLsbD 0 = s.initd ∧ s.status.getLsbD 1 = s.isOpen
    ∧ s.status.getLsbD 2 = s.busy ∧ s.status.getLsbD 3 = s.lastok
    ∧ (∀ k, 4 ≤ k → s.status.getLsbD k = false)
    ∧ s.statusRead = s.status &&& 0xFB
    ∧ s.pins.getLsbD 0 = (s.sdaOut && s.env.sdaEnv)
    ∧ s.pins.getLsbD 1 = (s.sclOut && s.env.sclEnv) ∧ s.pins.getLsbD 2 = s.sdaOut
    ∧ s.pins.getLsbD 3 = s.sclOut ∧ (∀ k, 4 ≤ k → s.pins.getLsbD k = false)

/-- `LDBUF i, v` (R111): one byte of the buffer, every other byte and register as before, in every mode;
an index above 4, and bit 11 set, are refused. The buffer is in its canonical form (log entry 8). -/
def Obligations.LdbufStoresOneByte : Prop :=
  (∀ (s : State) (idx : BitVec 3) (v : Byte), s.txbuf.wf = true → (s.env.ahead 0).rst = false →
    idx.toNat ≤ 4 →
    ∃ t, exec (.ldbuf idx v) s = .next t ∧ Ended t .ok 0 ∧ OneStep s t
      ∧ t.txbuf.get idx.toNat = v ∧ (∀ j, j ≠ idx.toNat → t.txbuf.get j = s.txbuf.get j)
      ∧ t.txbuf.wf = true ∧ t.txlen = s.txlen ∧ SameSettings s t ∧ SameShift s t ∧ SameLoop s t
      ∧ SameLines s t)
  ∧ (∀ (s : State) (idx : BitVec 3) (v : Byte), (s.env.ahead 0).rst = false → 5 ≤ idx.toNat →
      AnswersIllegal (exec (.ldbuf idx v) s) s)
  ∧ (∀ w : CmdWord, opField w = 5 →
      (w.getLsbD 11 = true ∨ 5 ≤ (w.extractLsb' 8 3).toNat) → decode w = none)

/-! ### Packing -/

/-- The packed bytes (R142, R143): the five phases of a full byte, in the form of R142's right-hand
sides, and the nibble-only three, which are its last three and do not see the high nibble. -/
def Obligations.PackedPhases : Prop :=
  ∀ (bl : Bool) (kind : Kind) (v : Byte),
    packBytes bl .full kind v =
      [ (v &&& 0xF0) ||| (flagByte bl <<< 3) ||| 0x04 ||| flagByte kind.toBool,
        (v &&& 0xF0) ||| (flagByte bl <<< 3) ||| flagByte kind.toBool,
        ((v <<< 4) &&& 0xF0) ||| (flagByte bl <<< 3) ||| 0x04 ||| flagByte kind.toBool,
        ((v <<< 4) &&& 0xF0) ||| (flagByte bl <<< 3) ||| flagByte kind.toBool,
        (flagByte bl <<< 3) ||| 0x04 ]
    ∧ packBytes bl .nibble kind v = (packBytes bl .full kind v).drop 2
    ∧ (∀ u : Byte, u &&& 0x0F = v &&& 0x0F →
        packBytes bl .nibble kind u = packBytes bl .nibble kind v)

/-- In every phase the read/write bit is 0 and the backlight bit is `BL`; enable alternates from 1 to the
pre-arming 1; the register-select bit is the kind but in the last phase, where it and the data lines are 0
(R85, R141). -/
def Obligations.ControlBitsOfEachPhase : Prop :=
  ∀ (bl : Bool) (size : Size) (kind : Kind) (v : Byte) (j : Nat), j < packedCount size →
    ((packBytes bl size kind v).getD j 0).getLsbD 1 = false
      ∧ ((packBytes bl size kind v).getD j 0).getLsbD 3 = bl
      ∧ ((packBytes bl size kind v).getD j 0).getLsbD 2 = decide (j % 2 = 0)
      ∧ ((packBytes bl size kind v).getD j 0).getLsbD 0
          = (kind.toBool && decide (j + 1 < packedCount size))
      ∧ (j + 1 = packedCount size →
          ((packBytes bl size kind v).getD j 0).extractLsb' 4 4 = 0#4)

/-- What the controller latches from a packed sequence that begins with enable high (R150, R151): the
two nibbles, high first, each with the kind; one nibble for a nibble-only byte; nothing from the
backlight-only byte. Enable is high at both ends of each. -/
def Obligations.StrobesOfAPackedByte : Prop :=
  ∀ (prev : Byte) (bl : Bool) (kind : Kind) (v : Byte), prev.getLsbD 2 = true →
    latched prev (packBytes bl .full kind v) =
        [(kind.toBool, v.extractLsb' 4 4), (kind.toBool, v.extractLsb' 0 4)]
      ∧ latched prev (packBytes bl .nibble kind v) = [(kind.toBool, v.extractLsb' 0 4)]
      ∧ latched prev [backlightByte bl] = []
      ∧ (∀ size, ((packBytes bl size kind v).headD 0).getLsbD 2 = true
          ∧ ((packBytes bl size kind v).getLastD 0).getLsbD 2 = true)
      ∧ (backlightByte bl).getLsbD 2 = true

/-- `PACK.ks v` (R144): the packed bytes and their number, no bus activity, in every mode; a nibble-only
byte leaves entries 3 and 4. The two kinds differ in bit 0 of the phases before the last and nowhere
else. That `PACK`, up to five buffer writes, is one step is log entry 3 (DEDUCED). -/
def Obligations.PackFillsTheBuffer : Prop :=
  (∀ (s : State) (size : Size) (kind : Kind) (v : Byte), s.txbuf.wf = true →
    (s.env.ahead 0).rst = false →
    ∃ t, exec (.pack size kind v) s = .next t ∧ Ended t .ok 0 ∧ OneStep s t
      ∧ HoldsPacked s t size kind v ∧ t.txbuf.wf = true ∧ SameSettings s t ∧ SameShift s t
      ∧ SameLoop s t ∧ SameLines s t)
  ∧ (∀ (bl : Bool) (size : Size) (v : Byte) (j : Nat), j < packedCount size →
      (packBytes bl size .data v).getD j 0 =
        (packBytes bl size .command v).getD j 0 ||| (if j + 1 < packedCount size then 1 else 0))
  ∧ (∀ w : CmdWord, opField w = 11 → w.extractLsb' 10 2 ≠ 0#2 → decode w = none)

/-- The hook's delay (R149): the longer one after index `N - 2`, else the shorter; their lengths in
microseconds and the half-period's for all parameters (R7, U10), never short of the minimums for legal
ones, and equal to them by default; the timer's cycles the least whole number not short of the delay, at
least 1 (R89, R245; decision D7). -/
def Obligations.HookDelays : Prop :=
  (∀ i n : BitVec 3, hookDelay i n = if (i.toNat : Int) = n.toNat - 2 then .enPrearm else .en)
  ∧ (∀ p : Config.Timing ℝ, Delay.us p .en = p.tEnUs ∧ Delay.us p .enPrearm = p.tEnUs + p.tPrearmUs
      ∧ Delay.us p .half = 500000 / p.fSclHz)
  ∧ (∀ p : Config.Timing ℝ, p.Legal →
      1 / 5 ≤ Delay.us p .en ∧ 1 / 5 + 1 / 20 ≤ Delay.us p .enPrearm ∧ 0 < Delay.us p .half)
  ∧ (∀ clk : ℝ, 0 < clk → (Config.Timing.offered clk).Legal
      ∧ Delay.us (Config.Timing.offered clk) .en = 1 / 5
      ∧ Delay.us (Config.Timing.offered clk) .enPrearm = 1 / 5 + 1 / 20
      ∧ Delay.us (Config.Timing.offered clk) .half = 5)
  ∧ (∀ (p : Config.Timing ℝ) (d : Delay), p.Legal →
      1 ≤ d.cycles p ∧ d.us p * p.clkHz / 1000000 ≤ d.cycles p
        ∧ (∀ n : Nat, 1 ≤ n → d.us p * p.clkHz / 1000000 ≤ n → d.cycles p ≤ n))
  ∧ (∀ p : Config.Timing ℝ, p.Legal →
      Delay.cycles p .half = max 1 ⌈500000 * p.clkHz / (p.fSclHz * 1000000)⌉₊)

/-! ### Bus driver -/

/-- `START` (R102): from any line levels, data low, then clock low, a half-period after each; it ends
parked with `OPEN` set; it reads no line and cannot block, whatever the devices do. Before `INIT` it is
refused. -/
def Obligations.StartParksAndOpens : Prop :=
  (∀ s : State, s.initd = true → s.env.noReset →
    driveTrace 4 (s.accept .start (.start .fallSda)) =
        [(false, s.sclOut), (false, s.sclOut), (false, false), (false, false)]
      ∧ ∃ t, exec .start s = .next t ∧ Ended t .ok 0 ∧ t.sdaOut = false ∧ t.sclOut = false
        ∧ t.isOpen = true ∧ Took s t 2 0 0 ∧ SameSettings s t ∧ SameBuffer s t
        ∧ t.txlen = s.txlen ∧ SameShift s t ∧ SameLoop s t)
  ∧ (∀ s : State, s.initd = false → (s.env.ahead 0).rst = false → AnswersIllegal (exec .start s) s)

/-- `STOP` (R104): data low, clock released and waited for, data released; it ends with both lines
released and `OPEN` clear, on a clock that no slave holds. -/
def Obligations.StopReleasesTheBus : Prop :=
  ∀ s : State, s.initd = true → s.env.noReset → s.env.clockFree →
    driveTrace 7 (s.accept .stop (.stop .fallSda)) =
        [(false, s.sclOut), (false, s.sclOut), (false, true), (false, true), (false, true),
         (true, true), (true, true)]
      ∧ ∃ t, exec .stop s = .next t ∧ Ended t .ok 0 ∧ t.released = true ∧ t.isOpen = false
        ∧ Took s t 3 0 0 ∧ SameSettings s t ∧ SameBuffer s t ∧ t.txlen = s.txlen ∧ SameShift s t
        ∧ SameLoop s t

/-- `END` (R131): the body of `STOP`, ended OK. However often its clock was found low, an `END` or `STOP`
that has ended left both lines released and `OPEN` clear. -/
def Obligations.EndIsAStopCondition : Prop :=
  (∀ s : State, s.initd = true → s.env.noReset → s.env.clockFree →
    ∃ t, exec .endt s = .next t ∧ Ended t .ok 0 ∧ t.released = true ∧ t.isOpen = false
      ∧ Took s t 3 0 0 ∧ SameSettings s t ∧ SameBuffer s t ∧ t.txlen = s.txlen ∧ SameShift s t
      ∧ SameLoop s t)
  ∧ (∀ (i : Instr) (s t : State), i = .stop ∨ i = .endt → s.initd = true → s.env.noReset →
      Carried i s t → t.busy = false → Ended t .ok 0 ∧ t.released = true ∧ t.isOpen = false)

/-- A byte on the drives (R106, R108, R109, R110): eight data clocks, most significant bit first, the
ninth clock with the data line released, the park. The same up to the last step, which hands the result
on, for every byte of every command. -/
def Obligations.ByteDrivesMsbFirst : Prop :=
  (∀ (s : State) (v : Byte), s.env.noReset → s.env.clockFree →
    driveTrace 48 (beginByte .single v (s.accept (.wbyte v) (.byte .single .putBit)))
      = byteDrives s.sclOut v)
  ∧ (∀ (s : State) (i : Instr) (r : ByteRole) (v : Byte), s.env.noReset → s.env.clockFree →
      driveTrace 47 (beginByte r v (s.accept i (.byte r .putBit))) = (byteDrives s.sclOut v).take 47)

/-- `WBYTE v` (R106): the one byte sent is `v`, and it ends parked with its result in `LASTOK` and the
status, whatever devices answer; with only scripted devices, the result is the data line's level at the
45th step. -/
def Obligations.WbyteReturnsTheAcknowledgment : Prop :=
  ∀ (s : State) (v : Byte), s.initd = true → s.env.noReset → s.env.clockFree →
    ∃ (t : State) (ack : Bool), exec (.wbyte v) s = .next t ∧ Ended t (statusOf ack) 0
      ∧ t.lastok = ack ∧ t.shreg = 0 ∧ t.bitcnt = 8 ∧ t.parked = true ∧ t.isOpen = s.isOpen
      ∧ Took s t 18 0 0 ∧ SameSettings s t ∧ SameBuffer s t ∧ t.txlen = s.txlen ∧ SameLoop s t
      ∧ bytesBegun runBound (beginByte .single v (s.accept (.wbyte v) (.byte .single .putBit))) = [v]
      ∧ (s.env.expander = none → ack = s.env.ackAt 44)

/-- A read of the clock that finds it low in `wait_scl_high()` changes nothing and raises nothing: the
block stays where it is (R107, R212). -/
def Obligations.WaitStaysWhileTheClockIsLow : Prop :=
  ∀ s : State, s.waiting = true → (s.env.ahead 0).scl = false → (s.env.ahead 0).rst = false →
    ∃ t, step s = .next t ∧ t.waiting = true ∧ t.curOp = s.curOp ∧ t.ustep = s.ustep
      ∧ t.rsp = none ∧ SameBlock s t ∧ OneStep s t

/-- A slave that never releases the clock hangs the block for ever: after any number of steps it is in
the same wait, busy, with no response, and no register has changed (R212, U1). -/
def Obligations.HeldClockHangsForever : Prop :=
  ∀ s : State, s.waiting = true → s.rsp = none → s.env.clockHeld → s.env.noReset →
    ∀ n, ∃ t, Sys2Proof.core.run n s = .next t ∧ t.busy = true ∧ t.cmdReady = false
      ∧ t.curOp = s.curOp
      ∧ t.ustep = s.ustep ∧ t.rsp = none ∧ SameBlock s t

/-- A stretched stop condition is delayed, not lost (R107; 95_test_vectors.md V24): from the wait of
`STOP` or `END`, the step that finds the clock released completes it. That the steps left are one step of
the machine is the model's granularity (log entry 4, DESIGN CHOICE). -/
def Obligations.StretchedStopCompletes : Prop :=
  ∀ (s : State) (i : Instr), s.curOp = some i → i = .stop ∨ i = .endt →
    s.ustep = .stop .waitScl → s.sclOut = true → s.env.noReset → (s.env.ahead 0).scl = true →
    ∃ t, step s = .next t ∧ Ended t .ok 0 ∧ t.released = true ∧ t.isOpen = false ∧ Took s t 2 0 0

/-- A stretched byte is delayed, not lost (R107, R109): from the wait of `WBYTE`'s ninth clock, the step
that finds the clock released samples the data line at the primitive after, and the byte ends parked. That
the primitives left are one step of the machine is the model's granularity (log entry 4, DESIGN CHOICE). -/
def Obligations.StretchedByteCompletes : Prop :=
  ∀ (s : State) (v : Byte), s.Inv → s.curOp = some (.wbyte v) → s.ustep = .byte .single .ackWait →
    s.env.noReset → (s.env.ahead 0).scl = true →
    ∃ (t : State) (ack : Bool), step s = .next t ∧ Ended t (statusOf ack) 0 ∧ t.lastok = ack
      ∧ t.parked = true ∧ t.isOpen = s.isOpen ∧ t.shreg = s.shreg ∧ t.bitcnt = s.bitcnt
      ∧ Took s t 1 0 0 ∧ SameSettings s t ∧ SameBuffer s t ∧ t.txlen = s.txlen ∧ SameLoop s t
      ∧ (s.env.expander = none → ack = s.env.ackAt 1)

/-- From any clock-stretch wait, of any command, a step on a clock that is free from now on ends the
command with its response (R107, R246). -/
def Obligations.FromAWaitTheCommandEnds : Prop :=
  ∀ s : State, s.Inv → s.waiting = true → s.env.noReset → s.env.clockFree →
    ∃ t r, step s = .next t ∧ t.busy = false ∧ t.rsp = some r ∧ (r.st = .ok ∨ r.st = .nack)

/-! ### What a bus monitor sees

The monitor is the model's own reading of the transcripts of 95_test_vectors.md (log entry 13). -/

namespace Sys2Proof.Machine

/-- The monitor has seen the lines as they are now. -/
structure InSync (s : State) : Prop where
  sda : s.env.bus.sda = s.sdaIn
  scl : s.env.bus.scl = s.sclIn

end Sys2Proof.Machine

/-- What `START` puts on the bus (R103): one start condition exactly when it begins with both lines high;
from the parked state, or with a line held low, none, and it reports OK with `OPEN` set all the same. The
devices hold what they drive. -/
def Obligations.StartConditionOnTheWire : Prop :=
  ∀ s : State, s.initd = true → s.env.script = [] → InSync s →
    ∃ t, exec .start s = .next t ∧ Ended t .ok 0 ∧ t.isOpen = true
      ∧ t.env.bus.log = s.env.bus.log ++ (if s.sdaIn && s.sclIn then [.start] else [])

/-- What `STOP` puts on the bus (R105): from the parked state one stop condition; from the idle bus an
empty transaction; none where a slave holds the data line low. It reports OK in each. The devices hold
what they drive, the clock not among it, and no byte is under way. -/
def Obligations.StopConditionOnTheWire : Prop :=
  ∀ s : State, s.initd = true → s.env.script = [] → s.env.scl = true → InSync s →
    s.env.bus.nbits = 0 →
    ∃ t, exec .stop s = .next t ∧ Ended t .ok 0
      ∧ (s.parked = true →
          t.env.bus.log = s.env.bus.log ++ (if s.env.sdaEnv then [.stop] else []))
      ∧ (s.released = true →
          t.env.bus.log = s.env.bus.log ++ (if s.env.sdaEnv then [.start, .stop] else []))

/-- A byte on the wire (R62, R66, R106): from the parked state inside a transaction, with one device that
holds the data line low over the ninth clock or leaves it alone (R226), a monitor sees the byte, most
significant bit first, with its acknowledgment, and the block's result is the same. -/
def Obligations.ByteOnTheWire : Prop :=
  ∀ (s : State) (v : Byte) (ack : Bool), s.initd = true → s.parked = true → InSync s →
    s.env.bus.active = true → s.env.bus.nbits = 0 → s.env.expander = none → s.env.noReset →
    s.env.clockFree →
    (∀ n, (s.env.ahead n).sda = !(ack && decide (40 ≤ n) && decide (n ≤ 46))) →
    ∃ t, exec (.wbyte v) s = .next t ∧ t.lastok = ack
      ∧ t.env.bus.log = s.env.bus.log ++ [.byte v ack] ∧ t.env.bus.nbits = 0
      ∧ t.env.bus.active = true ∧ InSync t

/-- `WBYTES n` and `WBYTES.H n` (R112), `n` at least 1, on a free clock, whatever devices answer: with `k`
the number of bytes acknowledged before the first that is not, `SENTCNT` is `k`, the status tells
whether all were, `BYTEIDX` is the index last attempted, the hook ran after each acknowledged byte; the
bytes sent are `TXBUF[0]`, `TXBUF[1]`, … in order, up to the failing one and none after it. With only
scripted devices `k` follows from the data line at the samples. -/
def Obligations.WbytesStopsAtTheFirstNack : Prop :=
  ∀ (s : State) (h : Bool) (n : BitVec 3), s.initd = true → 1 ≤ n.toNat → n.toNat ≤ 5 →
    s.env.noReset → s.env.clockFree →
    ∃ t k, k ≤ n.toNat ∧ exec (.wbytes h n) s = .next t
      ∧ Ended t (statusOf (decide (k = n.toNat))) 0 ∧ LoopLeft t n.toNat k ∧ t.parked = true
      ∧ Took s t (18 * loopBytes n.toNat k) (loopHooks h k) (loopPrearms h n.toNat k)
      ∧ t.isOpen = s.isOpen ∧ SameSettings s t ∧ SameBuffer s t ∧ t.txlen = s.txlen
      ∧ (∃ u, beginLoop (.wbytes h n) (s.accept (.wbytes h n) .idle) = .next u
          ∧ bytesBegun runBound u = (List.range (loopBytes n.toNat k)).map s.txbuf.get)
      ∧ (s.env.expander = none → k = ackedBefore (loopAck s.env 0 h) n.toNat)

/-- `WBYTES` with a count of 0 (R112): nothing on the wire, `SENTCNT` and `BYTEIDX` 0, status OK. A count
of 6 or 7 is refused. That it takes one step is log entry 3 (DEDUCED). -/
def Obligations.WbytesOfNothing : Prop :=
  (∀ (s : State) (h : Bool), s.initd = true → (s.env.ahead 0).rst = false →
    ∃ t, exec (.wbytes h 0) s = .next t ∧ Ended t .ok 0 ∧ OneStep s t ∧ t.sentcnt = 0
      ∧ t.byteidx = 0 ∧ SameLines s t ∧ SameShift s t ∧ SameSettings s t ∧ SameBuffer s t
      ∧ t.txlen = s.txlen)
  ∧ (∀ (s : State) (h : Bool) (n : BitVec 3), (s.env.ahead 0).rst = false → 6 ≤ n.toNat →
      AnswersIllegal (exec (.wbytes h n) s) s)
  ∧ (∀ w : CmdWord, opField w = 6 → 6 ≤ (w.extractLsb' 0 3).toNat → decode w = none)

/-! ### Transactions -/

/-- `BEGINW a` (R130): a start condition and the address byte, which is the one byte sent; it ends parked
and open whatever the answer, and however often its clock was found low. -/
def Obligations.BeginwSendsTheFrame : Prop :=
  (∀ (s : State) (a : Addr7), s.initd = true → s.env.noReset → s.env.clockFree →
    ∃ (t : State) (ack : Bool), exec (.beginw a) s = .next t ∧ Ended t (statusOf ack) 0
      ∧ t.lastok = ack ∧ t.isOpen = true ∧ t.parked = true ∧ t.shreg = 0 ∧ t.bitcnt = 8
      ∧ Took s t 20 0 0 ∧ SameSettings s t ∧ SameBuffer s t ∧ t.txlen = s.txlen ∧ SameLoop s t
      ∧ bytesBegun runBound (s.accept (.beginw a) (.start .fallSda)) = [frameOf a]
      ∧ (s.env.expander = none → ack = s.env.ackAt 48))
  ∧ (∀ a : Addr7, (frameOf a).toNat = 2 * a.toNat)
  ∧ (∀ (s : State) (a : Addr7), s.env.noReset →
      ∃ t, ticks 4 (s.accept (.beginw a) (.start .fallSda)) = .next t ∧ FrameLoaded t a)
  ∧ (∀ (s t : State) (a : Addr7), s.initd = true → s.env.noReset → Carried (.beginw a) s t →
      t.busy = false → t.parked = true ∧ t.isOpen = true)

/-- `BEGINW` followed by `END` returns the lines to the idle level whatever the acknowledgment (R133), in
every run in which both end, at their acceptance or any number of steps later: slow clocks are waited
for. -/
def Obligations.BeginThenEndReturnsToIdle : Prop :=
  ∀ (s t u : State) (a : Addr7), s.initd = true → s.env.noReset →
    Carried (.beginw a) s t → t.busy = false → Carried .endt t u → u.busy = false →
    u.sdaOut = true ∧ u.sclOut = true ∧ u.isOpen = false

/-! ### Command sequencer -/

/-- `EMITC.ks v` (R145), on a free clock, whatever devices answer: it packs and sends the packed bytes in
order with the hook, up to the first that is not acknowledged, inside whatever transaction is open. -/
def Obligations.EmitcSendsThePhases : Prop :=
  ∀ (s : State) (size : Size) (kind : Kind) (v : Byte), s.initd = true → s.txbuf.wf = true →
    s.env.noReset → s.env.clockFree →
    ∃ t k, k ≤ packedCount size ∧ exec (.emitc size kind v) s = .next t
      ∧ Ended t (statusOf (decide (k = packedCount size))) 0 ∧ LoopLeft t (packedCount size) k
      ∧ t.parked = true
      ∧ Took s t (18 * loopBytes (packedCount size) k) k (loopPrearms true (packedCount size) k)
      ∧ HoldsPacked s t size kind v ∧ t.isOpen = s.isOpen ∧ SameSettings s t
      ∧ (∃ u, beginLoop (.emitc size kind v)
            ((s.packed size kind v).accept (.emitc size kind v) .idle) = .next u
          ∧ bytesBegun runBound u
              = (packBytes s.bl size kind v).take (loopBytes (packedCount size) k))
      ∧ (s.env.expander = none → k = ackedBefore (loopAck s.env 0 true) (packedCount size))

/-- `SENDC.ks v` (R146), on a free clock, whatever devices answer: the bytes sent are the frame of `ADDR`
and, only if it was acknowledged (`ack`), the phases in order up to the first that is not; the stop
condition always. -/
def Obligations.SendcIsAWholeTransaction : Prop :=
  ∀ (s : State) (size : Size) (kind : Kind) (v : Byte), s.initd = true → s.txbuf.wf = true →
    s.env.noReset → s.env.clockFree →
    ∃ (t : State) (ack : Bool), exec (.sendc size kind v) s = .next t ∧ HoldsPacked s t size kind v
      ∧ t.released = true ∧ t.isOpen = false ∧ SameSettings s t
      ∧ (s.env.expander = none → ack = s.env.ackAt 48)
      ∧ (ack = false →
          Ended t .nack 0 ∧ t.lastok = false ∧ t.shreg = 0 ∧ t.bitcnt = 8 ∧ SameLoop s t
            ∧ Took s t 23 0 0
            ∧ bytesBegun runBound ((s.packed size kind v).accept (.sendc size kind v) (.start .fallSda))
                = [frameOf s.addr])
      ∧ (ack = true →
          ∃ k, k ≤ packedCount size ∧ Ended t (statusOf (decide (k = packedCount size))) 0
            ∧ LoopLeft t (packedCount size) k
            ∧ Took s t (23 + 18 * loopBytes (packedCount size) k) k
                (loopPrearms true (packedCount size) k)
            ∧ bytesBegun runBound ((s.packed size kind v).accept (.sendc size kind v) (.start .fallSda))
                = frameOf s.addr
                    :: (packBytes s.bl size kind v).take (loopBytes (packedCount size) k)
            ∧ (s.env.expander = none →
                k = ackedBefore (loopAck s.env 52 true) (packedCount size)))

/-- `BLNOW` (R147), on a free clock, whatever devices answer: the bytes sent are the frame of `ADDR` and, if
it was acknowledged, one byte, backlight and enable; no hook. -/
def Obligations.BlnowSendsTheBacklight : Prop :=
  ∀ s : State, s.initd = true → s.txbuf.wf = true → s.env.noReset → s.env.clockFree →
    ∃ (t : State) (ack : Bool), exec .blnow s = .next t
      ∧ t.txbuf.get 0 = (if s.bl then 0x0C else 0x04)
      ∧ (∀ j, j ≠ 0 → t.txbuf.get j = s.txbuf.get j) ∧ t.txlen = 1 ∧ t.released = true
      ∧ t.isOpen = false ∧ SameSettings s t
      ∧ (s.env.expander = none → ack = s.env.ackAt 48)
      ∧ (ack = false →
          Ended t .nack 0 ∧ t.lastok = false ∧ t.shreg = 0 ∧ t.bitcnt = 8 ∧ SameLoop s t
            ∧ Took s t 23 0 0
            ∧ bytesBegun runBound (s.packedBacklight.accept .blnow (.start .fallSda))
                = [frameOf s.addr])
      ∧ (ack = true →
          ∃ ok : Bool, Ended t (statusOf ok) 0 ∧ LoopLeft t 1 (if ok then 1 else 0)
            ∧ Took s t 41 0 0
            ∧ bytesBegun runBound (s.packedBacklight.accept .blnow (.start .fallSda))
                = [frameOf s.addr, if s.bl then 0x0C else 0x04]
            ∧ (s.env.expander = none → ok = s.env.ackAt 96))

/-- The reference expander at `ADDR` on an otherwise quiet, idle bus (R134, R150, R226; log entries 13
and 14): `SENDC` ends OK, the wire carries one whole transaction with every byte acknowledged, the
expander ends with the last phase in its latch and has given the controller the strobes of the packed
bytes. -/
def Obligations.SendcReachesTheExpander : Prop :=
  ∀ (s : State) (size : Size) (kind : Kind) (v : Byte) (x : Expander), s.initd = true →
    s.txbuf.wf = true → s.released = true → s.env.bus.sda = true → s.env.bus.scl = true →
    s.env.noReset → s.env.clockFree → (∀ n, (s.env.ahead n).sda = true) →
    s.env.expander = some x → x.acks = none → x.address = s.addr → x.driving = false →
    ∃ t y, exec (.sendc size kind v) s = .next t ∧ Ended t .ok 0
      ∧ t.sentcnt.toNat = packedCount size ∧ t.released = true
      ∧ t.env.bus.log = s.env.bus.log ++ [.start, .byte (frameOf s.addr) true]
          ++ (packBytes s.bl size kind v).map (fun e => .byte e true) ++ [.stop]
      ∧ t.env.expander = some y ∧ y.latch = (packBytes s.bl size kind v).getLastD 0
      ∧ y.given = x.given ++ latched x.latch (packBytes s.bl size kind v)

/-- An absent device (R134, R226): `SENDC` on an idle bus where nothing answers puts the address byte, not
acknowledged, and the stop condition on the wire, and nothing else. -/
def Obligations.AbsentDeviceTranscript : Prop :=
  ∀ (s : State) (size : Size) (kind : Kind) (v : Byte), s.initd = true → s.released = true →
    s.env.bus.sda = true → s.env.bus.scl = true → s.env.expander = none → s.env.noReset →
    s.env.clockFree → (∀ n, (s.env.ahead n).sda = true) →
    ∃ t, exec (.sendc size kind v) s = .next t ∧ Ended t .nack 0 ∧ t.released = true
      ∧ t.env.bus.log = s.env.bus.log ++ [.start, .byte (frameOf s.addr) false, .stop]

/-! ### AckFailure -/

/-- AckFailure (R210): only the commands that send a byte answer NACK, and one that does has recorded
`LASTOK` 0, `SHREG` 0 and `BITCNT` 8; the byte loop's commands have sent fewer bytes than they had. This
holds however often the clock was found low on the way. -/
def Obligations.NackIsRecorded : Prop :=
  ∀ (i : Instr) (s t : State), s.env.noReset → Carried i s t →
    t.rsp = some { st := .nack, data := 0 } →
    t.lastok = false ∧ t.shreg = 0 ∧ t.bitcnt = 8
      ∧ match i with
        | .wbyte _ => True
        | .beginw _ => t.isOpen = true
        | .wbytes _ n => t.sentcnt = t.byteidx ∧ t.byteidx.toNat < n.toNat
        | .emitc _ _ _ => t.sentcnt = t.byteidx ∧ t.byteidx.toNat < t.txlen.toNat
        | .sendc _ _ _ => t.isOpen = false ∧ t.released = true
        | .blnow => t.isOpen = false ∧ t.released = true
        | .init => False
        | .start => False
        | .stop => False
        | .endt => False
        | .ldbuf _ _ => False
        | .setaddr _ => False
        | .setbl _ => False
        | .pack _ _ _ => False
        | .rdreg _ => False

/-! ### Frames -/

/-- `START`, `STOP`, `END`: whatever the inputs do short of `rst`, in a wait and after it too, only the
lines and `OPEN` change. -/
def Obligations.ConditionsKeepTheData : Prop :=
  ∀ (i : Instr) (s t : State), i = .start ∨ i = .stop ∨ i = .endt → s.env.noReset →
    Carried i s t →
    SameSettings s t ∧ SameBuffer s t ∧ t.txlen = s.txlen ∧ SameShift s t ∧ SameLoop s t

/-- `WBYTE` and `BEGINW`: whatever the inputs do short of `rst`, in a wait and after it too, the settings,
the buffer and the loop's counters keep; `WBYTE` keeps `OPEN` too. -/
def Obligations.ByteCommandsKeepTheBuffer : Prop :=
  (∀ (s t : State) (v : Byte), s.env.noReset → Carried (.wbyte v) s t →
    SameSettings s t ∧ SameBuffer s t ∧ t.txlen = s.txlen ∧ SameLoop s t ∧ t.isOpen = s.isOpen)
  ∧ (∀ (s t : State) (a : Addr7), s.env.noReset → Carried (.beginw a) s t →
    SameSettings s t ∧ SameBuffer s t ∧ t.txlen = s.txlen ∧ SameLoop s t)

/-- The byte loop's commands: `WBYTES` stores nothing; `EMITC` and `SENDC`, once past their checks, store
the packed bytes from index 0 and nothing else, `BLNOW` one byte at index 0; none writes a setting, and
`WBYTES` and `EMITC` keep `OPEN`. This holds in a wait and after it too: no step of any running
command writes a setting, the buffer or `TXLEN`. -/
def Obligations.LoopCommandsStoreOnlyTheirBytes : Prop :=
  (∀ (s t : State) (h : Bool) (n : BitVec 3), s.env.noReset → Carried (.wbytes h n) s t →
    SameSettings s t ∧ SameBuffer s t ∧ t.txlen = s.txlen ∧ t.isOpen = s.isOpen)
  ∧ (∀ (s t : State) (size : Size) (kind : Kind) (v : Byte), s.env.noReset → s.txbuf.wf = true →
    s.initd = true → Carried (.emitc size kind v) s t →
    SameSettings s t ∧ HoldsPacked s t size kind v ∧ t.isOpen = s.isOpen)
  ∧ (∀ (s t : State) (size : Size) (kind : Kind) (v : Byte), s.env.noReset → s.txbuf.wf = true →
    s.initd = true → Carried (.sendc size kind v) s t →
    SameSettings s t ∧ HoldsPacked s t size kind v)
  ∧ (∀ s t : State, s.env.noReset → s.txbuf.wf = true → s.initd = true →
    Carried .blnow s t →
    SameSettings s t ∧ t.txlen = 1 ∧ t.txbuf.get 0 = backlightByte s.bl
      ∧ ∀ j, j ≠ 0 → t.txbuf.get j = s.txbuf.get j)
  ∧ (∀ (s t : State) (i : Instr), s.curOp = some i → s.env.noReset → step s = .next t →
    SameSettings s t ∧ SameBuffer s t ∧ t.txlen = s.txlen)

/-- No command changes the host's plans or its session, whatever the inputs do and however long it waits:
the block is driven by the host and never drives it (R2, R20). That the host's plans, `ok` and session stay
when `rst` takes the command is the model's reading (log entry 12, DEDUCED) and what the host then does
its choice (log entry 24, DESIGN CHOICE). -/
def Obligations.CommandsLeaveTheHostAlone : Prop :=
  ∀ (i : Instr) (s t : State), Carried i s t → t.host = s.host

/-! ### The invariant -/

/-- Reset meets the invariant. -/
def Obligations.ResetMeetsTheInvariant : Prop := State.reset.Inv

/-- Every step keeps the invariant: the buffer's canonical form, the counters' ranges, a control position
that belongs to a legal running command, untouched lines before `INIT`, the drives of each position,
and between commands both lines parked or both released, parked while a transaction is open. -/
def Obligations.StepKeepsTheInvariant : Prop :=
  ∀ s t : State, s.Inv → step s = .next t → t.Inv

/-- From the invariant no step faults or is refused: the buffer is never read outside its entries. -/
def Obligations.InvariantRulesOutStops : Prop :=
  ∀ s : State, s.Inv → ∃ t, step s = .next t

/-- Before `INIT` no command but `INIT` changes a line, and none but `INIT` ends the mode (R176, R218),
from a state that meets the invariant. -/
def Obligations.UninitialisedModeTouchesNoLine : Prop :=
  ∀ (s t : State) (i : Instr), s.Inv → s.mode = .uninitialised → i ≠ .init → exec i s = .next t →
    t.mode = .uninitialised ∧ t.released = true ∧ t.busy = false

/-! ### The host's session -/

namespace Sys2Proof.Machine

/-- The session after the updates among a list of host actions, in order. -/
def sessionAfter (v : Session) : List HostAct → Session
  | [] => v
  | .cursor x y :: rest => sessionAfter { v with curX := x, curY := y } rest
  | .width w :: rest => sessionAfter { v with width := w } rest
  | .ready :: rest => sessionAfter { v with state := .ready } rest
  | .issue _ :: rest => sessionAfter v rest
  | .track _ :: rest => sessionAfter v rest
  | .ifOk _ :: rest => sessionAfter v rest
  | .wait _ :: rest => sessionAfter v rest

/-- The word a host action may present, if it is a command. -/
def HostAct.command : HostAct → Option CmdWord
  | .issue w => some w
  | .track w => some w
  | .ifOk w => some w
  | .wait _ => none
  | .width _ => none
  | .cursor _ _ => none
  | .ready => none

/-- The commands among a list of host actions that are presented only while `ok` holds. -/
def guarded (acts : List HostAct) : List CmdWord :=
  acts.filterMap fun
    | .ifOk w => some w
    | .issue _ => none
    | .track _ => none
    | .wait _ => none
    | .width _ => none
    | .cursor _ _ => none
    | .ready => none

/-- The commands among a list of host actions that are presented whatever `ok` is. -/
def unguarded (acts : List HostAct) : List CmdWord :=
  acts.filterMap fun
    | .ifOk _ => none
    | .issue w => some w
    | .track w => some w
    | .wait _ => none
    | .width _ => none
    | .cursor _ _ => none
    | .ready => none

/-- The cell `put_char` moves on to (R187): the next column, or column 0 of the next row, at most 3. -/
def nextCell (width : Nat) (c : Nat × Nat) : Nat × Nat :=
  if c.1 + 1 < width then (c.1 + 1, c.2) else (0, min (c.2 + 1) 3)

/-- The tracked cursor. -/
def Session.cursor (v : Session) : Nat × Nat := (v.curX, v.curY)

/-- The tracked cursor is on the screen (R41). -/
def Session.cursorOk (v : Session) : Prop := v.curX < v.width ∧ v.curY < 4

end Sys2Proof.Machine

/-- Before `initialize` every other operation is refused, the accessors too (R181; that it is refused is
U2), and `initialize` makes the session ready, with its width and cursor `(0, 0)` (R184). The accessors
of a ready session answer its variables, and the backlight flag as `RDREG 2` does (R192, in the form of
log entry 27, over the host's queue of log entry 15). The last clause takes `initialize` from every session
state and with every byte as address: that it is expanded again in a ready session (log entry 25) and that
an address above 0x7F still leaves the session ready (log entry 26) are the model's choices (DESIGN
CHOICE). -/
def Obligations.SessionNeedsInitialize : Prop :=
  (∀ (p : HostParams) (op : SessionOp) (s : State), s.host.session.state = .uninitialized →
    (∀ a w b, op ≠ .setup a w b) → s.call p op = none)
  ∧ (∀ s : State, s.host.session.state = .uninitialized →
      s.backlight = none ∧ s.width = none ∧ s.cursorColumn = none ∧ s.cursorRow = none)
  ∧ (∀ s : State, s.host.session.state = .ready →
      s.backlight = some s.bl ∧ s.width = some s.host.session.width
        ∧ s.cursorColumn = some s.host.session.curX ∧ s.cursorRow = some s.host.session.curY)
  ∧ (∀ (p : HostParams) (s t : State), s.call p .askBacklight = some t →
      (s.env.ahead 0).rst = false →
      ∃ u d, step t = .next u ∧ u.rsp = some { st := .ok, data := d } ∧ SameBlock s u
        ∧ s.backlight = some (d.getLsbD 0) ∧ d.toNat ≤ 1)
  ∧ (∀ (p : HostParams) (v : Session) (a : Byte) (w : Nat) (b : Bool) (addr : Addr7),
      1 ≤ w → w ≤ 40 →
      ∃ acts, (SessionOp.setup a w b).expand p addr v = some acts
        ∧ sessionAfter v acts = { width := w, curX := 0, curY := 0, state := .ready })

/-- The cursor invariant (R41): every operation but the two fast ones keeps the tracked cursor on the
screen, from a ready session. That a position off the screen is refused is log entry 16 (U8). -/
def Obligations.CursorStaysOnScreen : Prop :=
  ∀ (p : HostParams) (op : SessionOp) (addr : Addr7) (v : Session) (acts : List HostAct),
    v.state = .ready → v.cursorOk → op.expand p addr v = some acts →
    (∀ l, op ≠ .putStringFast l) → (∀ x y l, op ≠ .putStringAtFast x y l) →
    (sessionAfter v acts).cursorOk

/-- Where each operation leaves the tracked cursor (R184 to R192), whatever the bus acknowledges: a step of
the machine makes the update of the action it takes off the queue and no other, with the block left alone
where the action is no command; the updates of an operation's expansion, in order, leave the cursor where
its rule says, and none but `initialize` changes the width (that it may be called again: log entry 25).
The queue, with one idle step an update, is the model's own form of the host (log entry 15, DESIGN
CHOICE); that an action leaves the queue at a step that samples `rst` 1 too, a command with no response,
is the model's choice (log entry 24, DESIGN CHOICE). -/
def Obligations.TrackedCursorOfEachOperation : Prop :=
  (∀ (s t : State) (a : HostAct) (q : List HostAct), s.curOp = none → s.host.queue = a :: q →
    step s = .next t → t.host.session = sessionAfter s.host.session [a] ∧ t.host.queue = q)
  ∧ (∀ (s : State) (a : HostAct) (q : List HostAct), s.curOp = none → s.host.queue = a :: q →
    a.command = none → (s.env.ahead 0).rst = false →
    ∃ t, step s = .next t ∧ t.busy = false ∧ t.rsp = none ∧ SameBlock s t)
  ∧ (∀ (p : HostParams) (addr : Addr7) (v : Session) (w : Nat) (a : Byte) (on : Bool)
      (acts : List HostAct), (SessionOp.setup a w on).expand p addr v = some acts →
      (sessionAfter v acts).cursor = (0, 0) ∧ (sessionAfter v acts).width = w)
  ∧ (∀ (p : HostParams) (addr : Addr7) (v : Session) (x y : Nat) (c : Byte) (l : List Byte)
      (on now : Bool) (acts : List HostAct), v.state = .ready →
    ((SessionOp.moveCursor x y).expand p addr v = some acts →
      (sessionAfter v acts).cursor = (x, y))
    ∧ (SessionOp.clear.expand p addr v = some acts → (sessionAfter v acts).cursor = (0, 0))
    ∧ ((SessionOp.putChar c).expand p addr v = some acts →
      (sessionAfter v acts).cursor = nextCell v.width v.cursor)
    ∧ ((SessionOp.putString l).expand p addr v = some acts →
      (sessionAfter v acts).cursor = l.foldl (fun cell _ => nextCell v.width cell) v.cursor)
    ∧ ((SessionOp.putStringFast l).expand p addr v = some acts →
      (sessionAfter v acts).cursor = (v.curX + l.length, v.curY))
    ∧ ((SessionOp.putStringAtFast x y l).expand p addr v = some acts →
      (sessionAfter v acts).cursor = (x + l.length, y))
    ∧ ((SessionOp.setBacklight on now).expand p addr v = some acts → sessionAfter v acts = v)
    ∧ (∀ op : SessionOp, op = .askBacklight ∨ op = .askWidth ∨ op = .askColumn ∨ op = .askRow →
      op.expand p addr v = some acts → sessionAfter v acts = v)
    ∧ (∀ op : SessionOp, (∀ a w b, op ≠ .setup a w b) → op.expand p addr v = some acts →
      (sessionAfter v acts).width = v.width ∧ (sessionAfter v acts).state = .ready))

/-- A batch stops issuing at the first failure and is still closed (R189, R190). The response to a command
of a batch, its closing `END` apart, is read into `ok`, which is true exactly for OK; once `ok` is false
a step of the host skips a command under `ifOk`, with no register of the block changed; every `EMITC` of
a batch is under `ifOk`, and no other command is; the last command of each is an unconditional `END`. The
queue and its actions are the model's own form of the host (log entry 15). That ILLEGAL makes `ok` false
(log entry 29), and that with no response, as after `rst`, `ok` stays and the next response is the one read
(log entry 24), are the model's choices (DESIGN CHOICE). -/
def Obligations.FailedBatchIsStillClosed : Prop :=
  (∀ (s : State) (w : CmdWord) (q : List HostAct), s.curOp = none → s.host.queue = .ifOk w :: q →
    s.hostReads.host.ok = false → (s.env.ahead 0).rst = false →
    ∃ t, step s = .next t ∧ t.host.queue = q ∧ t.host.ok = false ∧ t.rsp = none ∧ SameBlock s t)
  ∧ (∀ (s t : State) (w : CmdWord) (q : List HostAct), s.curOp = none →
      s.host.queue = .track w :: q ∨ (s.host.queue = .ifOk w :: q ∧ s.hostReads.host.ok = true) →
      step s = .next t → t.host.tracking = true)
  ∧ (∀ (s : State) (r : Response), s.rsp = some r → s.host.tracking = true →
      s.hostReads.host.ok = decide (r.st = .ok))
  ∧ (∀ s : State, s.host.tracking = false ∨ s.rsp = none → s.hostReads.host.ok = s.host.ok)
  ∧ (∀ (p : HostParams) (addr : Addr7) (x y : Nat) (l : List Byte),
      guarded (putStringFastActs addr x y l) = l.map (fun c => encode (.emitc .full .data c))
      ∧ guarded (putStringAtFastActs p addr x y l)
          = encode (.emitc .full .command (setAddressByte p x y))
              :: l.map (fun c => encode (.emitc .full .data c))
      ∧ unguarded (putStringFastActs addr x y l) = [encode (.beginw addr), encode .endt]
      ∧ unguarded (putStringAtFastActs p addr x y l) = [encode (.beginw addr), encode .endt]
      ∧ .track (encode (.beginw addr)) ∈ putStringFastActs addr x y l
      ∧ .track (encode (.beginw addr)) ∈ putStringAtFastActs p addr x y l)
  ∧ (∀ (p : HostParams) (addr : Addr7) (x y : Nat) (l : List Byte),
      (putStringAtFastActs p addr x y l).getLast? = some (.issue (encode .endt))
        ∧ ∃ pre, putStringFastActs addr x y l
            = pre ++ [.issue (encode .endt), .cursor (x + l.length) y])
end

