-- ==== Sys2Proof/Laws/State.lean ====
section
/-! SUPPORT. For each named update of the state, one lemma a field: what the field is afterwards. Later
proofs read fields of updated states by `simp` and unfold no update. -/

namespace Sys2Proof.Machine

/-! ### `observe` -/

@[simp] theorem observe_sdaOut (s : State) : s.observe.sdaOut = s.sdaOut := rfl
@[simp] theorem observe_sclOut (s : State) : s.observe.sclOut = s.sclOut := rfl
@[simp] theorem observe_shreg (s : State) : s.observe.shreg = s.shreg := rfl
@[simp] theorem observe_bitcnt (s : State) : s.observe.bitcnt = s.bitcnt := rfl
@[simp] theorem observe_byteidx (s : State) : s.observe.byteidx = s.byteidx := rfl
@[simp] theorem observe_txbuf (s : State) : s.observe.txbuf = s.txbuf := rfl
@[simp] theorem observe_txlen (s : State) : s.observe.txlen = s.txlen := rfl
@[simp] theorem observe_sentcnt (s : State) : s.observe.sentcnt = s.sentcnt := rfl
@[simp] theorem observe_isOpen (s : State) : s.observe.isOpen = s.isOpen := rfl
@[simp] theorem observe_lastok (s : State) : s.observe.lastok = s.lastok := rfl
@[simp] theorem observe_initd (s : State) : s.observe.initd = s.initd := rfl
@[simp] theorem observe_addr (s : State) : s.observe.addr = s.addr := rfl
@[simp] theorem observe_bl (s : State) : s.observe.bl = s.bl := rfl
@[simp] theorem observe_curOp (s : State) : s.observe.curOp = s.curOp := rfl
@[simp] theorem observe_ustep (s : State) : s.observe.ustep = s.ustep := rfl
@[simp] theorem observe_ackLevel (s : State) : s.observe.ackLevel = s.ackLevel := rfl
@[simp] theorem observe_timer (s : State) : s.observe.timer = s.timer := rfl
@[simp] theorem observe_rsp (s : State) : s.observe.rsp = s.rsp := rfl
@[simp] theorem observe_spent (s : State) : s.observe.spent = s.spent := rfl
@[simp] theorem observe_env (s : State) : s.observe.env = s.env.observe s.sdaOut s.sclOut := rfl
@[simp] theorem observe_host (s : State) : s.observe.host = s.host := rfl

/-! ### `latch` -/

@[simp] theorem latch_sdaOut (s : State) : s.latch.sdaOut = s.sdaOut := rfl
@[simp] theorem latch_sclOut (s : State) : s.latch.sclOut = s.sclOut := rfl
@[simp] theorem latch_shreg (s : State) : s.latch.shreg = s.shreg := rfl
@[simp] theorem latch_bitcnt (s : State) : s.latch.bitcnt = s.bitcnt := rfl
@[simp] theorem latch_byteidx (s : State) : s.latch.byteidx = s.byteidx := rfl
@[simp] theorem latch_txbuf (s : State) : s.latch.txbuf = s.txbuf := rfl
@[simp] theorem latch_txlen (s : State) : s.latch.txlen = s.txlen := rfl
@[simp] theorem latch_sentcnt (s : State) : s.latch.sentcnt = s.sentcnt := rfl
@[simp] theorem latch_isOpen (s : State) : s.latch.isOpen = s.isOpen := rfl
@[simp] theorem latch_lastok (s : State) : s.latch.lastok = s.lastok := rfl
@[simp] theorem latch_initd (s : State) : s.latch.initd = s.initd := rfl
@[simp] theorem latch_addr (s : State) : s.latch.addr = s.addr := rfl
@[simp] theorem latch_bl (s : State) : s.latch.bl = s.bl := rfl
@[simp] theorem latch_curOp (s : State) : s.latch.curOp = s.curOp := rfl
@[simp] theorem latch_ustep (s : State) : s.latch.ustep = s.ustep := rfl
@[simp] theorem latch_ackLevel (s : State) : s.latch.ackLevel = s.ackLevel := rfl
@[simp] theorem latch_timer (s : State) : s.latch.timer = s.timer := rfl
@[simp] theorem latch_rsp (s : State) : s.latch.rsp = none := rfl
@[simp] theorem latch_spent (s : State) : s.latch.spent = s.spent := rfl
@[simp] theorem latch_env (s : State) : s.latch.env = s.env.advance.observe s.sdaOut s.sclOut := rfl
@[simp] theorem latch_host (s : State) : s.latch.host = s.host := rfl

/-! ### `setSda` -/

@[simp] theorem setSda_sdaOut (s : State) (b : Bool) : (s.setSda b).sdaOut = b := rfl
@[simp] theorem setSda_sclOut (s : State) (b : Bool) : (s.setSda b).sclOut = s.sclOut := rfl
@[simp] theorem setSda_shreg (s : State) (b : Bool) : (s.setSda b).shreg = s.shreg := rfl
@[simp] theorem setSda_bitcnt (s : State) (b : Bool) : (s.setSda b).bitcnt = s.bitcnt := rfl
@[simp] theorem setSda_byteidx (s : State) (b : Bool) : (s.setSda b).byteidx = s.byteidx := rfl
@[simp] theorem setSda_txbuf (s : State) (b : Bool) : (s.setSda b).txbuf = s.txbuf := rfl
@[simp] theorem setSda_txlen (s : State) (b : Bool) : (s.setSda b).txlen = s.txlen := rfl
@[simp] theorem setSda_sentcnt (s : State) (b : Bool) : (s.setSda b).sentcnt = s.sentcnt := rfl
@[simp] theorem setSda_isOpen (s : State) (b : Bool) : (s.setSda b).isOpen = s.isOpen := rfl
@[simp] theorem setSda_lastok (s : State) (b : Bool) : (s.setSda b).lastok = s.lastok := rfl
@[simp] theorem setSda_initd (s : State) (b : Bool) : (s.setSda b).initd = s.initd := rfl
@[simp] theorem setSda_addr (s : State) (b : Bool) : (s.setSda b).addr = s.addr := rfl
@[simp] theorem setSda_bl (s : State) (b : Bool) : (s.setSda b).bl = s.bl := rfl
@[simp] theorem setSda_curOp (s : State) (b : Bool) : (s.setSda b).curOp = s.curOp := rfl
@[simp] theorem setSda_ustep (s : State) (b : Bool) : (s.setSda b).ustep = s.ustep := rfl
@[simp] theorem setSda_ackLevel (s : State) (b : Bool) : (s.setSda b).ackLevel = s.ackLevel := rfl
@[simp] theorem setSda_timer (s : State) (b : Bool) : (s.setSda b).timer = s.timer := rfl
@[simp] theorem setSda_rsp (s : State) (b : Bool) : (s.setSda b).rsp = s.rsp := rfl
@[simp] theorem setSda_spent (s : State) (b : Bool) : (s.setSda b).spent = s.spent := rfl
@[simp] theorem setSda_env (s : State) (b : Bool) :
    (s.setSda b).env = s.env.observe b s.sclOut := rfl
@[simp] theorem setSda_host (s : State) (b : Bool) : (s.setSda b).host = s.host := rfl

/-! ### `setScl` -/

@[simp] theorem setScl_sdaOut (s : State) (b : Bool) : (s.setScl b).sdaOut = s.sdaOut := rfl
@[simp] theorem setScl_sclOut (s : State) (b : Bool) : (s.setScl b).sclOut = b := rfl
@[simp] theorem setScl_shreg (s : State) (b : Bool) : (s.setScl b).shreg = s.shreg := rfl
@[simp] theorem setScl_bitcnt (s : State) (b : Bool) : (s.setScl b).bitcnt = s.bitcnt := rfl
@[simp] theorem setScl_byteidx (s : State) (b : Bool) : (s.setScl b).byteidx = s.byteidx := rfl
@[simp] theorem setScl_txbuf (s : State) (b : Bool) : (s.setScl b).txbuf = s.txbuf := rfl
@[simp] theorem setScl_txlen (s : State) (b : Bool) : (s.setScl b).txlen = s.txlen := rfl
@[simp] theorem setScl_sentcnt (s : State) (b : Bool) : (s.setScl b).sentcnt = s.sentcnt := rfl
@[simp] theorem setScl_isOpen (s : State) (b : Bool) : (s.setScl b).isOpen = s.isOpen := rfl
@[simp] theorem setScl_lastok (s : State) (b : Bool) : (s.setScl b).lastok = s.lastok := rfl
@[simp] theorem setScl_initd (s : State) (b : Bool) : (s.setScl b).initd = s.initd := rfl
@[simp] theorem setScl_addr (s : State) (b : Bool) : (s.setScl b).addr = s.addr := rfl
@[simp] theorem setScl_bl (s : State) (b : Bool) : (s.setScl b).bl = s.bl := rfl
@[simp] theorem setScl_curOp (s : State) (b : Bool) : (s.setScl b).curOp = s.curOp := rfl
@[simp] theorem setScl_ustep (s : State) (b : Bool) : (s.setScl b).ustep = s.ustep := rfl
@[simp] theorem setScl_ackLevel (s : State) (b : Bool) : (s.setScl b).ackLevel = s.ackLevel := rfl
@[simp] theorem setScl_timer (s : State) (b : Bool) : (s.setScl b).timer = s.timer := rfl
@[simp] theorem setScl_rsp (s : State) (b : Bool) : (s.setScl b).rsp = s.rsp := rfl
@[simp] theorem setScl_spent (s : State) (b : Bool) : (s.setScl b).spent = s.spent := rfl
@[simp] theorem setScl_env (s : State) (b : Bool) :
    (s.setScl b).env = s.env.observe s.sdaOut b := rfl
@[simp] theorem setScl_host (s : State) (b : Bool) : (s.setScl b).host = s.host := rfl

/-! ### `delay` -/

@[simp] theorem delay_sdaOut (s : State) (d : Delay) : (s.delay d).sdaOut = s.sdaOut := rfl
@[simp] theorem delay_sclOut (s : State) (d : Delay) : (s.delay d).sclOut = s.sclOut := rfl
@[simp] theorem delay_shreg (s : State) (d : Delay) : (s.delay d).shreg = s.shreg := rfl
@[simp] theorem delay_bitcnt (s : State) (d : Delay) : (s.delay d).bitcnt = s.bitcnt := rfl
@[simp] theorem delay_byteidx (s : State) (d : Delay) : (s.delay d).byteidx = s.byteidx := rfl
@[simp] theorem delay_txbuf (s : State) (d : Delay) : (s.delay d).txbuf = s.txbuf := rfl
@[simp] theorem delay_txlen (s : State) (d : Delay) : (s.delay d).txlen = s.txlen := rfl
@[simp] theorem delay_sentcnt (s : State) (d : Delay) : (s.delay d).sentcnt = s.sentcnt := rfl
@[simp] theorem delay_isOpen (s : State) (d : Delay) : (s.delay d).isOpen = s.isOpen := rfl
@[simp] theorem delay_lastok (s : State) (d : Delay) : (s.delay d).lastok = s.lastok := rfl
@[simp] theorem delay_initd (s : State) (d : Delay) : (s.delay d).initd = s.initd := rfl
@[simp] theorem delay_addr (s : State) (d : Delay) : (s.delay d).addr = s.addr := rfl
@[simp] theorem delay_bl (s : State) (d : Delay) : (s.delay d).bl = s.bl := rfl
@[simp] theorem delay_curOp (s : State) (d : Delay) : (s.delay d).curOp = s.curOp := rfl
@[simp] theorem delay_ustep (s : State) (d : Delay) : (s.delay d).ustep = s.ustep := rfl
@[simp] theorem delay_ackLevel (s : State) (d : Delay) : (s.delay d).ackLevel = s.ackLevel := rfl
@[simp] theorem delay_timer (s : State) (d : Delay) : (s.delay d).timer = 0 := rfl
@[simp] theorem delay_rsp (s : State) (d : Delay) : (s.delay d).rsp = s.rsp := rfl
@[simp] theorem delay_spent (s : State) (d : Delay) : (s.delay d).spent = s.spent.add d := rfl
@[simp] theorem delay_env (s : State) (d : Delay) : (s.delay d).env = s.env := rfl
@[simp] theorem delay_host (s : State) (d : Delay) : (s.delay d).host = s.host := rfl

/-! ### `goto` -/

@[simp] theorem goto_sdaOut (s : State) (p : UStep) : (s.goto p).sdaOut = s.sdaOut := rfl
@[simp] theorem goto_sclOut (s : State) (p : UStep) : (s.goto p).sclOut = s.sclOut := rfl
@[simp] theorem goto_shreg (s : State) (p : UStep) : (s.goto p).shreg = s.shreg := rfl
@[simp] theorem goto_bitcnt (s : State) (p : UStep) : (s.goto p).bitcnt = s.bitcnt := rfl
@[simp] theorem goto_byteidx (s : State) (p : UStep) : (s.goto p).byteidx = s.byteidx := rfl
@[simp] theorem goto_txbuf (s : State) (p : UStep) : (s.goto p).txbuf = s.txbuf := rfl
@[simp] theorem goto_txlen (s : State) (p : UStep) : (s.goto p).txlen = s.txlen := rfl
@[simp] theorem goto_sentcnt (s : State) (p : UStep) : (s.goto p).sentcnt = s.sentcnt := rfl
@[simp] theorem goto_isOpen (s : State) (p : UStep) : (s.goto p).isOpen = s.isOpen := rfl
@[simp] theorem goto_lastok (s : State) (p : UStep) : (s.goto p).lastok = s.lastok := rfl
@[simp] theorem goto_initd (s : State) (p : UStep) : (s.goto p).initd = s.initd := rfl
@[simp] theorem goto_addr (s : State) (p : UStep) : (s.goto p).addr = s.addr := rfl
@[simp] theorem goto_bl (s : State) (p : UStep) : (s.goto p).bl = s.bl := rfl
@[simp] theorem goto_curOp (s : State) (p : UStep) : (s.goto p).curOp = s.curOp := rfl
@[simp] theorem goto_ustep (s : State) (p : UStep) : (s.goto p).ustep = p := rfl
@[simp] theorem goto_ackLevel (s : State) (p : UStep) : (s.goto p).ackLevel = s.ackLevel := rfl
@[simp] theorem goto_timer (s : State) (p : UStep) : (s.goto p).timer = s.timer := rfl
@[simp] theorem goto_rsp (s : State) (p : UStep) : (s.goto p).rsp = s.rsp := rfl
@[simp] theorem goto_spent (s : State) (p : UStep) : (s.goto p).spent = s.spent := rfl
@[simp] theorem goto_env (s : State) (p : UStep) : (s.goto p).env = s.env := rfl
@[simp] theorem goto_host (s : State) (p : UStep) : (s.goto p).host = s.host := rfl

/-! ### `accept` -/

@[simp] theorem accept_sdaOut (s : State) (i : Instr) (p : UStep) :
    (s.accept i p).sdaOut = s.sdaOut := rfl
@[simp] theorem accept_sclOut (s : State) (i : Instr) (p : UStep) :
    (s.accept i p).sclOut = s.sclOut := rfl
@[simp] theorem accept_shreg (s : State) (i : Instr) (p : UStep) :
    (s.accept i p).shreg = s.shreg := rfl
@[simp] theorem accept_bitcnt (s : State) (i : Instr) (p : UStep) :
    (s.accept i p).bitcnt = s.bitcnt := rfl
@[simp] theorem accept_byteidx (s : State) (i : Instr) (p : UStep) :
    (s.accept i p).byteidx = s.byteidx := rfl
@[simp] theorem accept_txbuf (s : State) (i : Instr) (p : UStep) :
    (s.accept i p).txbuf = s.txbuf := rfl
@[simp] theorem accept_txlen (s : State) (i : Instr) (p : UStep) :
    (s.accept i p).txlen = s.txlen := rfl
@[simp] theorem accept_sentcnt (s : State) (i : Instr) (p : UStep) :
    (s.accept i p).sentcnt = s.sentcnt := rfl
@[simp] theorem accept_isOpen (s : State) (i : Instr) (p : UStep) :
    (s.accept i p).isOpen = s.isOpen := rfl
@[simp] theorem accept_lastok (s : State) (i : Instr) (p : UStep) :
    (s.accept i p).lastok = s.lastok := rfl
@[simp] theorem accept_initd (s : State) (i : Instr) (p : UStep) :
    (s.accept i p).initd = s.initd := rfl
@[simp] theorem accept_addr (s : State) (i : Instr) (p : UStep) :
    (s.accept i p).addr = s.addr := rfl
@[simp] theorem accept_bl (s : State) (i : Instr) (p : UStep) : (s.accept i p).bl = s.bl := rfl
@[simp] theorem accept_curOp (s : State) (i : Instr) (p : UStep) :
    (s.accept i p).curOp = some i := rfl
@[simp] theorem accept_ustep (s : State) (i : Instr) (p : UStep) : (s.accept i p).ustep = p := rfl
@[simp] theorem accept_ackLevel (s : State) (i : Instr) (p : UStep) :
    (s.accept i p).ackLevel = s.ackLevel := rfl
@[simp] theorem accept_timer (s : State) (i : Instr) (p : UStep) :
    (s.accept i p).timer = s.timer := rfl
@[simp] theorem accept_rsp (s : State) (i : Instr) (p : UStep) : (s.accept i p).rsp = s.rsp := rfl
@[simp] theorem accept_spent (s : State) (i : Instr) (p : UStep) :
    (s.accept i p).spent = s.spent := rfl
@[simp] theorem accept_env (s : State) (i : Instr) (p : UStep) : (s.accept i p).env = s.env := rfl
@[simp] theorem accept_host (s : State) (i : Instr) (p : UStep) :
    (s.accept i p).host = s.host := rfl

/-! ### `finish` -/

@[simp] theorem finish_sdaOut (s : State) (st : Status) (d : Byte) :
    (s.finish st d).sdaOut = s.sdaOut := rfl
@[simp] theorem finish_sclOut (s : State) (st : Status) (d : Byte) :
    (s.finish st d).sclOut = s.sclOut := rfl
@[simp] theorem finish_shreg (s : State) (st : Status) (d : Byte) :
    (s.finish st d).shreg = s.shreg := rfl
@[simp] theorem finish_bitcnt (s : State) (st : Status) (d : Byte) :
    (s.finish st d).bitcnt = s.bitcnt := rfl
@[simp] theorem finish_byteidx (s : State) (st : Status) (d : Byte) :
    (s.finish st d).byteidx = s.byteidx := rfl
@[simp] theorem finish_txbuf (s : State) (st : Status) (d : Byte) :
    (s.finish st d).txbuf = s.txbuf := rfl
@[simp] theorem finish_txlen (s : State) (st : Status) (d : Byte) :
    (s.finish st d).txlen = s.txlen := rfl
@[simp] theorem finish_sentcnt (s : State) (st : Status) (d : Byte) :
    (s.finish st d).sentcnt = s.sentcnt := rfl
@[simp] theorem finish_isOpen (s : State) (st : Status) (d : Byte) :
    (s.finish st d).isOpen = s.isOpen := rfl
@[simp] theorem finish_lastok (s : State) (st : Status) (d : Byte) :
    (s.finish st d).lastok = s.lastok := rfl
@[simp] theorem finish_initd (s : State) (st : Status) (d : Byte) :
    (s.finish st d).initd = s.initd := rfl
@[simp] theorem finish_addr (s : State) (st : Status) (d : Byte) :
    (s.finish st d).addr = s.addr := rfl
@[simp] theorem finish_bl (s : State) (st : Status) (d : Byte) : (s.finish st d).bl = s.bl := rfl
@[simp] theorem finish_curOp (s : State) (st : Status) (d : Byte) :
    (s.finish st d).curOp = none := rfl
@[simp] theorem finish_ustep (s : State) (st : Status) (d : Byte) :
    (s.finish st d).ustep = .idle := rfl
@[simp] theorem finish_ackLevel (s : State) (st : Status) (d : Byte) :
    (s.finish st d).ackLevel = s.ackLevel := rfl
@[simp] theorem finish_timer (s : State) (st : Status) (d : Byte) :
    (s.finish st d).timer = s.timer := rfl
@[simp] theorem finish_rsp (s : State) (st : Status) (d : Byte) :
    (s.finish st d).rsp = some { st := st, data := d } := rfl
@[simp] theorem finish_spent (s : State) (st : Status) (d : Byte) :
    (s.finish st d).spent = s.spent := rfl
@[simp] theorem finish_env (s : State) (st : Status) (d : Byte) : (s.finish st d).env = s.env := rfl
@[simp] theorem finish_host (s : State) (st : Status) (d : Byte) :
    (s.finish st d).host = s.host := rfl

/-! ### `beginByte` -/

@[simp] theorem beginByte_sdaOut (s : State) (r : ByteRole) (v : Byte) :
    (beginByte r v s).sdaOut = s.sdaOut := rfl
@[simp] theorem beginByte_sclOut (s : State) (r : ByteRole) (v : Byte) :
    (beginByte r v s).sclOut = s.sclOut := rfl
@[simp] theorem beginByte_shreg (s : State) (r : ByteRole) (v : Byte) :
    (beginByte r v s).shreg = v := rfl
@[simp] theorem beginByte_bitcnt (s : State) (r : ByteRole) (v : Byte) :
    (beginByte r v s).bitcnt = 0 := rfl
@[simp] theorem beginByte_byteidx (s : State) (r : ByteRole) (v : Byte) :
    (beginByte r v s).byteidx = s.byteidx := rfl
@[simp] theorem beginByte_txbuf (s : State) (r : ByteRole) (v : Byte) :
    (beginByte r v s).txbuf = s.txbuf := rfl
@[simp] theorem beginByte_txlen (s : State) (r : ByteRole) (v : Byte) :
    (beginByte r v s).txlen = s.txlen := rfl
@[simp] theorem beginByte_sentcnt (s : State) (r : ByteRole) (v : Byte) :
    (beginByte r v s).sentcnt = s.sentcnt := rfl
@[simp] theorem beginByte_isOpen (s : State) (r : ByteRole) (v : Byte) :
    (beginByte r v s).isOpen = s.isOpen := rfl
@[simp] theorem beginByte_lastok (s : State) (r : ByteRole) (v : Byte) :
    (beginByte r v s).lastok = s.lastok := rfl
@[simp] theorem beginByte_initd (s : State) (r : ByteRole) (v : Byte) :
    (beginByte r v s).initd = s.initd := rfl
@[simp] theorem beginByte_addr (s : State) (r : ByteRole) (v : Byte) :
    (beginByte r v s).addr = s.addr := rfl
@[simp] theorem beginByte_bl (s : State) (r : ByteRole) (v : Byte) :
    (beginByte r v s).bl = s.bl := rfl
@[simp] theorem beginByte_curOp (s : State) (r : ByteRole) (v : Byte) :
    (beginByte r v s).curOp = s.curOp := rfl
@[simp] theorem beginByte_ustep (s : State) (r : ByteRole) (v : Byte) :
    (beginByte r v s).ustep = .byte r .putBit := rfl
@[simp] theorem beginByte_ackLevel (s : State) (r : ByteRole) (v : Byte) :
    (beginByte r v s).ackLevel = s.ackLevel := rfl
@[simp] theorem beginByte_timer (s : State) (r : ByteRole) (v : Byte) :
    (beginByte r v s).timer = s.timer := rfl
@[simp] theorem beginByte_rsp (s : State) (r : ByteRole) (v : Byte) :
    (beginByte r v s).rsp = s.rsp := rfl
@[simp] theorem beginByte_spent (s : State) (r : ByteRole) (v : Byte) :
    (beginByte r v s).spent = s.spent := rfl
@[simp] theorem beginByte_env (s : State) (r : ByteRole) (v : Byte) :
    (beginByte r v s).env = s.env := rfl
@[simp] theorem beginByte_host (s : State) (r : ByteRole) (v : Byte) :
    (beginByte r v s).host = s.host := rfl

/-! ### `packed` -/

@[simp] theorem packed_sdaOut (s : State) (size : Size) (kind : Kind) (v : Byte) :
    (s.packed size kind v).sdaOut = s.sdaOut := rfl
@[simp] theorem packed_sclOut (s : State) (size : Size) (kind : Kind) (v : Byte) :
    (s.packed size kind v).sclOut = s.sclOut := rfl
@[simp] theorem packed_shreg (s : State) (size : Size) (kind : Kind) (v : Byte) :
    (s.packed size kind v).shreg = s.shreg := rfl
@[simp] theorem packed_bitcnt (s : State) (size : Size) (kind : Kind) (v : Byte) :
    (s.packed size kind v).bitcnt = s.bitcnt := rfl
@[simp] theorem packed_byteidx (s : State) (size : Size) (kind : Kind) (v : Byte) :
    (s.packed size kind v).byteidx = s.byteidx := rfl
@[simp] theorem packed_txbuf (s : State) (size : Size) (kind : Kind) (v : Byte) :
    (s.packed size kind v).txbuf = s.txbuf.store 0 (packBytes s.bl size kind v) := rfl
@[simp] theorem packed_txlen (s : State) (size : Size) (kind : Kind) (v : Byte) :
    (s.packed size kind v).txlen = (match size with | .full => 5 | .nibble => 3) := rfl
@[simp] theorem packed_sentcnt (s : State) (size : Size) (kind : Kind) (v : Byte) :
    (s.packed size kind v).sentcnt = s.sentcnt := rfl
@[simp] theorem packed_isOpen (s : State) (size : Size) (kind : Kind) (v : Byte) :
    (s.packed size kind v).isOpen = s.isOpen := rfl
@[simp] theorem packed_lastok (s : State) (size : Size) (kind : Kind) (v : Byte) :
    (s.packed size kind v).lastok = s.lastok := rfl
@[simp] theorem packed_initd (s : State) (size : Size) (kind : Kind) (v : Byte) :
    (s.packed size kind v).initd = s.initd := rfl
@[simp] theorem packed_addr (s : State) (size : Size) (kind : Kind) (v : Byte) :
    (s.packed size kind v).addr = s.addr := rfl
@[simp] theorem packed_bl (s : State) (size : Size) (kind : Kind) (v : Byte) :
    (s.packed size kind v).bl = s.bl := rfl
@[simp] theorem packed_curOp (s : State) (size : Size) (kind : Kind) (v : Byte) :
    (s.packed size kind v).curOp = s.curOp := rfl
@[simp] theorem packed_ustep (s : State) (size : Size) (kind : Kind) (v : Byte) :
    (s.packed size kind v).ustep = s.ustep := rfl
@[simp] theorem packed_ackLevel (s : State) (size : Size) (kind : Kind) (v : Byte) :
    (s.packed size kind v).ackLevel = s.ackLevel := rfl
@[simp] theorem packed_timer (s : State) (size : Size) (kind : Kind) (v : Byte) :
    (s.packed size kind v).timer = s.timer := rfl
@[simp] theorem packed_rsp (s : State) (size : Size) (kind : Kind) (v : Byte) :
    (s.packed size kind v).rsp = s.rsp := rfl
@[simp] theorem packed_spent (s : State) (size : Size) (kind : Kind) (v : Byte) :
    (s.packed size kind v).spent = s.spent := rfl
@[simp] theorem packed_env (s : State) (size : Size) (kind : Kind) (v : Byte) :
    (s.packed size kind v).env = s.env := rfl
@[simp] theorem packed_host (s : State) (size : Size) (kind : Kind) (v : Byte) :
    (s.packed size kind v).host = s.host := rfl

/-! ### `packedBacklight` -/

@[simp] theorem packedBacklight_sdaOut (s : State) : s.packedBacklight.sdaOut = s.sdaOut := rfl
@[simp] theorem packedBacklight_sclOut (s : State) : s.packedBacklight.sclOut = s.sclOut := rfl
@[simp] theorem packedBacklight_shreg (s : State) : s.packedBacklight.shreg = s.shreg := rfl
@[simp] theorem packedBacklight_bitcnt (s : State) : s.packedBacklight.bitcnt = s.bitcnt := rfl
@[simp] theorem packedBacklight_byteidx (s : State) : s.packedBacklight.byteidx = s.byteidx := rfl
@[simp] theorem packedBacklight_txbuf (s : State) :
    s.packedBacklight.txbuf = s.txbuf.write 0 (backlightByte s.bl) := rfl
@[simp] theorem packedBacklight_txlen (s : State) : s.packedBacklight.txlen = 1 := rfl
@[simp] theorem packedBacklight_sentcnt (s : State) : s.packedBacklight.sentcnt = s.sentcnt := rfl
@[simp] theorem packedBacklight_isOpen (s : State) : s.packedBacklight.isOpen = s.isOpen := rfl
@[simp] theorem packedBacklight_lastok (s : State) : s.packedBacklight.lastok = s.lastok := rfl
@[simp] theorem packedBacklight_initd (s : State) : s.packedBacklight.initd = s.initd := rfl
@[simp] theorem packedBacklight_addr (s : State) : s.packedBacklight.addr = s.addr := rfl
@[simp] theorem packedBacklight_bl (s : State) : s.packedBacklight.bl = s.bl := rfl
@[simp] theorem packedBacklight_curOp (s : State) : s.packedBacklight.curOp = s.curOp := rfl
@[simp] theorem packedBacklight_ustep (s : State) : s.packedBacklight.ustep = s.ustep := rfl
@[simp] theorem packedBacklight_ackLevel (s : State) :
    s.packedBacklight.ackLevel = s.ackLevel := rfl
@[simp] theorem packedBacklight_timer (s : State) : s.packedBacklight.timer = s.timer := rfl
@[simp] theorem packedBacklight_rsp (s : State) : s.packedBacklight.rsp = s.rsp := rfl
@[simp] theorem packedBacklight_spent (s : State) : s.packedBacklight.spent = s.spent := rfl
@[simp] theorem packedBacklight_env (s : State) : s.packedBacklight.env = s.env := rfl
@[simp] theorem packedBacklight_host (s : State) : s.packedBacklight.host = s.host := rfl

/-! ### `withQueue` -/

@[simp] theorem withQueue_sdaOut (s : State) (q : List HostAct) :
    (s.withQueue q).sdaOut = s.sdaOut := rfl
@[simp] theorem withQueue_sclOut (s : State) (q : List HostAct) :
    (s.withQueue q).sclOut = s.sclOut := rfl
@[simp] theorem withQueue_shreg (s : State) (q : List HostAct) :
    (s.withQueue q).shreg = s.shreg := rfl
@[simp] theorem withQueue_bitcnt (s : State) (q : List HostAct) :
    (s.withQueue q).bitcnt = s.bitcnt := rfl
@[simp] theorem withQueue_byteidx (s : State) (q : List HostAct) :
    (s.withQueue q).byteidx = s.byteidx := rfl
@[simp] theorem withQueue_txbuf (s : State) (q : List HostAct) :
    (s.withQueue q).txbuf = s.txbuf := rfl
@[simp] theorem withQueue_txlen (s : State) (q : List HostAct) :
    (s.withQueue q).txlen = s.txlen := rfl
@[simp] theorem withQueue_sentcnt (s : State) (q : List HostAct) :
    (s.withQueue q).sentcnt = s.sentcnt := rfl
@[simp] theorem withQueue_isOpen (s : State) (q : List HostAct) :
    (s.withQueue q).isOpen = s.isOpen := rfl
@[simp] theorem withQueue_lastok (s : State) (q : List HostAct) :
    (s.withQueue q).lastok = s.lastok := rfl
@[simp] theorem withQueue_initd (s : State) (q : List HostAct) :
    (s.withQueue q).initd = s.initd := rfl
@[simp] theorem withQueue_addr (s : State) (q : List HostAct) : (s.withQueue q).addr = s.addr := rfl
@[simp] theorem withQueue_bl (s : State) (q : List HostAct) : (s.withQueue q).bl = s.bl := rfl
@[simp] theorem withQueue_curOp (s : State) (q : List HostAct) :
    (s.withQueue q).curOp = s.curOp := rfl
@[simp] theorem withQueue_ustep (s : State) (q : List HostAct) :
    (s.withQueue q).ustep = s.ustep := rfl
@[simp] theorem withQueue_ackLevel (s : State) (q : List HostAct) :
    (s.withQueue q).ackLevel = s.ackLevel := rfl
@[simp] theorem withQueue_timer (s : State) (q : List HostAct) :
    (s.withQueue q).timer = s.timer := rfl
@[simp] theorem withQueue_rsp (s : State) (q : List HostAct) : (s.withQueue q).rsp = s.rsp := rfl
@[simp] theorem withQueue_spent (s : State) (q : List HostAct) :
    (s.withQueue q).spent = s.spent := rfl
@[simp] theorem withQueue_env (s : State) (q : List HostAct) : (s.withQueue q).env = s.env := rfl
@[simp] theorem withQueue_host (s : State) (q : List HostAct) :
    (s.withQueue q).host = { s.host with queue := q } := rfl

/-! ### `withTracking` -/

@[simp] theorem withTracking_sdaOut (s : State) (b : Bool) :
    (s.withTracking b).sdaOut = s.sdaOut := rfl
@[simp] theorem withTracking_sclOut (s : State) (b : Bool) :
    (s.withTracking b).sclOut = s.sclOut := rfl
@[simp] theorem withTracking_shreg (s : State) (b : Bool) :
    (s.withTracking b).shreg = s.shreg := rfl
@[simp] theorem withTracking_bitcnt (s : State) (b : Bool) :
    (s.withTracking b).bitcnt = s.bitcnt := rfl
@[simp] theorem withTracking_byteidx (s : State) (b : Bool) :
    (s.withTracking b).byteidx = s.byteidx := rfl
@[simp] theorem withTracking_txbuf (s : State) (b : Bool) :
    (s.withTracking b).txbuf = s.txbuf := rfl
@[simp] theorem withTracking_txlen (s : State) (b : Bool) :
    (s.withTracking b).txlen = s.txlen := rfl
@[simp] theorem withTracking_sentcnt (s : State) (b : Bool) :
    (s.withTracking b).sentcnt = s.sentcnt := rfl
@[simp] theorem withTracking_isOpen (s : State) (b : Bool) :
    (s.withTracking b).isOpen = s.isOpen := rfl
@[simp] theorem withTracking_lastok (s : State) (b : Bool) :
    (s.withTracking b).lastok = s.lastok := rfl
@[simp] theorem withTracking_initd (s : State) (b : Bool) :
    (s.withTracking b).initd = s.initd := rfl
@[simp] theorem withTracking_addr (s : State) (b : Bool) : (s.withTracking b).addr = s.addr := rfl
@[simp] theorem withTracking_bl (s : State) (b : Bool) : (s.withTracking b).bl = s.bl := rfl
@[simp] theorem withTracking_curOp (s : State) (b : Bool) :
    (s.withTracking b).curOp = s.curOp := rfl
@[simp] theorem withTracking_ustep (s : State) (b : Bool) :
    (s.withTracking b).ustep = s.ustep := rfl
@[simp] theorem withTracking_ackLevel (s : State) (b : Bool) :
    (s.withTracking b).ackLevel = s.ackLevel := rfl
@[simp] theorem withTracking_timer (s : State) (b : Bool) :
    (s.withTracking b).timer = s.timer := rfl
@[simp] theorem withTracking_rsp (s : State) (b : Bool) : (s.withTracking b).rsp = s.rsp := rfl
@[simp] theorem withTracking_spent (s : State) (b : Bool) :
    (s.withTracking b).spent = s.spent := rfl
@[simp] theorem withTracking_env (s : State) (b : Bool) : (s.withTracking b).env = s.env := rfl
@[simp] theorem withTracking_host (s : State) (b : Bool) :
    (s.withTracking b).host = { s.host with tracking := b } := rfl

/-! ### `withSession` -/

@[simp] theorem withSession_sdaOut (s : State) (v : Session) :
    (s.withSession v).sdaOut = s.sdaOut := rfl
@[simp] theorem withSession_sclOut (s : State) (v : Session) :
    (s.withSession v).sclOut = s.sclOut := rfl
@[simp] theorem withSession_shreg (s : State) (v : Session) :
    (s.withSession v).shreg = s.shreg := rfl
@[simp] theorem withSession_bitcnt (s : State) (v : Session) :
    (s.withSession v).bitcnt = s.bitcnt := rfl
@[simp] theorem withSession_byteidx (s : State) (v : Session) :
    (s.withSession v).byteidx = s.byteidx := rfl
@[simp] theorem withSession_txbuf (s : State) (v : Session) :
    (s.withSession v).txbuf = s.txbuf := rfl
@[simp] theorem withSession_txlen (s : State) (v : Session) :
    (s.withSession v).txlen = s.txlen := rfl
@[simp] theorem withSession_sentcnt (s : State) (v : Session) :
    (s.withSession v).sentcnt = s.sentcnt := rfl
@[simp] theorem withSession_isOpen (s : State) (v : Session) :
    (s.withSession v).isOpen = s.isOpen := rfl
@[simp] theorem withSession_lastok (s : State) (v : Session) :
    (s.withSession v).lastok = s.lastok := rfl
@[simp] theorem withSession_initd (s : State) (v : Session) :
    (s.withSession v).initd = s.initd := rfl
@[simp] theorem withSession_addr (s : State) (v : Session) : (s.withSession v).addr = s.addr := rfl
@[simp] theorem withSession_bl (s : State) (v : Session) : (s.withSession v).bl = s.bl := rfl
@[simp] theorem withSession_curOp (s : State) (v : Session) :
    (s.withSession v).curOp = s.curOp := rfl
@[simp] theorem withSession_ustep (s : State) (v : Session) :
    (s.withSession v).ustep = s.ustep := rfl
@[simp] theorem withSession_ackLevel (s : State) (v : Session) :
    (s.withSession v).ackLevel = s.ackLevel := rfl
@[simp] theorem withSession_timer (s : State) (v : Session) :
    (s.withSession v).timer = s.timer := rfl
@[simp] theorem withSession_rsp (s : State) (v : Session) : (s.withSession v).rsp = s.rsp := rfl
@[simp] theorem withSession_spent (s : State) (v : Session) :
    (s.withSession v).spent = s.spent := rfl
@[simp] theorem withSession_env (s : State) (v : Session) : (s.withSession v).env = s.env := rfl
@[simp] theorem withSession_host (s : State) (v : Session) :
    (s.withSession v).host = { s.host with session := v } := rfl

/-! ### `hostReads` -/

/-- The host's reading of a response changes nothing of the block or its environment. -/
theorem hostReads_eq (s : State) : s.hostReads = { s with host := s.hostReads.host } := by
  unfold State.hostReads
  split
  · split <;> rfl
  · rfl

@[simp] theorem hostReads_sdaOut (s : State) : s.hostReads.sdaOut = s.sdaOut := by rw [hostReads_eq]
@[simp] theorem hostReads_sclOut (s : State) : s.hostReads.sclOut = s.sclOut := by rw [hostReads_eq]
@[simp] theorem hostReads_shreg (s : State) : s.hostReads.shreg = s.shreg := by rw [hostReads_eq]
@[simp] theorem hostReads_bitcnt (s : State) : s.hostReads.bitcnt = s.bitcnt := by rw [hostReads_eq]
@[simp] theorem hostReads_byteidx (s : State) : s.hostReads.byteidx = s.byteidx := by rw [hostReads_eq]
@[simp] theorem hostReads_txbuf (s : State) : s.hostReads.txbuf = s.txbuf := by rw [hostReads_eq]
@[simp] theorem hostReads_txlen (s : State) : s.hostReads.txlen = s.txlen := by rw [hostReads_eq]
@[simp] theorem hostReads_sentcnt (s : State) : s.hostReads.sentcnt = s.sentcnt := by rw [hostReads_eq]
@[simp] theorem hostReads_isOpen (s : State) : s.hostReads.isOpen = s.isOpen := by rw [hostReads_eq]
@[simp] theorem hostReads_lastok (s : State) : s.hostReads.lastok = s.lastok := by rw [hostReads_eq]
@[simp] theorem hostReads_initd (s : State) : s.hostReads.initd = s.initd := by rw [hostReads_eq]
@[simp] theorem hostReads_addr (s : State) : s.hostReads.addr = s.addr := by rw [hostReads_eq]
@[simp] theorem hostReads_bl (s : State) : s.hostReads.bl = s.bl := by rw [hostReads_eq]
@[simp] theorem hostReads_curOp (s : State) : s.hostReads.curOp = s.curOp := by rw [hostReads_eq]
@[simp] theorem hostReads_ustep (s : State) : s.hostReads.ustep = s.ustep := by rw [hostReads_eq]
@[simp] theorem hostReads_ackLevel (s : State) : s.hostReads.ackLevel = s.ackLevel := by rw [hostReads_eq]
@[simp] theorem hostReads_timer (s : State) : s.hostReads.timer = s.timer := by rw [hostReads_eq]
@[simp] theorem hostReads_rsp (s : State) : s.hostReads.rsp = s.rsp := by rw [hostReads_eq]
@[simp] theorem hostReads_spent (s : State) : s.hostReads.spent = s.spent := by rw [hostReads_eq]
@[simp] theorem hostReads_env (s : State) : s.hostReads.env = s.env := by rw [hostReads_eq]

/-- The host's reading leaves its plans and its session alone. -/
@[simp] theorem hostReads_queue (s : State) : s.hostReads.host.queue = s.host.queue := by
  unfold State.hostReads
  split
  · split <;> rfl
  · rfl

@[simp] theorem hostReads_session (s : State) : s.hostReads.host.session = s.host.session := by
  unfold State.hostReads
  split
  · split <;> rfl
  · rfl

/-! ### Hardware reset -/

@[simp] theorem resetBlock_sdaOut (s : State) : s.resetBlock.sdaOut = State.reset.sdaOut := rfl
@[simp] theorem resetBlock_sclOut (s : State) : s.resetBlock.sclOut = State.reset.sclOut := rfl
@[simp] theorem resetBlock_shreg (s : State) : s.resetBlock.shreg = State.reset.shreg := rfl
@[simp] theorem resetBlock_bitcnt (s : State) : s.resetBlock.bitcnt = State.reset.bitcnt := rfl
@[simp] theorem resetBlock_byteidx (s : State) : s.resetBlock.byteidx = State.reset.byteidx := rfl
@[simp] theorem resetBlock_txbuf (s : State) : s.resetBlock.txbuf = State.reset.txbuf := rfl
@[simp] theorem resetBlock_txlen (s : State) : s.resetBlock.txlen = State.reset.txlen := rfl
@[simp] theorem resetBlock_sentcnt (s : State) : s.resetBlock.sentcnt = State.reset.sentcnt := rfl
@[simp] theorem resetBlock_isOpen (s : State) : s.resetBlock.isOpen = State.reset.isOpen := rfl
@[simp] theorem resetBlock_lastok (s : State) : s.resetBlock.lastok = State.reset.lastok := rfl
@[simp] theorem resetBlock_initd (s : State) : s.resetBlock.initd = State.reset.initd := rfl
@[simp] theorem resetBlock_addr (s : State) : s.resetBlock.addr = State.reset.addr := rfl
@[simp] theorem resetBlock_bl (s : State) : s.resetBlock.bl = State.reset.bl := rfl
@[simp] theorem resetBlock_curOp (s : State) : s.resetBlock.curOp = State.reset.curOp := rfl
@[simp] theorem resetBlock_ustep (s : State) : s.resetBlock.ustep = State.reset.ustep := rfl
@[simp] theorem resetBlock_ackLevel (s : State) : s.resetBlock.ackLevel = State.reset.ackLevel := rfl
@[simp] theorem resetBlock_timer (s : State) : s.resetBlock.timer = State.reset.timer := rfl
@[simp] theorem resetBlock_rsp (s : State) : s.resetBlock.rsp = State.reset.rsp := rfl
@[simp] theorem resetBlock_spent (s : State) : s.resetBlock.spent = s.spent := rfl
@[simp] theorem resetBlock_env (s : State) : s.resetBlock.env = s.env.observe true true := rfl
@[simp] theorem resetBlock_host (s : State) : s.resetBlock.host = s.host := rfl

end Sys2Proof.Machine
end

