-- ==== Sys2Proof/Laws/Env.lean ====
section
/-! SUPPORT. What the block's steps do to the environment: the inputs move on by one a step, whatever
the block drives, and no device appears. -/

namespace Sys2Proof.Machine

/-- Seeing the lines changes none of the coming inputs. -/
@[simp] theorem Env.advance_observe_input (e : Env) (a b : Bool) :
    (e.observe a b).advance.sda = e.advance.sda ∧ (e.observe a b).advance.scl = e.advance.scl
      ∧ (e.observe a b).advance.rst = e.advance.rst
      ∧ (e.observe a b).advance.script = e.advance.script := by
  unfold Env.advance Env.observe
  cases e.script <;> simp

/-- The coming inputs depend on the script and the drive held alone. -/
theorem Env.ahead_congr {e f : Env} (h1 : e.script = f.script) (h2 : e.sda = f.sda)
    (h3 : e.scl = f.scl) : ∀ n, e.ahead n = f.ahead n := by
  intro n
  induction n generalizing e f with
  | zero => simp only [Env.ahead, Env.advance, h1]; cases f.script <;> simp [h2, h3]
  | succ n ih =>
    simp only [Env.ahead]
    apply ih <;> simp only [Env.advance, h1] <;> cases f.script <;> simp [h2, h3]

@[simp] theorem Env.ahead_observe (e : Env) (a b : Bool) (n : Nat) :
    (e.observe a b).ahead n = e.ahead n :=
  Env.ahead_congr (e := e.observe a b) (f := e) rfl rfl rfl n

@[simp] theorem Env.ahead_advance (e : Env) (n : Nat) : e.advance.ahead n = e.ahead (n + 1) := rfl

/-- The drive of the scripted devices at a step is the input that was one step ahead. -/
@[simp] theorem Env.advance_scl (e : Env) : e.advance.scl = (e.ahead 0).scl := rfl

@[simp] theorem Env.advance_sda (e : Env) : e.advance.sda = (e.ahead 0).sda := rfl

@[simp] theorem Env.advance_rst (e : Env) : e.advance.rst = (e.ahead 0).rst := rfl

@[simp] theorem Env.observe_sda (e : Env) (a b : Bool) : (e.observe a b).sda = e.sda := rfl

@[simp] theorem Env.observe_scl (e : Env) (a b : Bool) : (e.observe a b).scl = e.scl := rfl

@[simp] theorem Env.observe_rst (e : Env) (a b : Bool) : (e.observe a b).rst = e.rst := rfl

@[simp] theorem Env.observe_script (e : Env) (a b : Bool) : (e.observe a b).script = e.script := rfl

@[simp] theorem Env.observe_sclEnv (e : Env) (a b : Bool) : (e.observe a b).sclEnv = e.sclEnv := rfl

@[simp] theorem Env.advance_sclEnv (e : Env) : e.advance.sclEnv = (e.ahead 0).scl := rfl

/-- No device appears on a bus that has none. -/
@[simp] theorem Env.observe_expander_none {e : Env} (h : e.expander = none) (a b : Bool) :
    (e.observe a b).expander = none := by simp [Env.observe, h]

@[simp] theorem Env.advance_expander (e : Env) : e.advance.expander = e.expander := by
  unfold Env.advance; cases e.script <;> rfl

@[simp] theorem Env.advance_bus (e : Env) : e.advance.bus = e.bus := by
  unfold Env.advance; cases e.script <;> rfl

/-- With no device, the data line's drive is the scripted one. -/
theorem Env.sdaEnv_of_none {e : Env} (h : e.expander = none) : e.sdaEnv = e.sda := by
  simp [Env.sdaEnv, h]

/-- The inputs of an empty script: the drive held, no reset. -/
theorem Env.ahead_of_empty {e : Env} (h : e.script = []) (n : Nat) :
    e.ahead n = { sda := e.sda, scl := e.scl, rst := false } := by
  induction n generalizing e with
  | zero => simp [Env.ahead, Env.advance, h]
  | succ n ih =>
    have h' : e.advance.script = [] := by simp [Env.advance, h]
    have hs : e.advance.sda = e.sda := by simp only [Env.advance, h]
    have hc : e.advance.scl = e.scl := by simp only [Env.advance, h]
    simp only [Env.ahead, ih h', hs, hc]

theorem Env.noReset.shift {e : Env} (h : e.noReset) (k : Nat) : ∀ n, (e.ahead (n + k)).rst = false :=
  fun n => h (n + k)

/-! ### The step's clock -/

@[simp] theorem latch_ahead (s : State) (n : Nat) : s.latch.env.ahead n = s.env.ahead (n + 1) := by
  simp

/-- A step at which `rst` is low has the step's own effect. -/
theorem clocked_of_low {s : State} (h : (s.env.ahead 0).rst = false) (f : State → Result) :
    clocked s f = f s.latch := by simp [clocked, h]

/-- A step at which `rst` is sampled 1 resets the block (R240). -/
theorem clocked_of_rst {s : State} (h : (s.env.ahead 0).rst = true) (f : State → Result) :
    clocked s f = .next s.latch.resetBlock := by simp [clocked, h]

/-- What a clocked step can answer: the reset of the block, or its effect's answer. -/
theorem clocked_cases (s : State) (f : State → Result) :
    clocked s f = .next s.latch.resetBlock ∨ clocked s f = f s.latch := by
  unfold clocked; split <;> simp

@[simp] theorem andThen_next (s : State) (f : State → Result) : andThen (.next s) f = f s := rfl

end Sys2Proof.Machine
end

