-- ==== Sys2Proof/Laws/Run.lean ====
section
/-! SUPPORT. Running a command: ticks that follow one another, and what the shared bodies do from end to
end (start condition R102, one byte R106, stop condition R104). -/

namespace Sys2Proof.Machine

/-- The environment `k` steps on: its inputs have moved on by `k`, and no device has appeared. -/
structure After (k : Nat) (e f : Env) : Prop where
  ahead : ∀ n, f.ahead n = e.ahead (n + k)
  lone : e.expander = none → f.expander = none

theorem After.zero (e : Env) : After 0 e e := ⟨fun _ => rfl, id⟩

theorem After.observe {k : Nat} {e f : Env} (h : After k e f) (a b : Bool) :
    After k e (f.observe a b) :=
  ⟨fun n => by rw [Env.ahead_observe, h.ahead], fun hn => Env.observe_expander_none (h.lone hn) a b⟩

theorem After.advance {k : Nat} {e f : Env} (h : After k e f) : After (k + 1) e f.advance :=
  ⟨fun n => by rw [Env.ahead_advance, h.ahead]; congr 1; omega,
   fun hn => by rw [Env.advance_expander, h.lone hn]⟩

theorem After.trans {j k : Nat} {e f g : Env} (h : After j e f) (h' : After k f g) :
    After (j + k) e g :=
  ⟨fun n => by rw [h'.ahead, h.ahead]; congr 1; omega, fun hn => h'.lone (h.lone hn)⟩

/-- `t` is reached from `s` by `k` ticks, none of which ends the command or stays in a wait. -/
def Reaches : Nat → State → State → Prop
  | 0, s, t => s = t
  | k + 1, s, t => ∃ u, tick s = .next u ∧ u.curOp.isSome = true ∧ u.ustep ≠ s.ustep ∧ Reaches k u t

theorem Reaches.trans {j k : Nat} {s t u : State} (h : Reaches j s t) (h' : Reaches k t u) :
    Reaches (j + k) s u := by
  induction j generalizing s with
  | zero => cases h; simpa using h'
  | succ j ih =>
    obtain ⟨v, h1, h2, h3, h4⟩ := h
    rw [Nat.succ_add]
    exact ⟨v, h1, h2, h3, ih h4⟩

/-- Running goes on from what has been reached. -/
theorem runSteps_of_reaches {k : Nat} {s t : State} (h : Reaches k s t) (n : Nat) :
    runSteps (k + n) s = runSteps n t := by
  induction k generalizing s with
  | zero => cases h; rw [Nat.zero_add]
  | succ k ih =>
    obtain ⟨u, h1, h2, h3, h4⟩ := h
    rw [show k + 1 + n = (k + n) + 1 by omega, runSteps, h1, andThen_next]
    simp [h2, h3, ih h4]

/-- The last tick of a command ends the run. -/
theorem runSteps_of_end {s t : State} (n : Nat) (h : tick s = .next t) (ht : t.curOp = none) :
    runSteps (n + 1) s = .next t := by simp [runSteps, h, ht]

/-- A tick that stays in a wait ends the run. -/
theorem runSteps_of_stay {s t : State} (n : Nat) (h : tick s = .next t) (ht : t.ustep = s.ustep) :
    runSteps (n + 1) s = .next t := by simp [runSteps, h, ht]

/-- A tick with `rst` low performs the primitive at the control position. -/
theorem tick_of_low {s : State} (h : (s.env.ahead 0).rst = false) : tick s = primitive s.latch :=
  clocked_of_low h _

/-- One tick that goes on. -/
theorem reaches_one {s t : State} (h0 : (s.env.ahead 0).rst = false)
    (h : primitive s.latch = .next t) (hc : t.curOp.isSome = true) (hu : t.ustep ≠ s.ustep) :
    Reaches 1 s t := ⟨t, by rw [tick_of_low h0, h], hc, hu, rfl⟩

/-! ### One tick at each position

Each is stated as an update of the state before, with the environment one step on. -/

theorem After.noReset {k : Nat} {e f : Env} (h : After k e f) (hr : e.noReset) : f.noReset :=
  fun n => by rw [h.ahead]; exact hr _

theorem After.clockFree {k : Nat} {e f : Env} (h : After k e f) (hc : e.clockFree) : f.clockFree :=
  fun n => by rw [h.ahead]; exact hc _

/-- The environment after a step that drives no line. -/
theorem after_latch (s : State) : After 1 s.env s.latch.env := ((After.zero s.env).advance).observe _ _

/-- The environment after a step that leaves the drives at `a` and `b`. -/
theorem after_drive (s : State) (a b : Bool) : After 1 s.env (s.latch.env.observe a b) :=
  (after_latch s).observe _ _

/-- The byte begun at `s`, if a byte begins there. -/
def headOf (s : State) : List Byte := if s.atByteHead then [s.shreg] else []

theorem headOf_of_not {s : State} (h : s.atByteHead = false) : headOf s = [] := by simp [headOf, h]

/-- One step of the bytes begun. -/
theorem bytesBegun_of_tick {s t : State} (h : tick s = .next t) (m : Nat) :
    bytesBegun (m + 1) s = headOf s ++ bytesBegun m t := by rw [bytesBegun, h]; rfl

/-- `t` is reached from `s` by `k` ticks of one running command, none of which begins a byte but the
first, if `s` is the head of one. -/
structure Run (k : Nat) (s t : State) : Prop where
  reaches : Reaches k s t
  after : After k s.env t.env
  begun : ∀ m, bytesBegun (k + m) s = (if k = 0 then [] else headOf s) ++ bytesBegun m t

theorem Run.refl (s : State) : Run 0 s s := ⟨rfl, After.zero _, fun m => by simp⟩

/-- Two runs are one, if the second does not begin a byte. -/
theorem Run.trans {j k : Nat} {s t u : State} (h : Run j s t) (h' : Run k t u)
    (hb : j = 0 ∨ t.atByteHead = false) : Run (j + k) s u := by
  refine ⟨h.reaches.trans h'.reaches, h.after.trans h'.after, fun m => ?_⟩
  rw [Nat.add_assoc, h.begun, h'.begun]
  rcases hb with rfl | hb
  · obtain rfl : s = t := h.reaches
    simp
  · rcases Nat.eq_zero_or_pos j with rfl | hj
    · obtain rfl : s = t := h.reaches
      simp [headOf_of_not hb]
    · simp [headOf_of_not hb, show j ≠ 0 by omega]

section OneTick

variable {k : Nat} {s t : State} {q : UStep} {b : Bool}

/-- One more tick that goes on. -/
theorem Run.one {u : State} (h : Run k s t) (hr : s.env.noReset) (hop : u.curOp.isSome = true)
    (hq : u.ustep ≠ t.ustep) (hp : primitive t.latch = .next u) (ha : After 1 t.env u.env)
    (hb : k = 0 ∨ t.atByteHead = false := by simp [State.atByteHead]) :
    Run (k + 1) s u := by
  have h0 := h.after.noReset hr 0
  refine h.trans ⟨reaches_one h0 hp hop hq, ha, fun m => ?_⟩ hb
  rw [Nat.add_comm, bytesBegun_of_tick ((tick_of_low h0).trans hp)]
  rfl

/-- A tick that drives the data line. -/
theorem Run.sda (h : Run k s t) (hr : s.env.noReset) (hop : t.curOp.isSome = true)
    (hq : q ≠ t.ustep) (hp : primitive t.latch = .next ((t.latch.setSda b).goto q))
    (hb : k = 0 ∨ t.atByteHead = false := by simp [State.atByteHead]) :
    ∃ e, Run (k + 1) s { t with sdaOut := b, ustep := q, rsp := none, env := e } :=
  ⟨_, h.one hr hop hq hp (after_drive t b t.sclOut) hb⟩

/-- A tick that drives the clock line. -/
theorem Run.scl (h : Run k s t) (hr : s.env.noReset) (hop : t.curOp.isSome = true)
    (hq : q ≠ t.ustep) (hp : primitive t.latch = .next ((t.latch.setScl b).goto q))
    (hb : k = 0 ∨ t.atByteHead = false := by simp [State.atByteHead]) :
    ∃ e, Run (k + 1) s { t with sclOut := b, ustep := q, rsp := none, env := e } :=
  ⟨_, h.one hr hop hq hp (after_drive t t.sdaOut b) hb⟩

/-- A tick that delays half a period. -/
theorem Run.half (h : Run k s t) (hr : s.env.noReset) (hop : t.curOp.isSome = true)
    (hq : q ≠ t.ustep) (hp : primitive t.latch = .next ((t.latch.delay .half).goto q))
    (hb : k = 0 ∨ t.atByteHead = false := by simp [State.atByteHead]) :
    ∃ e, Run (k + 1) s { t with
      timer := 0, spent := { t.spent with half := t.spent.half + 1 }
      ustep := q, rsp := none, env := e } :=
  ⟨_, h.one hr hop hq hp (after_latch t) hb⟩

/-- A read of the clock that finds it high. -/
theorem Run.wait (h : Run k s t) (hr : s.env.noReset) (hop : t.curOp.isSome = true)
    (hq : q ≠ t.ustep) (hs : t.sclOut = true) (hc : (s.env.ahead k).scl = true)
    (hp : primitive t.latch = .next (if t.latch.sclIn then t.latch.goto q else t.latch))
    (hb : k = 0 ∨ t.atByteHead = false := by simp [State.atByteHead]) :
    ∃ e, Run (k + 1) s { t with ustep := q, rsp := none, env := e } := by
  have h1 : (t.env.ahead 0).scl = true := by rw [h.after.ahead, Nat.zero_add]; exact hc
  have h2 : t.latch.sclIn = true := by simp [State.sclIn, hs, h1]
  rw [if_pos h2] at hp
  exact ⟨_, h.one hr hop hq hp (after_latch t) hb⟩

/-- The sample of the data line. -/
theorem Run.sample {r : ByteRole} (h : Run k s t) (hr : s.env.noReset) (hop : t.curOp.isSome = true)
    (hq : .byte r .ackHold ≠ t.ustep) (hs : t.sdaOut = true)
    (hp : primitive t.latch
      = .next { t.latch with ackLevel := t.latch.sdaIn, ustep := .byte r .ackHold })
    (hb : k = 0 ∨ t.atByteHead = false := by simp [State.atByteHead]) :
    ∃ a e, Run (k + 1) s { t with ackLevel := a, ustep := .byte r .ackHold, rsp := none, env := e }
      ∧ (s.env.expander = none → a = (s.env.ahead k).sda) := by
  refine ⟨_, _, h.one hr hop hq hp (after_latch t) hb, fun hn => ?_⟩
  have hn' := (h.after.trans (after_latch t)).lone hn
  have h0 := h.after.ahead 0
  rw [Nat.zero_add] at h0
  rw [State.sdaIn, Env.sdaEnv_of_none hn', latch_sdaOut, hs, Bool.true_and, ← h0]
  rfl

end OneTick

/-! ### The shared bodies -/

variable {s : State} {i : Instr} {r : ByteRole}

/-- One data clock (R108): the top bit of `SHREG` on the data line, one clock, shift and count. -/
theorem run_bit (hop : s.curOp = some i) (hu : s.ustep = .byte r .putBit) (hr : s.env.noReset) :
    ∃ e, Run 5 s { s with
      sdaOut := s.shreg.getLsbD 7
      sclOut := false
      shreg := s.shreg <<< 1
      bitcnt := s.bitcnt + 1
      ustep := .byte r (if (s.bitcnt + 1).toNat < 8 then .putBit else .ackRelease)
      timer := 0
      rsp := none
      spent := { s.spent with half := s.spent.half + 2 }
      env := e } := by
  have hs : s.curOp.isSome = true := by simp [hop]
  obtain ⟨e1, h1⟩ := (Run.refl s).sda (b := s.shreg.getLsbD 7) (q := .byte r .lowHalf) hr hs
    (by simp [hu]) (by simp [primitive, hop, hu, byteStep])
  obtain ⟨e2, h2⟩ := h1.half (q := .byte r .raise) hr hs (by simp) (by simp [primitive, hop, byteStep])
  obtain ⟨e3, h3⟩ := h2.scl (b := true) (q := .byte r .highHalf) hr hs (by simp)
    (by simp [primitive, hop, byteStep])
  obtain ⟨e4, h4⟩ := h3.half (q := .byte r .fall) hr hs (by simp) (by simp [primitive, hop, byteStep])
  refine ⟨_, h4.one hr hs ?_ ?_ (after_drive _ (s.shreg.getLsbD 7) false)⟩
  · split <;> simp
  · simp only [primitive, latch_curOp, latch_ustep, hop, byteStep]
    rfl

/-- The state after `k` data clocks of the byte `v`, at least one. -/
def midByte (r : ByteRole) (v : Byte) (k : Nat) (s : State) (e : Env) : State :=
  { s with
      sdaOut := v.getLsbD (8 - k)
      sclOut := false
      shreg := v <<< k
      bitcnt := BitVec.ofNat 4 k
      ustep := .byte r (if k < 8 then .putBit else .ackRelease)
      timer := 0
      rsp := none
      spent := { s.spent with half := s.spent.half + 2 * k }
      env := e }

theorem notHead_of_bitcnt {s : State} (h : s.bitcnt ≠ 0) : s.atByteHead = false := by
  rw [State.atByteHead, decide_eq_false h, Bool.and_false, Bool.false_and]

/-- Between two data clocks no byte begins. -/
theorem midByte_notHead (r : ByteRole) (v : Byte) {k : Nat} (s : State) (e : Env) (h1 : 1 ≤ k)
    (h8 : k ≤ 8) : (midByte r v k s e).atByteHead = false := by
  have h : BitVec.ofNat 4 k ≠ 0 := fun h => by
    have := congrArg BitVec.toNat h
    simp at this
    omega
  exact notHead_of_bitcnt h

/-- The eight data clocks (R106, R108): the bits of the byte, most significant first. -/
theorem run_bits (hop : s.curOp = some i) (hr : s.env.noReset) (v : Byte) :
    ∀ k, k < 8 → ∃ e, Run (5 * (k + 1)) (beginByte r v s) (midByte r v (k + 1) s e) := by
  intro k
  induction k with
  | zero =>
    intro _
    exact run_bit (s := beginByte r v s) (r := r) hop rfl hr
  | succ k ih =>
    intro hk
    obtain ⟨e, h⟩ := ih (by omega)
    obtain ⟨e', h'⟩ := run_bit (s := midByte r v (k + 1) s e) (r := r) hop
      (by simp [midByte, show k < 7 by omega]) (h.after.noReset hr)
    refine ⟨e', ?_⟩
    rw [show 5 * (k + 1 + 1) = 5 * (k + 1) + 5 by omega]
    convert h.trans h' (.inr (midByte_notHead r v s e (by omega) (by omega))) using 1
    have h8 : (BitVec.ofNat 4 (k + 1) + 1 : BitVec 4) = BitVec.ofNat 4 (k + 1 + 1) := by
      simp [BitVec.ofNat_add]
    have h9 : (BitVec.ofNat 4 (k + 1 + 1)).toNat = k + 1 + 1 := by simp; omega
    have h10 : (v <<< (k + 1)).getLsbD 7 = v.getLsbD (8 - (k + 1 + 1)) := by
      rw [BitVec.getLsbD_shiftLeft]
      simp [show ¬(7 < k + 1) by omega, show 7 - (k + 1) = 8 - (k + 1 + 1) by omega]
    simp only [midByte, h8, h9, h10, BitVec.shiftLeft_add v (k + 1) 1, Nat.mul_add, Nat.mul_one,
      Nat.add_assoc]

/-- A byte up to its last step (R106, R109, R110): it is sent, the clock has been waited for, `a` is the
level sampled, and the lines are about to be parked. With no device reacting on the bus, `a` is what
the scripted devices leave of the data line at the sample. -/
theorem run_byte (hop : s.curOp = some i) (hr : s.env.noReset) (v : Byte)
    (hc : (s.env.ahead 43).scl = true) :
    ∃ a e, Run 47 (beginByte r v s)
        { s with
          sdaOut := true, sclOut := false, shreg := 0, bitcnt := 8, ustep := .byte r .parkSda
          ackLevel := a, timer := 0, rsp := none
          spent := { s.spent with half := s.spent.half + 18 }, env := e }
      ∧ (s.env.expander = none → a = (s.env.ahead 44).sda) := by
  have hs : s.curOp.isSome = true := by simp [hop]
  obtain ⟨e0, h0⟩ := run_bits (r := r) hop hr v 7 (by omega)
  have hm : midByte r v (7 + 1) s e0 = { s with
      sdaOut := v.getLsbD 0, sclOut := false, shreg := 0, bitcnt := 8, ustep := .byte r .ackRelease
      timer := 0, rsp := none
      spent := { s.spent with half := s.spent.half + 16 }, env := e0 } := by
    simp [midByte, BitVec.shiftLeft_eq_zero]
  rw [hm] at h0
  obtain ⟨e1, h1⟩ := h0.sda (b := true) (q := .byte r .ackLow) hr hs (by simp)
    (by simp [primitive, hop, byteStep])
  obtain ⟨e2, h2⟩ := h1.half (q := .byte r .ackRaise) hr hs (by simp)
    (by simp [primitive, hop, byteStep])
  obtain ⟨e3, h3⟩ := h2.scl (b := true) (q := .byte r .ackWait) hr hs (by simp)
    (by simp [primitive, hop, byteStep])
  obtain ⟨e4, h4⟩ := h3.wait (q := .byte r .ackSample) hr hs (by simp) rfl hc
    (by simp [primitive, hop, byteStep])
  obtain ⟨a, e5, h5, ha⟩ := h4.sample (r := r) hr hs (by simp) rfl
    (by simp [primitive, hop, byteStep])
  obtain ⟨e6, h6⟩ := h5.half (q := .byte r .parkScl) hr hs (by simp)
    (by simp [primitive, hop, byteStep])
  obtain ⟨e7, h7⟩ := h6.scl (b := false) (q := .byte r .parkSda) hr hs (by simp)
    (by simp [primitive, hop, byteStep])
  exact ⟨a, e7, h7, ha⟩

/-- The last step of a byte (R110): the data line is parked and the result goes to whatever ran the
byte. -/
theorem tick_parkSda (hop : s.curOp = some i) (hu : s.ustep = .byte r .parkSda)
    (h0 : (s.env.ahead 0).rst = false) : tick s = afterByte i r (s.latch.setSda false) := by
  rw [tick_of_low h0]
  simp [primitive, hop, hu, byteStep]

/-- A start condition up to its last step (R102). -/
theorem run_start (hop : s.curOp = some i) (hu : s.ustep = .start .fallSda) (hr : s.env.noReset) :
    ∃ e, Run 3 s { s with
      sdaOut := false, sclOut := false, ustep := .start .holdScl, timer := 0, rsp := none
      spent := { s.spent with half := s.spent.half + 1 }, env := e } := by
  have hs : s.curOp.isSome = true := by simp [hop]
  obtain ⟨e1, h1⟩ := (Run.refl s).sda (b := false) (q := .start .holdSda) hr hs (by simp [hu])
    (by simp [primitive, hop, hu, startStep])
  obtain ⟨e2, h2⟩ := h1.half (q := .start .fallScl) hr hs (by simp)
    (by simp [primitive, hop, startStep])
  obtain ⟨e3, h3⟩ := h2.scl (b := false) (q := .start .holdScl) hr hs (by simp)
    (by simp [primitive, hop, startStep])
  exact ⟨e3, h3⟩

theorem tick_holdScl (hop : s.curOp = some i) (hu : s.ustep = .start .holdScl)
    (h0 : (s.env.ahead 0).rst = false) : tick s = afterStart i (s.latch.delay .half) := by
  rw [tick_of_low h0]
  simp [primitive, hop, hu, startStep]

/-- A stop condition up to its last step, with the clock free at the step that reads it (R104). -/
theorem run_stop (hop : s.curOp = some i) (hu : s.ustep = .stop .fallSda) (hr : s.env.noReset)
    (hc : (s.env.ahead 3).scl = true) :
    ∃ e, Run 6 s { s with
      sdaOut := true, sclOut := true, ustep := .stop .freeHold, timer := 0, rsp := none
      spent := { s.spent with half := s.spent.half + 2 }, env := e } := by
  have hs : s.curOp.isSome = true := by simp [hop]
  obtain ⟨e1, h1⟩ := (Run.refl s).sda (b := false) (q := .stop .lowHold) hr hs (by simp [hu])
    (by simp [primitive, hop, hu, stopStep])
  obtain ⟨e2, h2⟩ := h1.half (q := .stop .raise) hr hs (by simp) (by simp [primitive, hop, stopStep])
  obtain ⟨e3, h3⟩ := h2.scl (b := true) (q := .stop .waitScl) hr hs (by simp)
    (by simp [primitive, hop, stopStep])
  obtain ⟨e4, h4⟩ := h3.wait (q := .stop .highHold) hr hs (by simp) rfl hc
    (by simp [primitive, hop, stopStep])
  obtain ⟨e5, h5⟩ := h4.half (q := .stop .riseSda) hr hs (by simp)
    (by simp [primitive, hop, stopStep])
  obtain ⟨e6, h6⟩ := h5.sda (b := true) (q := .stop .freeHold) hr hs (by simp)
    (by simp [primitive, hop, stopStep])
  exact ⟨e6, h6⟩

theorem tick_freeHold (hop : s.curOp = some i) (hu : s.ustep = .stop .freeHold)
    (h0 : (s.env.ahead 0).rst = false) : tick s = afterStop i (s.latch.delay .half) := by
  rw [tick_of_low h0]
  simp [primitive, hop, hu, stopStep]

theorem tick_hook (hop : s.curOp = some i) (hu : s.ustep = .hook)
    (h0 : (s.env.ahead 0).rst = false) : tick s = hookStep i s.latch := by
  rw [tick_of_low h0]
  simp [primitive, hop, hu]

/-- A whole stop condition ends the command it closes (R104, R131, R146). -/
theorem runSteps_stop (hop : s.curOp = some i) (hu : s.ustep = .stop .fallSda) (hr : s.env.noReset)
    (hc : (s.env.ahead 3).scl = true) (n : Nat) :
    ∃ e, After 7 s.env e ∧ runSteps (n + 7) s = .next { s with
      sdaOut := true, sclOut := true, isOpen := false, curOp := none, ustep := .idle, timer := 0
      rsp := some { st := if closes i then statusOf s.lastok else .ok, data := 0 }
      spent := { s.spent with half := s.spent.half + 3 }, env := e } := by
  obtain ⟨e, h⟩ := run_stop hop hu hr hc
  have ht := tick_freeHold (s := { s with
      sdaOut := true, sclOut := true, ustep := .stop .freeHold, timer := 0, rsp := none
      spent := { s.spent with half := s.spent.half + 2 }, env := e }) hop rfl (h.after.noReset hr 0)
  refine ⟨_, h.after.trans (after_latch _), ?_⟩
  rw [show n + 7 = 6 + (n + 1) by omega, runSteps_of_reaches h.reaches, runSteps_of_end n ht rfl]
  rfl

end Sys2Proof.Machine
end

