-- ==== Sys2Proof/Laws/Frame.lean ====
section
/-! SUPPORT. What no step of a running command changes: the settings, the buffer, the host. -/

namespace Sys2Proof.Machine

/-- `ADDR`, `BL`, `INITD`, `TXLEN`, `TXBUF` and the host are the same. -/
structure Keeps (s t : State) : Prop where
  addr : t.addr = s.addr
  bl : t.bl = s.bl
  initd : t.initd = s.initd
  txlen : t.txlen = s.txlen
  txbuf : t.txbuf = s.txbuf
  host : t.host = s.host

theorem Keeps.refl (s : State) : Keeps s s := ⟨rfl, rfl, rfl, rfl, rfl, rfl⟩

theorem Keeps.trans {s t u : State} (h : Keeps s t) (h' : Keeps t u) : Keeps s u :=
  ⟨h'.addr.trans h.addr, h'.bl.trans h.bl, h'.initd.trans h.initd, h'.txlen.trans h.txlen,
   h'.txbuf.trans h.txbuf, h'.host.trans h.host⟩

variable {i : Instr} {s t : State}

theorem byteCount_of_txlen {s t : State} (h : t.txlen = s.txlen) (i : Instr) :
    byteCount t i = byteCount s i := by cases i <;> simp [byteCount, h]

theorem loopDone_keeps (i : Instr) (ok : Bool) (s : State) : Keeps s (loopDone i ok s) := by
  unfold loopDone; split <;> exact ⟨rfl, rfl, rfl, rfl, rfl, rfl⟩

theorem loadByte_keeps (h : loadByte s = .next t) : Keeps s t := by
  unfold loadByte at h
  split at h
  · cases h; exact ⟨rfl, rfl, rfl, rfl, rfl, rfl⟩
  · cases h

theorem beginLoop_keeps (h : beginLoop i s = .next t) : Keeps s t := by
  unfold beginLoop at h
  dsimp only at h
  refine Keeps.trans (t := { s with sentcnt := 0, byteidx := 0 }) ⟨rfl, rfl, rfl, rfl, rfl, rfl⟩ ?_
  split at h
  · cases h; exact loopDone_keeps _ _ _
  · exact loadByte_keeps h

theorem nextByte_keeps (h : nextByte i s = .next t) : Keeps s t := by
  unfold nextByte at h
  split at h
  · exact Keeps.trans (t := { s with byteidx := s.byteidx + 1 }) ⟨rfl, rfl, rfl, rfl, rfl, rfl⟩
      (loadByte_keeps h)
  · cases h; exact loopDone_keeps _ _ _

theorem afterByte_keeps {r : ByteRole} (h : afterByte i r s = .next t) : Keeps s t := by
  refine Keeps.trans (t := { s with lastok := !s.ackLevel }) ⟨rfl, rfl, rfl, rfl, rfl, rfl⟩ ?_
  cases r with
  | single => cases h; exact ⟨rfl, rfl, rfl, rfl, rfl, rfl⟩
  | frame =>
    simp only [afterByte, afterFrame] at h
    split at h
    · split at h
      · exact beginLoop_keeps h
      · cases h; exact loopDone_keeps _ _ _
    · cases h; exact ⟨rfl, rfl, rfl, rfl, rfl, rfl⟩
  | data =>
    simp only [afterByte, afterData] at h
    split at h
    · split at h
      · cases h; exact ⟨rfl, rfl, rfl, rfl, rfl, rfl⟩
      · exact Keeps.trans (t := { s with lastok := !s.ackLevel, sentcnt := s.sentcnt + 1 })
          ⟨rfl, rfl, rfl, rfl, rfl, rfl⟩ (nextByte_keeps h)
    · cases h; exact loopDone_keeps _ _ _

theorem primitive_keeps (h : primitive s = .next t) : Keeps s t := by
  unfold primitive at h
  split at h
  · cases h; exact Keeps.refl _
  · split at h
    · cases h; exact Keeps.refl _
    · next p _ =>
      cases p
      case holdScl =>
        simp only [startStep, afterStart] at h
        split at h <;> cases h <;> exact ⟨rfl, rfl, rfl, rfl, rfl, rfl⟩
      all_goals cases h; exact ⟨rfl, rfl, rfl, rfl, rfl, rfl⟩
    · next r p _ =>
      cases p
      case parkSda => exact Keeps.trans (t := s.setSda false) ⟨rfl, rfl, rfl, rfl, rfl, rfl⟩ (afterByte_keeps h)
      case ackWait =>
        simp only [byteStep] at h
        split at h <;> cases h <;> exact ⟨rfl, rfl, rfl, rfl, rfl, rfl⟩
      all_goals cases h; exact ⟨rfl, rfl, rfl, rfl, rfl, rfl⟩
    · exact Keeps.trans (t := s.delay _) ⟨rfl, rfl, rfl, rfl, rfl, rfl⟩ (nextByte_keeps h)
    · next p _ =>
      cases p
      case waitScl =>
        simp only [stopStep] at h
        split at h <;> cases h <;> exact ⟨rfl, rfl, rfl, rfl, rfl, rfl⟩
      all_goals cases h; exact ⟨rfl, rfl, rfl, rfl, rfl, rfl⟩

/-- A step with `rst` low changes none of them. -/
theorem tick_keeps (hr : (s.env.ahead 0).rst = false) (h : tick s = .next t) : Keeps s t := by
  rw [tick_of_low hr] at h
  exact Keeps.trans (t := s.latch) ⟨rfl, rfl, rfl, rfl, rfl, rfl⟩ (primitive_keeps h)

/-! ### The environment moves on by one step -/

theorem loadByte_env (h : loadByte s = .next t) : t.env = s.env := by
  unfold loadByte at h
  split at h
  · cases h; rfl
  · cases h

theorem loopDone_env (i : Instr) (ok : Bool) (s : State) : (loopDone i ok s).env = s.env := by
  unfold loopDone; split <;> rfl

theorem beginLoop_env (h : beginLoop i s = .next t) : t.env = s.env := by
  unfold beginLoop at h
  dsimp only at h
  split at h
  · cases h; exact loopDone_env _ _ _
  · exact (loadByte_env h).trans rfl

theorem nextByte_env (h : nextByte i s = .next t) : t.env = s.env := by
  unfold nextByte at h
  split at h
  · exact (loadByte_env h).trans rfl
  · cases h; exact loopDone_env _ _ _

theorem afterByte_env {r : ByteRole} (h : afterByte i r s = .next t) : t.env = s.env := by
  cases r with
  | single => cases h; rfl
  | frame =>
    simp only [afterByte, afterFrame] at h
    split at h
    · split at h
      · exact (beginLoop_env h).trans rfl
      · cases h; exact loopDone_env _ _ _
    · cases h; rfl
  | data =>
    simp only [afterByte, afterData] at h
    split at h
    · split at h
      · cases h; rfl
      · exact (nextByte_env h).trans rfl
    · cases h; exact loopDone_env _ _ _

/-- A primitive leaves the environment alone, but for what the devices see. -/
theorem primitive_env (h : primitive s = .next t) : t.env = s.env ∨ ∃ a b, t.env = s.env.observe a b := by
  unfold primitive at h
  split at h
  · cases h; exact .inl rfl
  · split at h
    · cases h; exact .inl rfl
    · next p _ =>
      cases p
      case holdScl =>
        simp only [startStep, afterStart] at h
        split at h <;> cases h <;> exact .inl rfl
      case holdSda => cases h; exact .inl rfl
      all_goals cases h; exact .inr ⟨_, _, rfl⟩
    · next r p _ =>
      cases p
      case parkSda => exact .inr ⟨_, _, (afterByte_env h).trans rfl⟩
      case ackWait =>
        simp only [byteStep] at h
        split at h <;> cases h <;> exact .inl rfl
      case lowHalf => cases h; exact .inl rfl
      case highHalf => cases h; exact .inl rfl
      case ackLow => cases h; exact .inl rfl
      case ackSample => cases h; exact .inl rfl
      case ackHold => cases h; exact .inl rfl
      all_goals cases h; exact .inr ⟨_, _, rfl⟩
    · exact .inl ((nextByte_env h).trans rfl)
    · next p _ =>
      cases p
      case waitScl =>
        simp only [stopStep] at h
        split at h <;> cases h <;> exact .inl rfl
      case lowHold => cases h; exact .inl rfl
      case highHold => cases h; exact .inl rfl
      case freeHold => cases h; exact .inl rfl
      all_goals cases h; exact .inr ⟨_, _, rfl⟩

/-- A step moves the inputs on by one, and no device appears. -/
theorem tick_after (h : tick s = .next t) : After 1 s.env t.env := by
  rcases clocked_cases s primitive with hc | hc
  · rw [tick, hc] at h
    cases h
    exact (after_latch s).observe _ _
  · rw [tick, hc] at h
    rcases primitive_env h with he | ⟨a, b, he⟩ <;> rw [he]
    · exact after_latch s
    · exact (after_latch s).observe a b

/-! ### Whole runs -/

/-- What every step of a running command with `rst` low keeps, a run of the command keeps. -/
theorem runSteps_induction {P : State → Prop}
    (hP : ∀ {s t : State}, P s → s.curOp.isSome = true → s.env.noReset → tick s = .next t → P t) :
    ∀ (n : Nat) {s t : State}, P s → s.curOp.isSome = true → s.env.noReset →
      runSteps n s = .next t → P t ∧ t.env.noReset := by
  intro n
  induction n with
  | zero => intro s t hs _ hr h; cases h; exact ⟨hs, hr⟩
  | succ n ih =>
    intro s t hs hc hr h
    rw [runSteps] at h
    cases hk : tick s with
    | next u =>
      rw [hk, andThen_next] at h
      have hu := hP hs hc hr hk
      have hru := (tick_after hk).noReset hr
      split at h
      · next hg =>
        simp only [Bool.and_eq_true] at hg
        exact ih hu hg.1 hru h
      · cases h; exact ⟨hu, hru⟩
    | fault r => rw [hk] at h; cases h
    | refused r => rw [hk] at h; cases h

/-- A run of the command with `rst` low changes no setting, no byte of the buffer and nothing of the
host. -/
theorem runSteps_keeps {n : Nat} (hop : s.curOp.isSome = true) (hr : s.env.noReset)
    (h : runSteps n s = .next t) : Keeps s t :=
  (runSteps_induction (P := Keeps s) (fun hk _ hr h => hk.trans (tick_keeps (hr 0) h)) n
    (Keeps.refl s) hop hr h).1

/-! ### A command over several steps of the machine -/

theorem hostReads_of_none (h : s.rsp = none) : s.hostReads = s := by simp [State.hostReads, h]

/-- A step on a command that has not responded runs it on and touches nothing else. -/
theorem step_of_running (hop : s.curOp = some i) (h : s.rsp = none) : step s = runCommand s := by
  simp [step, machineStep, hostReads_of_none h, hop]

/-- What holds when a command has been accepted and every one of its primitives keeps holds wherever the
command stands later, waits included. -/
theorem Carried.of_tick {P : State → Prop}
    (h0 : ∀ {t : State}, exec i s = .next t → P t ∧ t.env.noReset)
    (hP : ∀ {u v : State}, P u → u.curOp.isSome = true → u.env.noReset → tick u = .next v → P v)
    (h : Carried i s t) : P t ∧ t.env.noReset := by
  induction h with
  | accepted h => exact h0 h
  | goesOn _ hb hn hs ih =>
    obtain ⟨j, hj⟩ := Option.isSome_iff_exists.mp hb
    rw [step_of_running hj hn] at hs
    exact runSteps_induction hP _ ih.1 hb ih.2 hs

end Sys2Proof.Machine
end

