-- ==== Sys2Proof/Laws/Memory.lean ====
section
/-! SUPPORT. The transmit buffer: read after write, and that every write keeps the canonical form. -/

namespace Sys2Proof.Machine.Memory

/-- A canonical list is canonical from any lower bound below its own. -/
theorem wfFrom_mono {m : Memory} {j k : Nat} (hjk : j ≤ k) (h : m.wfFrom k = true) :
    m.wfFrom j = true := by
  cases m with
  | nil => rfl
  | cons p rest =>
    simp only [wfFrom, Bool.and_eq_true, decide_eq_true_eq] at h ⊢
    exact ⟨⟨⟨by omega, h.1.1.2⟩, h.1.2⟩, h.2⟩

/-- An index below everything listed reads as 0x00. -/
theorem get_of_lt {m : Memory} : ∀ {i k : Nat}, m.wfFrom k = true → i < k → m.get i = 0 := by
  induction m with
  | nil => intros; rfl
  | cons p rest ih =>
    intro i k h hik
    simp only [wfFrom, Bool.and_eq_true, decide_eq_true_eq] at h
    have hne : p.1 ≠ i := by omega
    simp only [get, if_neg hne]
    exact ih h.2 (by omega)

theorem erase_wfFrom {m : Memory} : ∀ {i k : Nat}, m.wfFrom k = true → (m.erase i).wfFrom k = true := by
  induction m with
  | nil => intros; rfl
  | cons p rest ih =>
    intro i k h
    have h' := h
    simp only [wfFrom, Bool.and_eq_true, decide_eq_true_eq] at h
    by_cases hp : p.1 = i
    · simpa only [erase, if_pos hp] using wfFrom_mono (by omega) h.2
    · simp only [erase, if_neg hp, wfFrom, Bool.and_eq_true, decide_eq_true_eq]
      exact ⟨h.1, ih h.2⟩

/-- Erasing an index reads as 0x00 there and leaves every other index alone. -/
theorem get_erase {m : Memory} : ∀ {k : Nat} (i j : Nat), m.wfFrom k = true →
    (m.erase i).get j = if i = j then 0 else m.get j := by
  induction m with
  | nil => intro k i j _; simp [erase, get]
  | cons p rest ih =>
    intro k i j h
    simp only [wfFrom, Bool.and_eq_true, decide_eq_true_eq] at h
    by_cases hp : p.1 = i
    · by_cases hij : i = j
      · subst hij; subst hp
        simpa [erase] using get_of_lt h.2 (Nat.lt_succ_self _)
      · have : p.1 ≠ j := by omega
        simp [erase, hp, hij, get]
    · by_cases hij : i = j
      · subst hij
        simpa [erase, hp, get] using ih i i h.2
      · simp only [erase, if_neg hp, get, ih i j h.2, if_neg hij]

/-- Inserting where nothing is listed: the new byte there, every other index alone. -/
theorem get_insert {m : Memory} : ∀ {k : Nat} (i j : Nat) (v : Byte), m.wfFrom k = true →
    (m.erase i = m) → ((m.insert i v).get j = if i = j then v else m.get j) := by
  induction m with
  | nil => intro k i j v _ _; simp [insert, get]
  | cons p rest ih =>
    intro k i j v h he
    simp only [wfFrom, Bool.and_eq_true, decide_eq_true_eq] at h
    have hp : p.1 ≠ i := by
      intro hp
      have := congrArg List.length he
      simp [erase, hp] at this
    simp only [erase, if_neg hp, List.cons.injEq, true_and] at he
    by_cases hip : i < p.1
    · simp [insert, hip, get]
    · simp only [insert, if_neg hip, get, ih i j v h.2 he]
      by_cases hpj : p.1 = j
      · have : i ≠ j := by omega
        simp [hpj, this]
      · simp [hpj]

theorem insert_wfFrom {m : Memory} : ∀ {k i : Nat} {v : Byte}, m.wfFrom k = true → m.erase i = m →
    k ≤ i → i < Config.txbufDepth → v ≠ 0 → (m.insert i v).wfFrom k = true := by
  induction m with
  | nil =>
    intro k i v _ _ hk hi hv
    simp only [insert, wfFrom, Bool.and_eq_true, decide_eq_true_eq]
    exact ⟨⟨⟨hk, hi⟩, hv⟩, trivial⟩
  | cons p rest ih =>
    intro k i v h he hk hi hv
    have hp : p.1 ≠ i := by
      intro hp
      have := congrArg List.length he
      simp [erase, hp] at this
    simp only [erase, if_neg hp, List.cons.injEq, true_and] at he
    simp only [wfFrom, Bool.and_eq_true, decide_eq_true_eq] at h
    by_cases hip : i < p.1
    · simp only [insert, if_pos hip, wfFrom, Bool.and_eq_true, decide_eq_true_eq]
      exact ⟨⟨⟨hk, hi⟩, hv⟩, ⟨⟨by omega, h.1.1.2⟩, h.1.2⟩, h.2⟩
    · simp only [insert, if_neg hip, wfFrom, Bool.and_eq_true, decide_eq_true_eq]
      exact ⟨h.1, ih h.2 he (by omega) hi hv⟩

/-- Erasing what is not there changes nothing. -/
theorem erase_erase {m : Memory} : ∀ {k i : Nat}, m.wfFrom k = true → (m.erase i).erase i = m.erase i := by
  induction m with
  | nil => intros; rfl
  | cons p rest ih =>
    intro k i h
    simp only [wfFrom, Bool.and_eq_true, decide_eq_true_eq] at h
    by_cases hp : p.1 = i
    · simp only [erase, if_pos hp]
      subst hp
      clear ih
      have key : ∀ (l : Memory) (n : Nat), l.wfFrom (n + 1) = true → Memory.erase l n = l := by
        intro l
        induction l with
        | nil => intros; rfl
        | cons q qs ihq =>
          intro n hq
          simp only [wfFrom, Bool.and_eq_true, decide_eq_true_eq] at hq
          have hne : q.1 ≠ n := by omega
          simp only [erase, if_neg hne]
          rw [ihq n (wfFrom_mono (by omega) hq.2)]
      exact key rest p.1 h.2
    · simp only [erase, if_neg hp, ih h.2]

/-- A write keeps the canonical form. -/
theorem write_wf {m : Memory} {i : Nat} (v : Byte) (h : m.wf = true) (hi : i < Config.txbufDepth) :
    (m.write i v).wf = true := by
  unfold write
  split
  · exact erase_wfFrom h
  · next hv => exact insert_wfFrom (erase_wfFrom h) (erase_erase h) (Nat.zero_le _) hi hv

/-- Read after write: the byte written there, every other index alone. -/
theorem get_write {m : Memory} (i j : Nat) (v : Byte) (h : m.wf = true) :
    (m.write i v).get j = if i = j then v else m.get j := by
  unfold write
  split
  · next hv => rw [get_erase i j h, hv]
  · rw [get_insert i j v (erase_wfFrom h) (erase_erase h), get_erase i j h]
    split <;> rfl

/-- Storing a list keeps the canonical form. -/
theorem store_wf (l : List Byte) : ∀ {m : Memory} {i : Nat}, m.wf = true →
    i + l.length ≤ Config.txbufDepth → (m.store i l).wf = true := by
  induction l with
  | nil => intro m i h _; exact h
  | cons v rest ih =>
    intro m i h hi
    simp only [List.length_cons] at hi
    exact ih (write_wf v h (by omega)) (by omega)

/-- After storing a list, each of its indices reads its byte and every other index is alone. -/
theorem get_store (l : List Byte) : ∀ {m : Memory} {i : Nat} (j : Nat), m.wf = true →
    i + l.length ≤ Config.txbufDepth →
    (m.store i l).get j = if i ≤ j ∧ j < i + l.length then l.getD (j - i) 0 else m.get j := by
  induction l with
  | nil =>
    intro m i j _ _
    simp [store]
  | cons v rest ih =>
    intro m i j h hi
    simp only [List.length_cons] at hi
    rw [store, ih j (write_wf v h (by omega)) (by omega), get_write i j v h, List.length_cons]
    by_cases h1 : i + 1 ≤ j ∧ j < i + 1 + rest.length
    · have h2 : i ≤ j ∧ j < i + (rest.length + 1) := by omega
      rw [if_pos h1, if_pos h2, show j - i = (j - (i + 1)) + 1 by omega, List.getD_cons_succ]
    · by_cases h3 : i = j
      · subst h3
        have h2 : i ≤ i ∧ i < i + (rest.length + 1) := by omega
        simp [h2]
      · have h2 : ¬(i ≤ j ∧ j < i + (rest.length + 1)) := by omega
        rw [if_neg h1, if_neg h2, if_neg h3]

/-- An entry that exists can be read. -/
theorem read_of_lt {m : Memory} {i : Nat} (hi : i < Config.txbufDepth) : m.read i = some (m.get i) := by
  simp [read, hi]

end Sys2Proof.Machine.Memory
end

