-- ==== Sys2Proof/Laws/Invariant.lean ====
section
/-! SUPPORT. The invariant through the steps of a running command. -/

namespace Sys2Proof.Machine

/-- What the invariant says of a running command `i`, its position apart. -/
structure Good (i : Instr) (s : State) : Prop where
  op : s.curOp = some i
  wf : i.wf = true
  needs : i.needsInit = true
  initd : s.initd = true
  buf : s.txbuf.wf = true
  timer : s.timer = 0
  bits : s.bitcnt.toNat ≤ 8
  idx : s.byteidx.toNat ≤ 4
  len : s.txlen.toNat ≤ 5
  sent : s.sentcnt.toNat ≤ 5

/-- What it says of its position. -/
structure Placed (i : Instr) (s : State) : Prop where
  belongs : belongs i s.ustep = true
  loop : loopOk s i s.ustep = true
  bits : inDataClock s.ustep = true → s.bitcnt.toNat < 8
  lines : linesAt s.isOpen s.sdaOut s.sclOut s.ustep = true

variable {i : Instr} {s t : State}

theorem inv_of_running (g : Good i s) (p : Placed i s) : s.Inv := by
  refine ⟨g.buf, ?_, ?_, ?_, p.lines, g.timer⟩
  · simp only [State.countersOk, Bool.and_eq_true, decide_eq_true_eq, Bool.or_eq_true,
      Bool.not_eq_true']
    refine ⟨⟨⟨⟨g.bits, g.idx⟩, g.len⟩, g.sent⟩, ?_⟩
    cases h : inDataClock s.ustep
    · exact .inl rfl
    · exact .inr (p.bits h)
  · simp [State.controlOk, g.op, g.wf, g.needs, g.initd, p.belongs, p.loop]
  · simp [State.uninitOk, g.initd]

theorem running_of_inv (h : s.Inv) (hop : s.curOp = some i) : Good i s ∧ Placed i s := by
  obtain ⟨h1, h2, h3, h4, h5, h6⟩ := h
  simp only [State.countersOk, Bool.and_eq_true, decide_eq_true_eq, Bool.or_eq_true,
    Bool.not_eq_true'] at h2
  simp only [State.controlOk, hop, Bool.and_eq_true] at h3
  exact ⟨⟨hop, h3.1.1.1.1, h3.1.1.1.2, h3.1.1.2, h1, h6, h2.1.1.1.1, h2.1.1.1.2, h2.1.1.2, h2.1.2⟩,
    ⟨h3.1.2, h3.2, fun h => h2.2.resolve_left (by simp [h]), h5⟩⟩

theorem inv_finish (g : Good i s) (hl : linesAt s.isOpen s.sdaOut s.sclOut .idle = true) (st : Status)
    (d : Byte) : (s.finish st d).Inv := by
  refine ⟨g.buf, ?_, ?_, ?_, hl, g.timer⟩
  · simp [State.countersOk, State.finish, g.bits, g.idx, g.len, g.sent, inDataClock]
  · simp [State.controlOk, State.finish]
  · simp [State.uninitOk, State.finish, g.initd]

theorem byteCount_le (g : Good i s) : (byteCount s i).toNat ≤ 5 := by
  have h := g.wf
  have h' := g.len
  cases i <;> simp_all [byteCount, Instr.wf, legalCount]

theorem loopDone_inv (g : Good i s) (h1 : s.sdaOut = false) (h2 : s.sclOut = false) (ok : Bool) :
    (loopDone i ok s).Inv := by
  unfold loopDone
  split
  · next hc =>
    exact inv_of_running (i := i) ⟨g.op, g.wf, g.needs, g.initd, g.buf, g.timer, g.bits, g.idx, g.len, g.sent⟩
      ⟨by simp [State.goto, belongs, hc], rfl, by simp [State.goto, inDataClock], rfl⟩
  · exact inv_finish g (by simp [linesAt, h1, h2]) _ _

theorem loadByte_inv (g : Good i s) (hl : loops i = true)
    (h3 : s.byteidx.toNat < (byteCount s i).toNat) (h4 : s.sentcnt.toNat = s.byteidx.toNat)
    (h : loadByte s = .next t) : t.Inv := by
  unfold loadByte at h
  split at h
  · cases h
    refine inv_of_running (i := i) ⟨g.op, g.wf, g.needs, g.initd, g.buf, g.timer, by simp [beginByte],
      g.idx, g.len, g.sent⟩ ⟨hl, ?_, by simp [beginByte], rfl⟩
    simp only [beginByte, loopOk, Bool.and_eq_true]
    exact ⟨decide_eq_true (h3.trans_eq (congrArg BitVec.toNat (byteCount_of_txlen rfl i))),
      decide_eq_true h4⟩
  · cases h

theorem beginLoop_inv (g : Good i s) (hl : loops i = true) (h1 : s.sdaOut = false)
    (h2 : s.sclOut = false) (h : beginLoop i s = .next t) : t.Inv := by
  unfold beginLoop at h
  dsimp only at h
  have g' : Good i { s with sentcnt := 0, byteidx := 0 } :=
    ⟨g.op, g.wf, g.needs, g.initd, g.buf, g.timer, g.bits, by simp, g.len, by simp⟩
  split at h
  · cases h; exact loopDone_inv g' h1 h2 _
  · next hn =>
    refine loadByte_inv g' hl ?_ rfl h
    exact Nat.pos_of_ne_zero fun h => hn (BitVec.eq_of_toNat_eq h)

theorem nextByte_inv (g : Good i s) (hl : loops i = true) (h1 : s.sdaOut = false)
    (h2 : s.sclOut = false) (h4 : s.sentcnt.toNat = s.byteidx.toNat + 1)
    (h : nextByte i s = .next t) : t.Inv := by
  have h5 := byteCount_le g
  unfold nextByte at h
  split at h
  · next hn =>
    have hb : (s.byteidx + 1).toNat = s.byteidx.toNat + 1 := by
      rw [BitVec.toNat_add]; simp; omega
    have hc : byteCount { s with byteidx := s.byteidx + 1 } i = byteCount s i := by cases i <;> rfl
    exact loadByte_inv (s := { s with byteidx := s.byteidx + 1 })
      ⟨g.op, g.wf, g.needs, g.initd, g.buf, g.timer, g.bits, by simp only [hb]; omega, g.len, g.sent⟩ hl
      (by simp only [hc, hb]; exact hn) (by simp only [hb]; exact h4) h
  · cases h; exact loopDone_inv g h1 h2 _

/-- The same, a step apart: fields a step can write are given anew. -/
theorem Good.step (g : Good i s) (hop : t.curOp = s.curOp) (hi : t.initd = s.initd)
    (hb : t.txbuf = s.txbuf) (ht : t.timer = 0) (hx : t.bitcnt.toNat ≤ 8) (hy : t.byteidx = s.byteidx)
    (hn : t.txlen = s.txlen) (hs : t.sentcnt = s.sentcnt) : Good i t :=
  ⟨hop.trans g.op, g.wf, g.needs, hi.trans g.initd, by rw [hb]; exact g.buf, ht, hx, by rw [hy]; exact g.idx,
   by rw [hn]; exact g.len, by rw [hs]; exact g.sent⟩

theorem afterByte_inv {r : ByteRole} (g : Good i s) (hr : belongs i (.byte r .parkSda) = true)
    (hl : loopOk s i (.byte r .parkSda) = true) (h1 : s.sdaOut = false) (h2 : s.sclOut = false)
    (h : afterByte i r s = .next t) : t.Inv := by
  have g' : Good i { s with lastok := !s.ackLevel } := g.step rfl rfl rfl g.timer g.bits rfl rfl rfl
  cases r with
  | single => cases h; exact inv_finish g' (by simp [linesAt, h1, h2]) _ _
  | frame =>
    simp only [afterByte, afterFrame] at h
    split at h
    · next hc =>
      have hloop : loops i = true := by cases i <;> simp_all [closes, loops]
      split at h
      · exact beginLoop_inv g' hloop h1 h2 h
      · cases h; exact loopDone_inv g' h1 h2 _
    · cases h; exact inv_finish g' (by simp [linesAt, h1, h2]) _ _
  | data =>
    have h5 := byteCount_le g
    have hloop : loops i = true := hr
    simp only [loopOk, Bool.and_eq_true, decide_eq_true_eq] at hl
    simp only [afterByte, afterData] at h
    split at h
    · have hs : (s.sentcnt + 1).toNat = s.byteidx.toNat + 1 := by
        rw [BitVec.toNat_add]; simp; omega
      have g2 : Good i { s with lastok := !s.ackLevel, sentcnt := s.sentcnt + 1 } :=
        ⟨g.op, g.wf, g.needs, g.initd, g.buf, g.timer, g.bits, g.idx, g.len, by simp only [hs]; omega⟩
      split at h
      · next hh =>
        cases h
        refine inv_of_running (i := i) (g2.step rfl rfl rfl g.timer g.bits rfl rfl rfl)
          ⟨hh, ?_, by simp [State.goto, inDataClock], by simp [State.goto, linesAt, h1, h2]⟩
        simp only [State.goto, loopOk, Bool.and_eq_true]
        exact ⟨decide_eq_true (hl.1.trans_eq (congrArg BitVec.toNat (byteCount_of_txlen rfl i))),
          decide_eq_true hs⟩
      · exact nextByte_inv g2 hloop h1 h2 hs h
    · cases h; exact loopDone_inv g' h1 h2 _

/-- The position of a byte loop is told by the registers alone. -/
theorem loopOk_congr (hn : t.txlen = s.txlen) (hy : t.byteidx = s.byteidx) (hs : t.sentcnt = s.sentcnt)
    (i : Instr) (u : UStep) : loopOk t i u = loopOk s i u := by
  unfold loopOk
  rw [hy, hs, byteCount_of_txlen hn]

theorem byte_placed {r : ByteRole} {p q : BytePos} (p0 : Placed i s) (hu : s.ustep = .byte r p)
    (ht : t.ustep = .byte r q) (hn : t.txlen = s.txlen) (hy : t.byteidx = s.byteidx)
    (hs : t.sentcnt = s.sentcnt) (hb : inDataClock (.byte r q) = true → t.bitcnt.toNat < 8)
    (hl : linesAt t.isOpen t.sdaOut t.sclOut (.byte r q) = true) : Placed i t := by
  refine ⟨?_, ?_, ht ▸ hb, ht ▸ hl⟩
  · have := p0.belongs
    rw [hu] at this; rw [ht]
    cases r <;> exact this
  · have := p0.loop
    rw [hu] at this; rw [ht, loopOk_congr hn hy hs]
    cases r <;> exact this

theorem byteStep_inv {r : ByteRole} {p : BytePos} (g : Good i s) (p0 : Placed i s)
    (hu : s.ustep = .byte r p) (h : byteStep i r p s = .next t) : t.Inv := by
  have hb := p0.bits
  have hl := p0.lines
  rw [hu] at hb hl
  cases p
  case parkSda =>
    have h1 := p0.belongs
    have h2 := p0.loop
    rw [hu] at h1 h2
    simp only [linesAt, Bool.and_eq_true, Bool.not_eq_true'] at hl
    exact afterByte_inv (g.step (t := s.setSda false) rfl rfl rfl g.timer g.bits rfl rfl rfl) h1
      ((loopOk_congr rfl rfl rfl i _).trans h2) rfl hl.2 h
  case fall =>
    cases h
    have h8 := hb rfl
    have h9 : (s.bitcnt + 1).toNat = s.bitcnt.toNat + 1 := by rw [BitVec.toNat_add]; simp; omega
    refine inv_of_running (g.step rfl rfl rfl g.timer (by
      simp only [afterBit, State.goto, setScl_bitcnt, h9]; omega) rfl rfl rfl) ?_
    refine byte_placed p0 hu (q := if (s.bitcnt + 1).toNat < 8 then .putBit else .ackRelease)
      rfl rfl rfl rfl ?_ ?_
    · split
      · next hlt => intro _; exact hlt
      · intro h; cases h
    · split <;> rfl
  case ackWait =>
    cases h
    split
    · exact inv_of_running (g.step rfl rfl rfl g.timer g.bits rfl rfl rfl)
        (byte_placed p0 hu rfl rfl rfl rfl (by simp [inDataClock]) hl)
    · exact inv_of_running g p0
  all_goals
    cases h
    refine inv_of_running (g.step rfl rfl rfl (by first | exact g.timer | rfl) g.bits rfl rfl rfl)
      (byte_placed p0 hu rfl rfl rfl rfl ?_ ?_)
    · exact hb
    · simp_all [linesAt, State.setSda, State.setScl, State.delay, State.goto]

theorem startStep_inv {p : StartPos} (g : Good i s) (p0 : Placed i s) (hu : s.ustep = .start p)
    (h : startStep i p s = .next t) : t.Inv := by
  have hl := p0.lines
  have hb := p0.belongs
  rw [hu] at hl hb
  cases p
  case holdScl =>
    simp only [linesAt, Bool.and_eq_true, Bool.not_eq_true'] at hl
    simp only [startStep, afterStart] at h
    split at h
    · next ha =>
      cases h
      refine inv_of_running (i := i) (g.step rfl rfl rfl rfl (by simp [beginByte]) rfl rfl rfl)
        ⟨ha, rfl, by simp [beginByte], rfl⟩
    · cases h
      refine inv_finish (g.step (t := { s.delay .half with isOpen := true }) rfl rfl rfl rfl g.bits
        rfl rfl rfl) ?_ _ _
      simp [linesAt, State.delay, hl.1, hl.2]
  all_goals
    cases h
    refine inv_of_running (g.step rfl rfl rfl (by first | exact g.timer | rfl) g.bits rfl rfl rfl)
      ⟨hb, rfl, by simp [State.goto, inDataClock], ?_⟩
    simp_all [linesAt, State.setSda, State.setScl, State.delay, State.goto]

theorem stopStep_inv {p : StopPos} (g : Good i s) (p0 : Placed i s) (hu : s.ustep = .stop p)
    (h : stopStep i p s = .next t) : t.Inv := by
  have hl := p0.lines
  have hb := p0.belongs
  rw [hu] at hl hb
  cases p
  case freeHold =>
    cases h
    refine inv_finish (g.step (t := { s.delay .half with isOpen := false }) rfl rfl rfl rfl g.bits
      rfl rfl rfl) ?_ _ _
    simp_all [linesAt, State.delay]
  case waitScl =>
    cases h
    split
    · exact inv_of_running (g.step rfl rfl rfl g.timer g.bits rfl rfl rfl)
        ⟨hb, rfl, by simp [State.goto, inDataClock], hl⟩
    · exact inv_of_running g p0
  all_goals
    cases h
    refine inv_of_running (g.step rfl rfl rfl (by first | exact g.timer | rfl) g.bits rfl rfl rfl)
      ⟨hb, rfl, by simp [State.goto, inDataClock], ?_⟩
    simp_all [linesAt, State.setSda, State.setScl, State.delay, State.goto]

theorem hookStep_inv (g : Good i s) (p0 : Placed i s) (hu : s.ustep = .hook)
    (h : hookStep i s = .next t) : t.Inv := by
  have hl := p0.lines
  have hb := p0.belongs
  have ho := p0.loop
  rw [hu] at hl hb ho
  simp only [linesAt, loopOk, Bool.and_eq_true, Bool.not_eq_true', decide_eq_true_eq] at hl ho
  have hloop : loops i = true := by cases i <;> simp_all [belongs, hooked, loops]
  exact nextByte_inv (g.step (t := s.delay _) rfl rfl rfl rfl g.bits rfl rfl rfl) hloop hl.1 hl.2 ho.2 h

/-- The invariant says nothing of the environment or the response. -/
theorem inv_congr {e : Env} {r : Option Response} (h : s.Inv) : State.Inv { s with env := e, rsp := r } := h

theorem inv_latch (h : s.Inv) : s.latch.Inv := h

/-- The reset column meets the invariant, whatever the agents outside the block hold. -/
theorem inv_resetBlock (s : State) : s.resetBlock.Inv := by
  refine ⟨rfl, rfl, rfl, rfl, rfl, rfl⟩

theorem primitive_inv (hs : s.Inv) (h : primitive s = .next t) : t.Inv := by
  unfold primitive at h
  split at h
  · cases h; exact hs
  · next i hop =>
    obtain ⟨g, p0⟩ := running_of_inv hs hop
    split at h
    · cases h; exact hs
    · exact startStep_inv g p0 ‹_› h
    · exact byteStep_inv g p0 ‹_› h
    · exact hookStep_inv g p0 ‹_› h
    · exact stopStep_inv g p0 ‹_› h

/-- One step of the running command keeps the invariant, whatever the inputs. -/
theorem tick_inv (hs : s.Inv) (h : tick s = .next t) : t.Inv := by
  rcases clocked_cases s primitive with hc | hc
  · rw [tick, hc] at h
    cases h
    exact inv_resetBlock _
  · rw [tick, hc] at h
    exact primitive_inv (inv_latch hs) h

/-- A run of the command keeps the invariant, whatever the inputs. -/
theorem runSteps_inv : ∀ (n : Nat) {s t : State}, s.Inv → runSteps n s = .next t → t.Inv := by
  intro n
  induction n with
  | zero => intro s t hs h; cases h; exact hs
  | succ n ih =>
    intro s t hs h
    rw [runSteps] at h
    cases hk : tick s with
    | next u =>
      rw [hk, andThen_next] at h
      split at h
      · exact ih (tick_inv hs hk) h
      · cases h; exact tick_inv hs hk
    | fault r => rw [hk] at h; cases h
    | refused r => rw [hk] at h; cases h

end Sys2Proof.Machine
end

