-- ==== Sys2Proof/Laws/Loop.lean ====
section
/-! SUPPORT. Whole bytes and the byte loop (R106, R112): what is left when the result of the last byte is
used, and how many steps it took. -/

namespace Sys2Proof.Machine

/-- Running on from `u`, if its command has not ended. -/
def runOn (m : Nat) (u : State) : Result := if u.curOp.isSome then runSteps m u else .next u

/-- `c` steps from `s`, which begin to send the bytes `l`, lead to `u`, where the command has ended or goes
on. -/
structure Leads (c : Nat) (l : List Byte) (s u : State) : Prop where
  run : ∀ m, runSteps (c + m) s = runOn m u
  after : After c s.env u.env
  begun : ∀ m, bytesBegun (c + m) s = l ++ bytesBegun m u

/-- A last tick after a run: the command ends there or moves to another position. -/
theorem Run.leads {k : Nat} {s t u : State} (h : Run k s t) (hr : s.env.noReset)
    (hp : primitive t.latch = .next u) (hu : u.curOp.isSome = true → u.ustep ≠ t.ustep)
    (ha : After 1 t.env u.env) (hb : k = 0 ∨ t.atByteHead = false := by simp [State.atByteHead]) :
    Leads (k + 1) (headOf s) s u := by
  have ht := (tick_of_low (h.after.noReset hr 0)).trans hp
  refine ⟨fun m => ?_, h.after.trans ha, fun m => ?_⟩
  · rw [show k + 1 + m = k + (m + 1) by omega, runSteps_of_reaches h.reaches, runSteps, ht, andThen_next,
      runOn]
    by_cases hc : u.curOp.isSome = true
    · simp [hc, hu hc]
    · simp [hc]
  · rw [show k + 1 + m = k + (m + 1) by omega, h.begun, bytesBegun_of_tick ht]
    rcases Nat.eq_zero_or_pos k with rfl | hk
    · obtain rfl : s = t := h.reaches
      simp
    · simp [headOf_of_not (hb.resolve_left (by omega)), show k ≠ 0 by omega]

/-- What has been led to goes on. -/
theorem Leads.trans {c d : Nat} {l l' : List Byte} {s u v : State} (h : Leads c l s u)
    (hu : u.curOp.isSome = true) (h' : Leads d l' u v) : Leads (c + d) (l ++ l') s v := by
  refine ⟨fun m => ?_, h.after.trans h'.after, fun m => ?_⟩
  · rw [show c + d + m = c + (d + m) by omega, h.run, runOn, if_pos hu, h'.run]
  · rw [show c + d + m = c + (d + m) by omega, h.begun, h'.begun, List.append_assoc]

/-- With no command running no byte begins. -/
theorem bytesBegun_idle {s : State} (h : s.curOp = none) (m : Nat) : bytesBegun m s = [] := by
  induction m generalizing s with
  | zero => rfl
  | succ m ih =>
    obtain ⟨t, ht, htc⟩ : ∃ t, tick s = .next t ∧ t.curOp = none := by
      rcases clocked_cases s primitive with hc | hc <;> rw [tick, hc]
      · exact ⟨_, rfl, rfl⟩
      · exact ⟨s.latch, by simp [primitive, h], h⟩
    rw [bytesBegun_of_tick ht, ih htc, headOf_of_not (by simp [State.atByteHead, h])]
    rfl

/-- All the bytes a command that has ended has sent. -/
theorem Leads.sent {c n : Nat} {l : List Byte} {s u : State} (h : Leads c l s u) (hu : u.curOp = none)
    (hn : c ≤ n) : bytesBegun n s = l := by
  obtain ⟨m, rfl⟩ := Nat.exists_eq_add_of_le hn
  rw [h.begun, bytesBegun_idle hu, List.append_nil]

/-- A command that has ended has answered. -/
theorem Leads.ended {c n : Nat} {l : List Byte} {s u : State} (h : Leads c l s u) (hu : u.curOp = none)
    (hn : c ≤ n) : runSteps n s = .next u := by
  obtain ⟨m, rfl⟩ := Nat.exists_eq_add_of_le hn
  rw [h.run, runOn]
  simp [hu]

variable {s : State} {i : Instr} {r : ByteRole}

/-- The state in which the result of a byte of the command `i` is used: parked, the byte gone, the level
`a` sampled (R106). -/
def byteSent (i : Instr) (a : Bool) (s : State) (e : Env) : State :=
  { s with
      sdaOut := false, sclOut := false, shreg := 0, bitcnt := 8, curOp := some i, ackLevel := a
      timer := 0, rsp := none, spent := { s.spent with half := s.spent.half + 18 }, env := e }

/-- A whole byte (R106): 48 steps, and then whatever its result brings. -/
theorem leads_byte (hop : s.curOp = some i) (hr : s.env.noReset) (v : Byte)
    (hc : (s.env.ahead 43).scl = true) :
    ∃ a e, After 48 s.env e ∧ (s.env.expander = none → a = (s.env.ahead 44).sda)
      ∧ ∀ u, afterByte i r { byteSent i a s e with ustep := .byte r .parkSda } = .next u →
          u.env = e → (u.curOp.isSome = true → u.ustep ≠ .byte r .parkSda) →
          Leads 48 [v] (beginByte r v s) u := by
  have hv : headOf (beginByte r v s) = [v] := by simp [headOf, State.atByteHead, beginByte, hop]
  rw [← hv]
  obtain ⟨a, e, h, ha⟩ := run_byte (r := r) hop hr v hc
  refine ⟨a, _, h.after.trans (after_drive _ false false), ha, fun u hu he hne => ?_⟩
  refine h.leads hr ?_ hne (he ▸ after_drive _ false false)
  rw [← hu]
  simp only [primitive, latch_curOp, latch_ustep, hop, byteStep]
  rfl

/-- The hook (R148, R149): one step, and the loop goes on. -/
theorem leads_hook (hop : s.curOp = some i) (hu : s.ustep = .hook) (hr : s.env.noReset) :
    ∀ u, nextByte i (s.latch.delay (hookDelay s.byteidx (byteCount s i))) = .next u →
      u.env = s.latch.env → (u.curOp.isSome = true → u.ustep ≠ .hook) → Leads 1 [] s u := by
  intro u h he hne
  have hv : headOf s = [] := headOf_of_not (by simp [State.atByteHead, hu])
  rw [← hv]
  refine (Run.refl s).leads hr ?_ (by rw [hu]; exact hne) (he ▸ after_latch s)
  rw [← h]
  simp only [primitive, latch_curOp, latch_ustep, hop, hu, hookStep]
  rw [show byteCount s.latch i = byteCount s i by cases i <;> rfl]
  rfl

/-! ### The byte loop -/

/-- The delays of a byte loop of `n` bytes from index `j`, when the first byte not acknowledged is `k`
(R112, R149): nine data clocks a byte, a settle after each byte acknowledged, a pre-arm gap before the
last byte. -/
def loopSpent (hook : Bool) (n j k : Nat) (t : Spent) : Spent where
  half := t.half + 18 * (min (k + 1) n - j)
  en := t.en + if hook then k - j else 0
  prearm := t.prearm + if hook ∧ j + 2 ≤ n ∧ n ≤ k + 1 then 1 else 0

/-- What the byte loop leaves when its result is used (R112): parked, `k` bytes of `n` acknowledged, the
index last attempted. -/
def loopLeft (i : Instr) (a : Bool) (n k : Nat) (t : Spent) (s : State) (e : Env) : State :=
  { s with
      sdaOut := false, sclOut := false, shreg := 0, bitcnt := 8, curOp := some i, ackLevel := a
      lastok := decide (k = n), sentcnt := BitVec.ofNat 3 k, byteidx := BitVec.ofNat 3 (min k (n - 1))
      timer := 0, rsp := none, spent := t, env := e }

/-- The result of the loop goes on from wherever the loop stood. -/
theorem loopDone_congr {i : Instr} {ok : Bool} {s t : State} (h : { s with ustep := t.ustep } = t) :
    loopDone i ok s = loopDone i ok t := by
  rw [← h]; unfold loopDone; split <;> rfl

theorem loopDone_moves (i : Instr) (ok : Bool) (s : State) :
    (∃ r p, (loopDone i ok s).ustep = .byte r p) ∨ (loopDone i ok s).ustep = .hook → False := by
  unfold loopDone; split <;> simp [State.goto, State.finish]

/-- What follows a byte of the loop that was acknowledged and its hook: the next byte, or the result. -/
def goOn (i : Instr) (n : Nat) (t : State) : State :=
  if t.byteidx.toNat + 1 < n then
    beginByte .data (t.txbuf.get (t.byteidx + 1).toNat) { t with byteidx := t.byteidx + 1 }
  else loopDone i true t

theorem nextByte_eq {t : State} {n : Nat} (hn : (byteCount t i).toNat = n) (h5 : n ≤ 5) :
    nextByte i t = .next (goOn i n t) := by
  unfold nextByte goOn
  rw [hn]
  split
  · next h =>
    have hb : (t.byteidx + 1).toNat < Config.txbufDepth := by
      rw [BitVec.toNat_add]; simp [Config.txbufDepth]; omega
    simp only [loadByte, Memory.read_of_lt hb]
  · rfl

theorem goOn_env (i : Instr) (n : Nat) (t : State) : (goOn i n t).env = t.env := by
  unfold goOn; split
  · rfl
  · exact loopDone_env i true t

/-- The state after a byte of the loop that was acknowledged and its hook if it has one (R112, R149). -/
def ackedByte (i : Instr) (n : Nat) (s : State) (e : Env) : State :=
  { s with
      sdaOut := false, sclOut := false, shreg := 0, bitcnt := 8, curOp := some i, ackLevel := false
      lastok := true, sentcnt := s.sentcnt + 1, timer := 0, rsp := none
      spent := {
        half := s.spent.half + 18
        en := s.spent.en + if hooked i then 1 else 0
        prearm := s.spent.prearm + if hooked i ∧ s.byteidx.toNat + 2 = n then 1 else 0 }
      ustep := if hooked i then .hook else .byte .data .parkSda
      env := e }

theorem goOn_moves (i : Instr) (n : Nat) (t : State) :
    (goOn i n t).ustep ≠ .byte .data .parkSda ∧ (goOn i n t).ustep ≠ .hook := by
  unfold goOn; split
  · simp [beginByte]
  · exact ⟨fun h => loopDone_moves i true t (.inl ⟨_, _, h⟩),
      fun h => loopDone_moves i true t (.inr h)⟩

/-- One round of the byte loop (R112): the byte, its hook, and what follows; or the result at the first
byte that is not acknowledged. -/
theorem leads_round (hop : s.curOp = some i) (hr : s.env.noReset) (hc : s.env.clockFree) {n : Nat}
    (hn : (byteCount s i).toNat = n) (h5 : n ≤ 5) (v : Byte) :
    ∃ a e, (s.env.expander = none → a = (s.env.ahead 44).sda)
      ∧ (a = true → Leads 48 [v] (beginByte .data v s)
          (loopDone i false { byteSent i true s e with lastok := false }))
      ∧ (a = false → Leads (if hooked i then 49 else 48) [v] (beginByte .data v s)
          (goOn i n (ackedByte i n s e))) := by
  obtain ⟨a, e, hA, ha, hL⟩ := leads_byte (r := .data) hop hr v (hc 43)
  have hnack : a = true → Leads 48 [v] (beginByte .data v s)
      (loopDone i false { byteSent i true s e with lastok := false }) := by
    rintro rfl
    rw [loopDone_congr (t := { byteSent i true s e with ustep := .byte .data .parkSda, lastok := false }) rfl]
    refine hL _ ?_ (loopDone_env _ _ _) (fun _ h => loopDone_moves i false _ (.inl ⟨_, _, h⟩))
    simp [afterByte, afterData, byteSent]
  have hbc : ∀ t : State, t.txlen = s.txlen → (byteCount t i).toNat = n :=
    fun t ht => by rw [byteCount_of_txlen ht, hn]
  by_cases hh : hooked i = true
  · refine ⟨a, if a then e else (State.latch { byteSent i false s e with
        lastok := true, sentcnt := s.sentcnt + 1, ustep := .hook }).env, ha, ?_, ?_⟩
    · rintro rfl; exact hnack rfl
    rintro rfl
    have h1 := hL { byteSent i false s e with
        lastok := true, sentcnt := s.sentcnt + 1, ustep := .hook }
      (by simp [afterByte, afterData, byteSent, hh, State.goto]) rfl (by simp)
    rw [if_pos hh]
    refine h1.trans rfl (leads_hook rfl rfl (h1.after.noReset hr) _ ?_ ?_
      fun _ => (goOn_moves _ _ _).2)
    · rw [← nextByte_eq (hbc (ackedByte i n s _) rfl) h5]
      congr 1
      have hb := hbc { byteSent i false s e with
        lastok := true, sentcnt := s.sentcnt + 1, ustep := .hook } rfl
      simp only [hookDelay, hb]
      have hs : (byteSent i false s e).byteidx = s.byteidx := rfl
      rw [hs]
      by_cases h2 : s.byteidx.toNat + 2 = n <;> simp only [ackedByte, hh, h2, if_true, if_false,
        and_self, and_false] <;> rfl
    · rw [goOn_env]; rfl
  · refine ⟨a, e, ha, hnack, ?_⟩
    rintro rfl
    rw [if_neg hh]
    refine hL _ ?_ ((goOn_env _ _ _).trans rfl) fun _ => (goOn_moves _ _ _).1
    rw [← nextByte_eq (hbc (ackedByte i n s e) rfl) h5]
    have hh' : hooked i = false := by simpa using hh
    simp only [afterByte, afterData, byteSent, ackedByte, hh', Bool.not_false, if_true]
    rfl

theorem ofNat3 {b : BitVec 3} {j : Nat} (h : b.toNat = j) : BitVec.ofNat 3 j = b := by
  rw [← h]; simp

/-- The delays add up round by round. -/
theorem loopSpent_round {h : Bool} {n j k : Nat} (t : Spent) (hj : j + 1 < n) (hk : j + 1 ≤ k) :
    loopSpent h n (j + 1) k
        { half := t.half + 18
          en := t.en + if h then 1 else 0
          prearm := t.prearm + if h ∧ j + 2 = n then 1 else 0 }
      = loopSpent h n j k t := by
  cases h
  · simp only [loopSpent, Spent.mk.injEq]; simp; omega
  · simp only [loopSpent, Spent.mk.injEq, true_and, if_true]
    refine ⟨by omega, by omega, ?_⟩
    split_ifs <;> omega

theorem left_nack {n j : Nat} (hj : s.byteidx.toNat = j) (hs : s.sentcnt.toNat = j) (hn : j < n)
    (e : Env) :
    loopDone i false { byteSent i true s e with lastok := false }
      = loopDone i (decide (j = n)) (loopLeft i true n j (loopSpent (hooked i) n j j s.spent) s e) := by
  have h1 : (decide (j = n)) = false := by simp; omega
  have h2 : min j (n - 1) = j := by omega
  have h3 : loopSpent (hooked i) n j j s.spent = { s.spent with half := s.spent.half + 18 } := by
    simp only [loopSpent, Spent.mk.injEq]
    refine ⟨by omega, by simp, ?_⟩
    rw [if_neg (by omega), Nat.add_zero]
  have h4 : s.sentcnt = s.byteidx := BitVec.eq_of_toNat_eq (hs.trans hj.symm)
  simp only [loopLeft, h1, h2, h3, ofNat3 hj, h4, byteSent]

theorem left_last {n j : Nat} (hj : s.byteidx.toNat = j) (hs : s.sentcnt.toNat = j) (hn : j + 1 = n)
    (h5 : n ≤ 5) (e : Env) :
    goOn i n (ackedByte i n s e)
      = loopDone i (decide (j + 1 = n))
          (loopLeft i false n (j + 1) (loopSpent (hooked i) n j (j + 1) s.spent) s e) := by
  have h0 : ¬((ackedByte i n s e).byteidx.toNat + 1 < n) := by simp only [ackedByte]; omega
  have h1 : (decide (j + 1 = n)) = true := by simp; omega
  have h2 : min (j + 1) (n - 1) = j := by omega
  have h3 : BitVec.ofNat 3 (j + 1) = s.sentcnt + 1 := by
    rw [← hs]; simp [BitVec.ofNat_add]
  have h4 : loopSpent (hooked i) n j (j + 1) s.spent = (ackedByte i n s e).spent := by
    simp only [loopSpent, ackedByte, Spent.mk.injEq]
    refine ⟨by omega, by simp, ?_⟩
    rw [if_neg (by omega), if_neg (by omega)]
  rw [goOn, if_neg h0, loopDone_congr (t := { ackedByte i n s e with ustep := s.ustep }) rfl]
  simp only [loopLeft, h1, h2, h3, h4, ofNat3 hj]
  rfl

/-- A byte loop entered at its next byte leaves what it leaves from the byte before. -/
theorem left_more {n j k : Nat} {ok a : Bool} (hj : s.byteidx.toNat = j) (hn : j + 1 < n)
    (hk : j + 1 ≤ k) (e f : Env) (b : BitVec 3) :
    loopDone i ok (loopLeft i a n k (loopSpent (hooked i) n (j + 1) k (ackedByte i n s e).spent)
        { ackedByte i n s e with byteidx := b } f)
      = loopDone i ok (loopLeft i a n k (loopSpent (hooked i) n j k s.spent) s f) := by
  have h := loopSpent_round (h := hooked i) s.spent hn hk
  subst hj
  rw [loopDone_congr (t := loopLeft i a n k (loopSpent (hooked i) n s.byteidx.toNat k s.spent) s f)]
  rw [← h]
  rfl

/-- The bytes of a loop of `n` bytes that follow the one at index `j`, when the first not acknowledged is
`k` (R112). -/
def restOf (s : State) (n j k : Nat) : List Byte :=
  (List.range' (j + 1) (min (k + 1) n - (j + 1))).map s.txbuf.get

theorem restOf_nack (s : State) (n j : Nat) : restOf s n j j = [] := by
  simp [restOf, show min (j + 1) n - (j + 1) = 0 by omega]

theorem restOf_last (s : State) {n j : Nat} (k : Nat) (h : j + 1 = n) : restOf s n j k = [] := by
  simp [restOf, show min (k + 1) n - (j + 1) = 0 by omega]

theorem restOf_more (s : State) {n j k : Nat} (hn : j + 1 < n) (hk : j + 1 ≤ k) :
    restOf s n j k = s.txbuf.get (j + 1) :: restOf s n (j + 1) k := by
  rw [restOf, restOf, show min (k + 1) n - (j + 1) = (min (k + 1) n - (j + 1 + 1)) + 1 by omega,
    List.range'_succ, List.map_cons]

/-- With the first byte, they are the bytes from index 0 up to the first not acknowledged. -/
theorem get_cons_restOf (s : State) {n : Nat} (h : 1 ≤ n) (k : Nat) :
    s.txbuf.get 0 :: restOf s n 0 k = (List.range (min (k + 1) n)).map s.txbuf.get := by
  obtain ⟨m, hm⟩ := Nat.exists_eq_add_of_le (show 1 ≤ min (k + 1) n by omega)
  rw [restOf, hm, List.range_eq_range', Nat.add_comm 1 m, List.range'_succ, List.map_cons]
  simp

/-- The byte loop (R112, R148, R149) from the byte at index `j`, on a free clock: it ends with `k` bytes
acknowledged. With no device reacting on the bus, `k` follows from what the scripted devices leave of the
data line at the samples. -/
theorem leads_loop (d : Nat) : ∀ {s : State}, s.curOp = some i → s.env.noReset → s.env.clockFree →
    ∀ {n j : Nat}, (byteCount s i).toNat = n → s.byteidx.toNat = j → s.sentcnt.toNat = j →
    j + d + 1 = n → n ≤ 5 → ∀ v, ∃ k a e c, j ≤ k ∧ k ≤ n ∧ c ≤ 49 * (d + 1)
      ∧ Leads c (v :: restOf s n j k) (beginByte .data v s)
          (loopDone i (decide (k = n)) (loopLeft i a n k (loopSpent (hooked i) n j k s.spent) s e))
      ∧ (s.env.expander = none → k = j + ackedBefore (fun m =>
          !(s.env.ahead ((if hooked i then 49 else 48) * m + 44)).sda) (d + 1)) := by
  induction d with
  | zero =>
    intro s hop hr hc n j hn hj hk hd h5 v
    obtain ⟨a, e, ha, h0, h1⟩ := leads_round hop hr hc hn h5 v
    cases a with
    | true =>
      refine ⟨j, true, e, 48, le_rfl, by omega, by omega,
        left_nack hj hk (show j < n by omega) e ▸ (restOf_nack s n j).symm ▸ h0 rfl, ?_⟩
      intro hx
      simp [ackedBefore, ← ha hx]
    | false =>
      refine ⟨j + 1, false, e, if hooked i then 49 else 48, by omega, by omega, ?_,
        left_last hj hk hd h5 e ▸ (restOf_last s (j + 1) hd).symm ▸ h1 rfl, ?_⟩
      · split <;> omega
      · intro hx
        simp [ackedBefore, ← ha hx]
  | succ d ih =>
    intro s hop hr hc n j hn hj hk hd h5 v
    obtain ⟨a, e, ha, h0, h1⟩ := leads_round hop hr hc hn h5 v
    cases a with
    | true =>
      refine ⟨j, true, e, 48, le_rfl, by omega, by omega,
        left_nack hj hk (show j < n by omega) e ▸ (restOf_nack s n j).symm ▸ h0 rfl, ?_⟩
      intro hx
      simp [ackedBefore, ← ha hx]
    | false =>
      have hA := h1 rfl
      have hm : (ackedByte i n s e).byteidx.toNat + 1 < n := by simp only [ackedByte]; omega
      have hb : (s.byteidx + 1).toNat = j + 1 := by rw [BitVec.toNat_add]; simp; omega
      have hc' : (s.sentcnt + 1).toNat = j + 1 := by rw [BitVec.toNat_add]; simp; omega
      rw [goOn, if_pos hm] at hA
      have hE : After _ s.env e := hA.after
      obtain ⟨k, a, f, c, hk1, hk2, hc2, hL, hx⟩ := ih
        (s := { ackedByte i n s e with byteidx := (ackedByte i n s e).byteidx + 1 }) rfl
        (hE.noReset hr) (hE.clockFree hc) (n := n) (j := j + 1)
        ((congrArg BitVec.toNat (byteCount_of_txlen (s := s) rfl i)).trans hn) hb hc' (by omega) h5
        ((ackedByte i n s e).txbuf.get ((ackedByte i n s e).byteidx + 1).toNat)
      refine ⟨k, a, f, (if hooked i then 49 else 48) + c, by omega, hk2, ?_, ?_, ?_⟩
      · split <;> omega
      · have hg : s.txbuf.get (j + 1)
            = (ackedByte i n s e).txbuf.get ((ackedByte i n s e).byteidx + 1).toNat := by
          rw [← hb]; rfl
        rw [← left_more hj (show j + 1 < n by omega) hk1 e f (s.byteidx + 1),
          restOf_more s (by omega) hk1, hg]
        exact hA.trans rfl hL
      · intro hn0
        have hcons : ∀ f : Nat → Bool, f 0 = true →
            ackedBefore f (d + 1 + 1) = ackedBefore (fun m => f (m + 1)) (d + 1) + 1 :=
          fun f h => by rw [ackedBefore, if_pos h]
        rw [hx (hE.lone hn0), hcons _ (by simp [← ha hn0])]
        have hf : ∀ m, e.ahead m = s.env.ahead (m + if hooked i then 49 else 48) := hE.ahead
        have hg : ∀ m, ({ ackedByte i n s e with
          byteidx := (ackedByte i n s e).byteidx + 1 } : State).env.ahead m = e.ahead m := fun m => rfl
        simp only [hg, hf]
        rw [Nat.add_right_comm, ← Nat.add_assoc]
        congr 3
        funext m
        cases hooked i <;> simp only [Bool.false_eq_true, if_true, if_false] <;> congr 3

/-- The byte loop from its head (R112), with at least one byte to send. -/
theorem leads_beginLoop (hop : s.curOp = some i) (hr : s.env.noReset) (hc : s.env.clockFree) {n : Nat}
    (hn : (byteCount s i).toNat = n) (h1 : 1 ≤ n) (h5 : n ≤ 5) :
    ∃ u k a e c, beginLoop i s = .next u ∧ u.env = s.env ∧ u.curOp = some i
      ∧ u.ustep = .byte .data .putBit ∧ k ≤ n ∧ c ≤ 49 * n
      ∧ Leads c ((List.range (min (k + 1) n)).map s.txbuf.get) u
          (loopDone i (decide (k = n)) (loopLeft i a n k (loopSpent (hooked i) n 0 k s.spent) s e))
      ∧ (s.env.expander = none → k = ackedBefore (fun m =>
          !(s.env.ahead ((if hooked i then 49 else 48) * m + 44)).sda) n) := by
  have hb : byteCount { s with sentcnt := 0, byteidx := 0 } i ≠ 0 := by
    intro h
    rw [byteCount_of_txlen (s := s) (t := { s with sentcnt := 0, byteidx := 0 }) rfl] at h
    rw [h] at hn
    simp at hn
    omega
  obtain ⟨k, a, e, c, -, hk, hc', hL, hx⟩ := leads_loop (i := i) (n - 1)
    (s := { s with sentcnt := 0, byteidx := 0 }) hop hr hc (n := n) (j := 0)
    ((congrArg BitVec.toNat (byteCount_of_txlen (s := s) rfl i)).trans hn) rfl rfl (by omega) h5
    (s.txbuf.get 0)
  rw [show n - 1 + 1 = n by omega] at hc' hx
  rw [show s.txbuf.get 0 :: restOf { s with sentcnt := 0, byteidx := 0 } n 0 k = _ from
    get_cons_restOf s h1 k] at hL
  refine ⟨beginByte .data (s.txbuf.get 0) { s with sentcnt := 0, byteidx := 0 }, k, a, e, c, ?_, rfl, hop,
    rfl, hk, hc', hL, fun h => by simpa using hx h⟩
  rw [beginLoop, if_neg hb]
  rfl

/-- A whole start condition (R102): 4 steps, then the address byte or the end of `START` (R130). -/
theorem leads_start (hop : s.curOp = some i) (hu : s.ustep = .start .fallSda) (hr : s.env.noReset) :
    ∃ e, After 4 s.env e ∧ ∀ t : State, t = { s with
        sdaOut := false, sclOut := false, isOpen := true, timer := 0, rsp := none
        spent := { s.spent with half := s.spent.half + 2 }, env := e, ustep := .start .holdScl } →
      Leads 4 [] s (if addresses i then beginByte .frame (frameOf (frameAddr t i)) t else t.finish .ok 0) := by
  have hv : headOf s = [] := headOf_of_not (by simp [State.atByteHead, hu])
  obtain ⟨e, h⟩ := run_start hop hu hr
  refine ⟨_, h.after.trans (after_latch _), ?_⟩
  rintro t rfl
  rw [← hv]
  refine h.leads hr ?_ ?_ ?_
  · simp only [primitive, latch_curOp, latch_ustep, hop, startStep, afterStart]
    split <;> rfl
  · split <;> simp [beginByte, State.finish]
  · split <;> exact after_latch _

/-- A whole stop condition on a free clock (R104): 7 steps. -/
theorem leads_stop (hop : s.curOp = some i) (hu : s.ustep = .stop .fallSda) (hr : s.env.noReset)
    (hc : (s.env.ahead 3).scl = true) :
    ∃ e, Leads 7 [] s { s with
      sdaOut := true, sclOut := true, isOpen := false, curOp := none, ustep := .idle, timer := 0
      rsp := some { st := if closes i then statusOf s.lastok else .ok, data := 0 }
      spent := { s.spent with half := s.spent.half + 3 }, env := e } := by
  have hv : headOf s = [] := headOf_of_not (by simp [State.atByteHead, hu])
  obtain ⟨e, h⟩ := run_stop hop hu hr hc
  rw [← hv]
  refine ⟨_, h.leads hr ?_ (by simp) (after_latch _)⟩
  simp only [primitive, latch_curOp, latch_ustep, hop, stopStep, afterStop]
  rfl

/-- The state after the start condition of a transaction (R102), `e` the environment. -/
def opened (s : State) (e : Env) : State :=
  { s with
      sdaOut := false, sclOut := false, isOpen := true, timer := 0, rsp := none
      spent := { s.spent with half := s.spent.half + 2 }, env := e, ustep := .start .holdScl }

/-- The state in which a transaction of the command `i` ends (R131, R146). -/
def closed (s : State) (ok a : Bool) (e : Env) : State :=
  { s with
      sdaOut := true, sclOut := true, isOpen := false, curOp := none, ustep := .idle, timer := 0
      ackLevel := a, shreg := 0, bitcnt := 8, lastok := ok
      rsp := some { st := statusOf ok, data := 0 }, env := e
      spent := { s.spent with half := s.spent.half + 23 } }

/-- A whole transaction on a free clock (R146, R147): start condition, address byte, the byte loop if it was
acknowledged, stop condition. -/
theorem run_transaction (hcl : closes i = true) (hop : s.curOp = some i)
    (hu : s.ustep = .start .fallSda) (hr : s.env.noReset) (hc : s.env.clockFree) {n : Nat}
    (hn : (byteCount s i).toNat = n) (h1 : 1 ≤ n) (h5 : n ≤ 5) :
    ∃ ack : Bool, (s.env.expander = none → ack = s.env.ackAt 48)
      ∧ (ack = false → bytesBegun runBound s = [frameOf (frameAddr s i)]
          ∧ ∃ e a, runSteps runBound s = .next (closed s false a e))
      ∧ (ack = true → ∃ k e a, k ≤ n
          ∧ (s.env.expander = none → k = ackedBefore (fun m =>
              !(s.env.ahead (52 + (if hooked i then 49 else 48) * m + 44)).sda) n)
          ∧ bytesBegun runBound s
              = frameOf (frameAddr s i) :: (List.range (min (k + 1) n)).map s.txbuf.get
          ∧ runSteps runBound s = .next { closed s (decide (k = n)) a e with
              sentcnt := BitVec.ofNat 3 k, byteidx := BitVec.ofNat 3 (min k (n - 1))
              spent := loopSpent (hooked i) n 0 k { s.spent with half := s.spent.half + 23 } }) := by
  have had : addresses i = true := by cases i <;> simp_all [closes, addresses]
  have hs : s.curOp.isSome = true := by rw [hop]; rfl
  have hf : ∀ e, frameAddr (opened s e) i = frameAddr s i := fun e => by cases i <;> rfl
  obtain ⟨e1, ha1, hL1⟩ := leads_start hop hu hr
  have hL1 := hL1 (opened s e1) rfl
  rw [if_pos had] at hL1
  obtain ⟨a, e2, ha2, hax, hL2⟩ := leads_byte (i := i) (r := .frame) (s := opened s e1) hop
    (ha1.noReset hr) (frameOf (frameAddr (opened s e1) i)) (ha1.clockFree hc 43)
  refine ⟨!a, fun hx => ?_, ?_, ?_⟩
  · rw [hax (ha1.lone hx)]
    show (!(e1.ahead 44).sda) = _
    rw [ha1.ahead]
    rfl
  · intro ht
    obtain rfl : a = true := by simpa using ht
    have h3 := hL1.trans hs (hL2 _ (by simp only [afterByte, afterFrame, hcl, byteSent]; simp; rfl)
      (loopDone_env _ _ _) fun _ h => loopDone_moves i _ _ (.inl ⟨_, _, h⟩))
    rw [loopDone, if_pos hcl] at h3
    obtain ⟨e3, h4⟩ := leads_stop (i := i) (s := State.goto (.stop .fallSda) _) rfl rfl
      (h3.after.noReset hr) (h3.after.clockFree hc 3)
    refine ⟨((h3.trans rfl h4).sent rfl (by decide)).trans (by simp [hf]), e3, true, ?_⟩
    rw [(h3.trans rfl h4).ended rfl (by decide)]
    simp only [hcl]
    rfl
  · intro ht
    obtain rfl : a = false := by simpa using ht
    have hE : After (4 + 48) s.env e2 := ha1.trans ha2
    obtain ⟨u, k, a, e, c, hB, hue, huo, hus, hk, hc2, hL, hx⟩ := leads_beginLoop (i := i)
      (s := { byteSent i false (opened s e1) e2 with ustep := .byte .frame .parkSda, lastok := true }) rfl
      (hE.noReset hr) (hE.clockFree hc) (n := n)
      ((congrArg BitVec.toNat (byteCount_of_txlen (s := s) rfl i)).trans hn) h1 h5
    have h3 := hL1.trans hs (hL2 u (by
        simp only [afterByte, afterFrame, hcl, byteSent, Bool.not_false, if_true]
        exact hB) (by rw [hue]; rfl) (by rw [hus]; simp))
    have h5 := h3.trans (by rw [huo]; rfl) hL
    rw [loopDone, if_pos hcl] at h5
    obtain ⟨e3, h4⟩ := leads_stop (i := i) (s := State.goto (.stop .fallSda) _) rfl rfl
      (h5.after.noReset hr) (h5.after.clockFree hc 3)
    refine ⟨k, e3, a, hk, ?_, ?_, ?_⟩
    · intro hn
      rw [hx (hE.lone hn)]
      congr 1
      funext m
      have hA : ∀ m, e2.ahead m = s.env.ahead (m + (4 + 48)) := hE.ahead
      simp only [byteSent, hA]
      congr 3
      omega
    · rw [(h5.trans rfl h4).sent rfl (by simp only [runBound]; omega)]
      rw [hf e1, List.append_nil]; rfl
    · rw [(h5.trans rfl h4).ended rfl (by simp only [runBound]; omega)]
      simp only [hcl]
      congr 2
      simp only [State.goto, loopLeft, loopSpent, byteSent, opened]
      congr 1
      omega

end Sys2Proof.Machine
end

