-- ==== Sys2Proof/Laws/PerInstr.lean ====
section
/-! SUPPORT. The fields of a word that is put together from them (R80), and the statement made command by
command: the word of a command carries its row's `OP` (R82). -/

namespace Sys2Proof

theorem opField_cmd16 (op m : BitVec 4) (v : Byte) : opField (cmd16 op m v) = op := by
  apply BitVec.eq_of_getLsbD_eq
  intro k hk
  simp only [opField, cmd16, BitVec.getLsbD_extractLsb', BitVec.getLsbD_append]
  have h1 : ¬12 + k < 8 := by omega
  have h2 : ¬12 + k - 8 < 4 := by omega
  have h3 : 12 + k - 8 - 4 = k := by omega
  simp [hk, h1, h2, h3]

theorem modField_cmd16 (op m : BitVec 4) (v : Byte) : modField (cmd16 op m v) = m := by
  apply BitVec.eq_of_getLsbD_eq
  intro k hk
  simp only [modField, cmd16, BitVec.getLsbD_extractLsb', BitVec.getLsbD_append]
  simp [hk]

theorem immField_cmd16 (op m : BitVec 4) (v : Byte) : immField (cmd16 op m v) = v := by
  apply BitVec.eq_of_getLsbD_eq
  intro k hk
  simp only [immField, cmd16, BitVec.getLsbD_extractLsb', BitVec.getLsbD_append]
  simp [hk]

end Sys2Proof

namespace Sys2Proof.Laws.Opcode

/-- The `OP` value of a command's row of R82. -/
def value : Instr → BitVec 4
  | .init => 0x1
  | .start => 0x2
  | .stop => 0x3
  | .wbyte _ => 0x4
  | .ldbuf _ _ => 0x5
  | .wbytes _ _ => 0x6
  | .beginw _ => 0x7
  | .endt => 0x8
  | .setaddr _ => 0x9
  | .setbl _ => 0xA
  | .pack _ _ _ => 0xB
  | .emitc _ _ _ => 0xC
  | .sendc _ _ _ => 0xD
  | .blnow => 0xE
  | .rdreg _ => 0xF

/-- The word of a command carries its row's `OP`, which is never the reserved one. -/
def Statement (i : Instr) : Prop := opField (encode i) = value i ∧ value i ≠ 0

theorem init : Statement .init :=
  ⟨opField_cmd16 _ _ _, by simp [value]⟩

theorem start : Statement .start :=
  ⟨opField_cmd16 _ _ _, by simp [value]⟩

theorem stop : Statement .stop :=
  ⟨opField_cmd16 _ _ _, by simp [value]⟩

theorem wbyte (v : Byte) : Statement (.wbyte v) :=
  ⟨opField_cmd16 _ _ _, by simp [value]⟩

theorem ldbuf (idx : BitVec 3) (v : Byte) : Statement (.ldbuf idx v) :=
  ⟨opField_cmd16 _ _ _, by simp [value]⟩

theorem wbytes (h : Bool) (n : BitVec 3) : Statement (.wbytes h n) :=
  ⟨opField_cmd16 _ _ _, by simp [value]⟩

theorem beginw (a : Addr7) : Statement (.beginw a) :=
  ⟨opField_cmd16 _ _ _, by simp [value]⟩

theorem endt : Statement .endt :=
  ⟨opField_cmd16 _ _ _, by simp [value]⟩

theorem setaddr (a : Addr7) : Statement (.setaddr a) :=
  ⟨opField_cmd16 _ _ _, by simp [value]⟩

theorem setbl (b : Bool) : Statement (.setbl b) :=
  ⟨opField_cmd16 _ _ _, by simp [value]⟩

theorem pack (size : Size) (kind : Kind) (v : Byte) : Statement (.pack size kind v) :=
  ⟨opField_cmd16 _ _ _, by simp [value]⟩

theorem emitc (size : Size) (kind : Kind) (v : Byte) : Statement (.emitc size kind v) :=
  ⟨opField_cmd16 _ _ _, by simp [value]⟩

theorem sendc (size : Size) (kind : Kind) (v : Byte) : Statement (.sendc size kind v) :=
  ⟨opField_cmd16 _ _ _, by simp [value]⟩

theorem blnow : Statement .blnow :=
  ⟨opField_cmd16 _ _ _, by simp [value]⟩

theorem rdreg (r : BitVec 4) : Statement (.rdreg r) :=
  ⟨opField_cmd16 _ _ _, by simp [value]⟩

end Sys2Proof.Laws.Opcode
end

