-- ==== Sys2Proof/Tests/Slice0.lean ====
section
/-! SUPPORT. Tests against the spec's own vectors (95_test_vectors.md; the vector's number stands in each
comment), the smoke test of the well-formedness checks, and a witness for each statement with hypotheses. -/

namespace Sys2Proof.Tests

open Sys2Proof.Machine

-- One kernel evaluation at a time: each waiting test would hold a thread of its own.
set_option Elab.async false

/-! ### Small states -/

/-- Whether a step answered a next state with a property. -/
def gives (o : Result) (p : State → Bool) : Bool :=
  match o with
  | .next t => p t
  | .fault _ => false
  | .refused _ => false

theorem exists_of_gives {o : Result} {p : State → Bool} (h : gives o p = true) :
    ∃ t, o = .next t ∧ p t = true := by
  cases o with
  | next t => exact ⟨t, rfl, h⟩
  | fault r => cases h
  | refused r => cases h

/-- The block after `INIT`, nothing on the bus. -/
def booted : State := { State.reset with initd := true }

/-- The reference expander at 0x27 (R226). -/
def expander27 : Expander :=
  { address := 0x27, acks := none, latch := 0xFF, first := false, selected := false, driving := false
    given := [] }

/-- A state with an expander on the bus. -/
def withDevice (x : Expander) (s : State) : State :=
  { s with env := { s.env with expander := some x } }

/-- `ADDR` = 0x27, `BL` = 1. -/
def configured (s : State) : State := { s with addr := 0x27, bl := true }

/-- Inside a transaction, parked, the address byte acknowledged. -/
def parkedOpen (s : State) : State :=
  { s with
      sdaOut := false, sclOut := false, isOpen := true, lastok := true, bitcnt := 8
      env := { s.env with bus := { s.env.bus with sda := false, scl := false, active := true } } }

/-- The reference expander, addressed. -/
def addressed : Expander := { expander27 with selected := true }

/-- A device that answers by a list. -/
def answering (l : List Bool) : Expander := { expander27 with acks := some l }

/-- The buffer `AD A9 BD B9 0C`. -/
def packedAB : Memory := [(0, 0xAD), (1, 0xA9), (2, 0xBD), (3, 0xB9), (4, 0x0C)]

/-- A scripted device holds the clock low. -/
def clockLow (s : State) : State := { s with env := { s.env with scl := false } }

/-- `rst` is sampled at the next step. -/
def resetNext (s : State) : State :=
  { s with env := { s.env with script := [{ sda := true, scl := true, rst := true }] } }

/-- In the wait of a stop condition. -/
def inStopWait (i : Instr) : State :=
  { booted with curOp := some i, ustep := .stop .waitScl, sdaOut := false }

/-- In the wait of a byte sent alone. -/
def inByteWait (v : Byte) : State :=
  { booted with curOp := some (.wbyte v), ustep := .byte .single .ackWait, bitcnt := 8 }

/-! ### The well-formedness checks (R82, R83) -/

theorem smoke_wf_index : (Instr.ldbuf 5 0).wf = false ∧ (Instr.ldbuf 4 0).wf = true := by decide

theorem smoke_wf_count : (Instr.wbytes true 6).wf = false ∧ (Instr.wbytes false 7).wf = false
    ∧ (Instr.wbytes true 5).wf = true := by decide

theorem smoke_wf_register : (Instr.rdreg 7).wf = false ∧ (Instr.rdreg 13).wf = false
    ∧ (Instr.rdreg 15).wf = false ∧ (Instr.rdreg 12).wf = true ∧ (Instr.rdreg 6).wf = true := by decide

theorem smoke_ill_formed_refused :
    gives (exec (.ldbuf 5 0x11) booted) (fun t => decide (t.rsp = some ⟨.illegal, 0⟩)) = true
      ∧ gives (exec (.wbytes true 6) booted) (fun t => decide (t.rsp = some ⟨.illegal, 0⟩)) = true
      ∧ gives (exec (.rdreg 13) booted) (fun t => decide (t.rsp = some ⟨.illegal, 0⟩)) = true := by
  decide +kernel

/-! ### Decoding: words written out bit by bit from R81 and R82, and the words of V4 and V5 -/

theorem test_decode_init : decode 0b0001000000000000#16 = some .init := by decide
theorem test_decode_start : decode 0b0010000000000000#16 = some .start := by decide
theorem test_decode_stop : decode 0b0011000000000000#16 = some .stop := by decide
theorem test_decode_wbyte : decode 0b0100000001001110#16 = some (.wbyte 0x4E) := by decide
theorem test_decode_ldbuf : decode 0b0101001010111101#16 = some (.ldbuf 2 0xBD) := by decide
theorem test_decode_wbytes : decode 0b0110000000000101#16 = some (.wbytes false 5) := by decide
theorem test_decode_wbytes_hook : decode 0b0110100000000011#16 = some (.wbytes true 3) := by decide
theorem test_decode_beginw : decode 0b0111000000100111#16 = some (.beginw 0x27) := by decide
theorem test_decode_end : decode 0b1000000000000000#16 = some .endt := by decide
theorem test_decode_setaddr : decode 0b1001000000100111#16 = some (.setaddr 0x27) := by decide
theorem test_decode_setbl : decode 0b1010000000000001#16 = some (.setbl true) := by decide
theorem test_decode_pack : decode 0b1011000110101011#16 = some (.pack .full .data 0xAB) := by decide
theorem test_decode_emitc : decode 0b1100000010000100#16 = some (.emitc .full .command 0x84) := by decide
theorem test_decode_sendc : decode 0b1101001000000011#16 = some (.sendc .nibble .command 0x03) := by decide
theorem test_decode_blnow : decode 0b1110000000000000#16 = some .blnow := by decide
theorem test_decode_rdreg : decode 0b1111000000000100#16 = some (.rdreg 4) := by decide

/-- V5: illegal words. -/
theorem test_illegal_words :
    ([0x0000, 0x0FFF, 0x1001, 0x2100, 0x3080, 0x8001, 0xE001, 0x4100, 0x5500, 0x5700, 0x5C00, 0x6006,
      0x6007, 0x6008, 0x6010, 0x6100, 0x6400, 0x7080, 0x7127, 0x9080, 0x9827, 0xA002, 0xA101, 0xB400,
      0xB8AB, 0xC4AB, 0xD8AB, 0xF007, 0xF00D, 0xF00E, 0xF00F, 0xF010, 0xF100] : List CmdWord).all
      (fun w => (decode w).isNone) = true := by decide +kernel

/-- The three reasons of R83 are told apart. -/
theorem test_decode_reasons :
    (match decodeWord 0x0FFF with | .error e => decide (e = .reservedOp) | .ok _ => false) = true
      ∧ (match decodeWord 0x5C00 with | .error e => decide (e = .mustBeZero) | .ok _ => false) = true
      ∧ (match decodeWord 0xF00D with | .error e => decide (e = .valueLimit) | .ok _ => false) = true := by
  decide

/-- R84: the words `0x0dd`, `0x100`, `0x200` of the vectors' conventions. -/
theorem test_response_words : (Response.mk .ok 0x4E).word = 0x04E ∧ (Response.mk .nack 0).word = 0x100
    ∧ (Response.mk .illegal 0).word = 0x200 := by decide

/-! ### One step of each command -/

/-- V7: after `INIT`, `STATUS` = 0x01, `PINS` = 0x0F. -/
theorem test_init : gives (exec .init State.reset) (fun t =>
    decide (t.statusRead = 0x01 ∧ t.pins = 0x0F ∧ t.rsp = some ⟨.ok, 0⟩)) = true := by decide +kernel

/-- V8: `START` from idle. -/
theorem test_start : gives (exec .start booted) (fun t =>
    decide (t.statusRead = 0x03 ∧ t.pins = 0x00 ∧ t.env.bus.log = [.start] ∧ t.spent.half = 2)) = true := by
  decide +kernel

/-- V8: `START` from parked. -/
theorem test_start_parked : gives (exec .start (parkedOpen booted)) (fun t =>
    decide (t.env.bus.log = [] ∧ t.rsp = some ⟨.ok, 0⟩ ∧ t.isOpen = true)) = true := by decide +kernel

/-- V8: `STOP` from parked. -/
theorem test_stop : gives (exec .stop (parkedOpen booted)) (fun t =>
    decide (t.isOpen = false ∧ t.pins = 0x0F ∧ t.env.bus.log = [.stop] ∧ t.spent.half = 3)) = true := by
  decide +kernel

/-- V8: `STOP` on an idle bus. -/
theorem test_stop_idle : gives (exec .stop booted) (fun t =>
    decide (t.statusRead = 0x01 ∧ t.env.bus.log = [.start, .stop])) = true := by decide +kernel

/-- V9: with nobody on the bus `WBYTE 0x00` is not acknowledged. -/
theorem test_wbyte_nobody : gives (exec (.wbyte 0x00) (parkedOpen booted)) (fun t =>
    decide (t.rsp = some ⟨.nack, 0⟩ ∧ t.lastok = false ∧ t.shreg = 0 ∧ t.bitcnt = 8 ∧ t.pins = 0x00
      ∧ t.spent.half = 18)) = true := by decide +kernel

/-- P1: the expander takes the byte. -/
theorem test_wbyte_expander : gives (exec (.wbyte 0x0C) (parkedOpen (withDevice addressed booted))) (fun t =>
    decide (t.rsp = some ⟨.ok, 0⟩ ∧ t.env.expander.map (·.latch) = some 0x0C
      ∧ t.env.bus.log = [.byte 0x0C true])) = true := by decide +kernel

/-- V12. -/
theorem test_ldbuf : gives (exec (.ldbuf 4 0x55) State.reset) (fun t =>
    decide (t.txbuf.get 4 = 0x55 ∧ t.txbuf.get 0 = 0 ∧ t.txlen = 0)) = true := by decide +kernel

/-- V13: `WBYTES.H 5`. -/
theorem test_wbytes : gives (exec (.wbytes true 5)
      { parkedOpen (withDevice addressed booted) with txbuf := packedAB }) (fun t =>
    decide (t.sentcnt = 5 ∧ t.byteidx = 4 ∧ t.spent = ⟨90, 5, 1⟩ ∧ t.env.bus.log =
      [.byte 0xAD true, .byte 0xA9 true, .byte 0xBD true, .byte 0xB9 true, .byte 0x0C true])) = true := by
  decide +kernel

/-- V14: `WBYTES 5`, the byte of index 2 is not acknowledged. -/
theorem test_wbytes_nack : gives (exec (.wbytes false 5)
      { parkedOpen (withDevice (answering [true, true, false]) booted) with txbuf := packedAB }) (fun t =>
    decide (t.rsp = some ⟨.nack, 0⟩ ∧ t.sentcnt = 2 ∧ t.byteidx = 2 ∧ t.statusRead = 0x03
      ∧ t.pins = 0x00)) = true := by decide +kernel

/-- V10: `BEGINW 0x27` with the expander there. -/
theorem test_beginw : gives (exec (.beginw 0x27) (withDevice expander27 booted)) (fun t =>
    decide (t.rsp = some ⟨.ok, 0⟩ ∧ t.statusRead = 0x0B ∧ t.pins = 0x00
      ∧ t.env.bus.log = [.start, .byte 0x4E true] ∧ t.spent.half = 20)) = true := by decide +kernel

/-- V11: `BEGINW 0x26` with the expander at 0x27. -/
theorem test_beginw_absent : gives (exec (.beginw 0x26) (withDevice expander27 booted)) (fun t =>
    decide (t.rsp = some ⟨.nack, 0⟩ ∧ t.statusRead = 0x03
      ∧ t.env.bus.log = [.start, .byte 0x4C false])) = true := by decide +kernel

/-- V10: `END` after it. -/
theorem test_end : gives (exec .endt (parkedOpen (withDevice addressed booted))) (fun t =>
    decide (t.statusRead = 0x09 ∧ t.pins = 0x0F ∧ t.env.bus.log = [.stop])) = true := by decide +kernel

/-- R170, R174: `SETADDR 0x27`, then `RDREG 1`. -/
theorem test_setaddr : gives (andThen (exec (.setaddr 0x27) State.reset) (exec (.rdreg 1))) (fun t =>
    decide (t.rsp = some ⟨.ok, 0x27⟩)) = true := by decide +kernel

/-- R171: `SETBL 1`, then `PACK.CB 0x01`. -/
theorem test_setbl : gives (andThen (exec (.setbl true) State.reset) (exec (.pack .full .command 0x01)))
    (fun t => decide (t.txbuf = [(0, 0x0C), (1, 0x08), (2, 0x1C), (3, 0x18), (4, 0x0C)])) = true := by
  decide +kernel

/-- V16: a nibble-only `PACK` leaves entries 3 and 4. -/
theorem test_pack_nibble : gives (exec (.pack .nibble .command 0x03)
      { configured State.reset with txbuf := packedAB }) (fun t =>
    decide (t.txbuf = [(0, 0x3C), (1, 0x38), (2, 0x0C), (3, 0xB9), (4, 0x0C)] ∧ t.txlen = 3)) = true := by
  decide +kernel

/-- V15: the four combinations for 0xAB. -/
theorem test_packed_bytes : packBytes false .full .command 0xAB = [0xA4, 0xA0, 0xB4, 0xB0, 0x04]
    ∧ packBytes false .full .data 0xAB = [0xA5, 0xA1, 0xB5, 0xB1, 0x04]
    ∧ packBytes true .full .command 0xAB = [0xAC, 0xA8, 0xBC, 0xB8, 0x0C]
    ∧ packBytes true .full .data 0xAB = [0xAD, 0xA9, 0xBD, 0xB9, 0x0C] := by decide

/-- V22: `EMITC.CN 0x02`. -/
theorem test_emitc : gives (exec (.emitc .nibble .command 0x02)
      (configured (parkedOpen (withDevice addressed booted)))) (fun t =>
    decide (t.statusRead = 0x0B ∧ t.spent = ⟨54, 3, 1⟩
      ∧ t.env.bus.log = [.byte 0x2C true, .byte 0x28 true, .byte 0x0C true])) = true := by decide +kernel

/-- V18: `SENDC.DB 0xAB`. -/
theorem test_sendc : gives (exec (.sendc .full .data 0xAB) (configured (withDevice expander27 booted)))
    (fun t => decide (t.rsp = some ⟨.ok, 0⟩ ∧ t.statusRead = 0x09 ∧ t.pins = 0x0F ∧ t.sentcnt = 5
      ∧ t.byteidx = 4 ∧ t.spent = ⟨113, 5, 1⟩ ∧ t.env.expander.map (·.given) = some [(true, 0xA), (true, 0xB)]
      ∧ t.env.bus.log = [.start, .byte 0x4E true, .byte 0xAD true, .byte 0xA9 true, .byte 0xBD true,
          .byte 0xB9 true, .byte 0x0C true, .stop])) = true := by decide +kernel

/-- V20: the same with no device. -/
theorem test_sendc_absent : gives (exec (.sendc .full .data 0xAB) (configured booted)) (fun t =>
    decide (t.rsp = some ⟨.nack, 0⟩ ∧ t.statusRead = 0x01 ∧ t.txbuf = packedAB ∧ t.spent = ⟨23, 0, 0⟩
      ∧ t.env.bus.log = [.start, .byte 0x4E false, .stop])) = true := by decide +kernel

/-- V21: `BLNOW` with `BL` = 0. -/
theorem test_blnow : gives (exec .blnow { withDevice expander27 booted with addr := 0x27 }) (fun t =>
    decide (t.txbuf.get 0 = 0x04 ∧ t.txlen = 1 ∧ t.sentcnt = 1 ∧ t.spent = ⟨41, 0, 0⟩
      ∧ t.env.bus.log = [.start, .byte 0x4E true, .byte 0x04 true, .stop])) = true := by decide +kernel

/-- R174's example: after a `WBYTES 5` whose third byte failed. -/
theorem test_rdreg : gives (exec (.rdreg 4) { parkedOpen booted with sentcnt := 2, lastok := false })
      (fun t => decide (t.rsp = some ⟨.ok, 0x02⟩)) = true
    ∧ gives (exec (.rdreg 0) { parkedOpen booted with sentcnt := 2, lastok := false })
      (fun t => decide (t.rsp = some ⟨.ok, 0x03⟩)) = true := by decide +kernel

/-! ### Waits, timing, session -/

/-- V25: a clock held low leaves `BEGINW` in the wait of its ninth clock. -/
theorem test_stretch : gives (exec (.beginw 0x27) (clockLow (withDevice expander27 booted))) (fun t =>
    decide (t.busy = true ∧ t.cmdReady = false ∧ t.rsp = none ∧ t.sdaOut = true ∧ t.sclOut = true
      ∧ t.sclIn = false ∧ t.shreg = 0 ∧ t.bitcnt = 8 ∧ t.isOpen = true)) = true := by decide +kernel

/-- V23. -/
theorem test_hook_delays : hookDelay 3 5 = .enPrearm ∧ hookDelay 4 5 = .en ∧ hookDelay 1 3 = .enPrearm
    ∧ hookDelay 0 1 = .en ∧ hookDelay 0 2 = .enPrearm ∧ hookDelay 1 2 = .en := by decide

/-- V1: the cycles at 16 MHz and 100 kHz; and of a clock whose frequency is no whole number (R89 item 5:
`5 * 2.5 = 12.5` and `0.2 * 2.5`, `0.25 * 2.5` rounded up). -/
theorem test_delay_cycles :
    Delay.cycles (Config.Timing.offered (16000000 : ℚ)) .half = 80
      ∧ Delay.cycles (Config.Timing.offered (16000000 : ℚ)) .en = 4
      ∧ Delay.cycles (Config.Timing.offered (16000000 : ℚ)) .enPrearm = 4
      ∧ Delay.cycles (Config.Timing.offered (5000001 / 2 : ℚ)) .half = 13
      ∧ Delay.cycles (Config.Timing.offered (5000001 / 2 : ℚ)) .en = 1 := by decide +kernel

/-- R20, R43: whether a command under `ok` is presented depends on the response just read, not on the value
`ok` had before it. -/
theorem test_cmd_valid_reads_the_response :
    let s (st : Status) (ok : Bool) : State := { booted with
      rsp := some ⟨st, 0⟩
      host := { HostAgent.reset with ok := ok, tracking := true, queue := [.ifOk 0xC141] } }
    (s .ok false).cmdValid = true ∧ (s .nack true).cmdValid = false ∧ (s .ok false).cmdReady = true := by
  decide

/-- V26. -/
theorem test_set_address : setAddressByte .offered 4 0 = 0x84 ∧ setAddressByte .offered 15 1 = 0xCF
    ∧ setAddressByte .offered 5 2 = 0x95 ∧ setAddressByte .offered 15 3 = 0xDF := by decide +kernel

/-- V27 and S4: the wrap. -/
theorem test_put_char_wrap : putCharActs .offered 16 15 3 0x41
      = [.issue 0xD141, .cursor 16 3, .issue 0xD0D0, .cursor 0 3, .wait .move]
    ∧ putCharCursor 16 15 0 = (0, 1) := by decide +kernel

/-- V29. -/
theorem test_put_string_fast : putStringFastActs 0x27 3 1 [0x41, 0x42]
      = [.track 0x7027, .ifOk 0xC141, .ifOk 0xC142, .issue 0x8000, .cursor 5 1] := by decide +kernel

/-- The interface: a table word is presented and run. -/
theorem test_with_fetch_word :
    gives (step (State.reset.withFetchWord 16 0x1000)) (fun t => decide (t.initd = true)) = true := by
  decide +kernel

/-! ### Witnesses: what the hypotheses of the statements ask for, met together -/

/-- An empty script asserts no reset. -/
theorem noReset_of_empty {e : Env} (h : e.script = []) : e.noReset := fun n => by
  rw [Env.ahead_of_empty h]

/-- An empty script with the clock free keeps it free. -/
theorem clockFree_of_empty {e : Env} (h : e.script = []) (hs : e.scl = true) : e.clockFree := fun n => by
  rw [Env.ahead_of_empty h, hs]

/-- An empty script with the clock held keeps it held. -/
theorem clockHeld_of_empty {e : Env} (h : e.script = []) (hs : e.scl = false) : e.clockHeld := fun n => by
  rw [Env.ahead_of_empty h, hs]

/-- `DecodeOfEncodeIsIdentity`, `CommandsEndOnAFreeClock`, `OperandsComeFromTheirBits`: the value limits at
their ends. -/
theorem witness_wellFormed : (Instr.ldbuf 4 0xFF).wf = true ∧ (Instr.wbytes true 5).wf = true
    ∧ (Instr.rdreg 12).wf = true ∧ (Instr.rdreg 8).wf = true ∧ (Instr.rdreg 6).wf = true
    ∧ (Instr.beginw 0x7F).wf = true := by decide

/-- `LegalWordsHaveOneMeaning`, `OperandsComeFromTheirBits`. -/
theorem witness_legalWords : decode 0x5400 = some (.ldbuf 4 0) ∧ decode 0xF00C = some (.rdreg 12)
    ∧ decode 0x6805 = some (.wbytes true 5) := by decide

/-- Both sides of the opcode map, and the words just beyond the value limits. -/
theorem witness_opcodeMap :
    ((0x54FF : CmdWord) &&& (rowOf (.ldbuf 0 0)).mask = (rowOf (.ldbuf 0 0)).matchBits
        ∧ limitHolds 0x54FF = true)
      ∧ limitHolds 0x5500 = false ∧ limitHolds 0x6006 = false ∧ limitHolds 0xF007 = false
      ∧ limitHolds 0xF00D = false ∧ limitHolds 0x6005 = true ∧ limitHolds 0xF00C = true := by
  decide

/-- The block idle with a word presented, in each of the ways of the host. -/
theorem witness_stepRuns :
    booted.curOp = none ∧ (booted.withQueue [.issue 0x2000]).host.queue = [.issue 0x2000]
      ∧ (booted.withQueue [.track 0x7027]).host.queue = [.track 0x7027]
      ∧ decode 0x2000 = some .start ∧ decode 0x7027 = some (.beginw 0x27) ∧ decode 0x0000 = none
      ∧ decodeTableWord 16 0x7027 = some (.beginw 0x27)
      ∧ ({ booted with
            rsp := some ⟨.ok, 0⟩
            host := { HostAgent.reset with tracking := true, queue := [.ifOk 0xC141] } } :
            State).hostReads.host.ok = true := by decide

/-- `cmd_ready` without `cmd_valid`, the last clause of `StepRunsTheDecodedCommand`. -/
theorem witness_noCommandPresented : booted.cmdReady = true ∧ booted.cmdValid = false
    ∧ (booted.env.ahead 0).rst = false
    ∧ (booted.withQueue [.wait .move]).cmdValid = false := by decide

/-- `HookDelays`: legal parameters, the defaults and longer delays. -/
theorem witness_legalTiming : (Config.Timing.offered (16000000 : ℝ)).Legal
    ∧ (⟨5000001 / 2, 400000, 1, 1⟩ : Config.Timing ℝ).Legal := by
  refine ⟨⟨?_, ?_, le_refl _, le_refl _⟩, ⟨?_, ?_, ?_, ?_⟩⟩ <;>
    norm_num [Config.Timing.offered, Config.fSclHzDefault, Config.tEnMinUs, Config.tPrearmMinUs]

/-- The premises of `START`, `STOP`, `END`, `WBYTE`, `WBYTES`, `BEGINW`, `EMITC`, `SENDC`, `BLNOW` and
`ByteDrivesMsbFirst`, with no device that reacts. -/
theorem witness_freeClock : booted.initd = true ∧ booted.curOp = none ∧ booted.env.noReset
    ∧ booted.env.clockFree ∧ booted.env.expander = none ∧ booted.txbuf.wf = true :=
  ⟨rfl, rfl, noReset_of_empty rfl, clockFree_of_empty rfl rfl, rfl, rfl⟩

/-- The same with a device that reacts. -/
theorem witness_freeClock_device : (withDevice expander27 booted).env.noReset
    ∧ (withDevice expander27 booted).env.clockFree
    ∧ (withDevice expander27 booted).env.expander = some expander27 :=
  ⟨noReset_of_empty rfl, clockFree_of_empty rfl rfl, rfl⟩

/-- A command that ends and one that is left in a wait. -/
theorem witness_busyUntilTheResponse :
    (∃ t, exec .start booted = .next t ∧ decide (t.busy = false) = true)
      ∧ (∃ t, exec .stop (clockLow booted) = .next t ∧ decide (t.busy = true) = true)
      ∧ (clockLow booted).env.noReset :=
  ⟨exists_of_gives (by decide +kernel), exists_of_gives (by decide +kernel), noReset_of_empty rfl⟩

/-- `ResponseCoding`, `CommandsLeaveTheHostAlone`. -/
theorem witness_responseCoding :
    ∃ t, exec (.setbl true) booted = .next t ∧ decide (t.rsp = some ⟨.ok, 0⟩) = true :=
  exists_of_gives (by decide +kernel)

/-- `IllegalCommandChangesNothing`, `LineCommandsNeedInit`, and `rst` low at the next step. -/
theorem witness_illegal : (State.reset.env.ahead 0).rst = false ∧ decode 0x0000 = none
    ∧ Instr.needsInit .blnow = true ∧ State.reset.initd = false
    ∧ Instr.needsInit (.rdreg 12) = false ∧ (Instr.rdreg 12).wf = true := by decide

/-- `ResetTable`, `ResetAbandonsTheCommand`, in a clock-stretch wait. -/
theorem witness_reset : ((resetNext booted).env.ahead 0).rst = true
    ∧ ((resetNext (inStopWait .stop)).env.ahead 0).rst = true
    ∧ (resetNext (inStopWait .stop)).curOp = some .stop := by decide

/-- The last clauses of `SetaddrStoresTheAddress`, `SetblStoresTheFlag`, `RdregReturnsTheRegister`,
`LdbufStoresOneByte`, `PackFillsTheBuffer`. -/
theorem witness_illegalOperandBits :
    (opField 0x9080 = 9 ∧ (0x9080 : CmdWord).getLsbD 7 = true)
      ∧ (opField 0x9827 = 9 ∧ modField 0x9827 ≠ 0)
      ∧ (opField 0xA002 = 10 ∧ (0xA002 : CmdWord).extractLsb' 1 7 ≠ 0#7)
      ∧ (opField 0xA101 = 10 ∧ modField 0xA101 ≠ 0)
      ∧ (opField 0xF010 = 15 ∧ (0xF010 : CmdWord).extractLsb' 4 8 ≠ 0#8)
      ∧ (opField 0x5C00 = 5 ∧ (0x5C00 : CmdWord).getLsbD 11 = true)
      ∧ (opField 0xB400 = 11 ∧ (0xB400 : CmdWord).extractLsb' 10 2 ≠ 0#2) := by decide

/-- A word for each word-level clause on a store index, a register number and a byte count that the
encoding does not admit. -/
theorem witness_refusedWords : (opField 0x5500 = 5 ∧ decode 0x5500 = none)
    ∧ (opField 0xF007 = 15 ∧ legalReg 7 = false ∧ decode 0xF007 = none)
    ∧ (opField 0x6006 = 6 ∧ decode 0x6006 = none) := by decide

/-- A block with a command running, and an idle block with nothing queued. -/
theorem witness_busyAndIdle : (inStopWait .stop).curOp = some .stop
    ∧ booted.curOp = none ∧ booted.host.queue = [] := by decide

/-- Every register number of each clause, the ends of the ranges among them. -/
theorem witness_registerNumbers : legalReg 0 = true ∧ legalReg 6 = true ∧ legalReg 8 = true
    ∧ legalReg 12 = true ∧ 8 ≤ (8 : BitVec 4).toNat ∧ 8 ≤ (12 : BitVec 4).toNat
    ∧ legalReg 7 = false ∧ legalReg 13 = false := by decide

/-- `LdbufStoresOneByte`, `PackFillsTheBuffer`. -/
theorem witness_bufferIndices : State.reset.txbuf.wf = true ∧ packedAB.wf = true
    ∧ (4 : BitVec 3).toNat ≤ 4 ∧ (0 : BitVec 3).toNat ≤ 4 ∧ 5 ≤ (5 : BitVec 3).toNat
    ∧ 5 ≤ (7 : BitVec 3).toNat := by decide

/-- `PackedPhases`, `ControlBitsOfEachPhase`, `StrobesOfAPackedByte`. -/
theorem witness_packing : (0x32 : Byte) &&& 0x0F = (0x02 : Byte) &&& 0x0F
    ∧ 4 < packedCount .full ∧ 2 < packedCount .nibble ∧ (0xFF : Byte).getLsbD 2 = true := by decide

/-- `WbytesStopsAtTheFirstNack`, `WbytesOfNothing`, `HookDelays`. -/
theorem witness_counts : 0 < Config.fSclHzDefault ∧ 1 ≤ (1 : BitVec 3).toNat ∧ (5 : BitVec 3).toNat ≤ 5 ∧ 6 ≤ (6 : BitVec 3).toNat
    ∧ 6 ≤ (7 : BitVec 3).toNat := by decide

/-- `WaitStaysWhileTheClockIsLow`, `HeldClockHangsForever`. -/
theorem witness_wait : (clockLow (inStopWait .stop)).waiting = true
    ∧ ((clockLow (inStopWait .stop)).env.ahead 0).scl = false
    ∧ (clockLow (inStopWait .stop)).rsp = none
    ∧ (clockLow (inStopWait .stop)).env.clockHeld ∧ (clockLow (inStopWait .stop)).env.noReset :=
  ⟨rfl, rfl, rfl, clockHeld_of_empty rfl rfl, noReset_of_empty rfl⟩

/-- `StretchedStopCompletes`. -/
theorem witness_stretchedStop : (inStopWait .endt).curOp = some .endt
    ∧ (inStopWait .endt).ustep = .stop .waitScl ∧ (inStopWait .endt).sclOut = true
    ∧ (inStopWait .stop).curOp = some .stop
    ∧ (inStopWait .endt).env.noReset ∧ ((inStopWait .endt).env.ahead 0).scl = true :=
  ⟨rfl, rfl, rfl, rfl, noReset_of_empty rfl, rfl⟩

/-- `StretchedByteCompletes`, `FromAWaitTheCommandEnds`. -/
theorem witness_stretchedByte : (inByteWait 0x4E).Inv ∧ (inByteWait 0x4E).waiting = true
    ∧ (inByteWait 0x4E).curOp = some (.wbyte 0x4E) ∧ (inByteWait 0x4E).ustep = .byte .single .ackWait
    ∧ (inByteWait 0x4E).env.noReset ∧ (inByteWait 0x4E).env.clockFree
    ∧ (inByteWait 0x4E).env.expander = none :=
  ⟨by decide, rfl, rfl, rfl, noReset_of_empty rfl, clockFree_of_empty rfl rfl, rfl⟩

/-- `StartConditionOnTheWire`: idle and high, and parked. -/
theorem witness_startConditionOnTheWire :
    (booted.initd = true ∧ booted.env.script = [] ∧ InSync booted ∧ (booted.sdaIn && booted.sclIn) = true)
      ∧ ((parkedOpen booted).initd = true ∧ (parkedOpen booted).env.script = []
        ∧ InSync (parkedOpen booted) ∧ (parkedOpen booted).sdaIn = false) :=
  ⟨⟨rfl, rfl, ⟨rfl, rfl⟩, rfl⟩, ⟨rfl, rfl, ⟨rfl, rfl⟩, rfl⟩⟩

/-- `StopConditionOnTheWire`: parked, and idle. -/
theorem witness_stopConditionOnTheWire :
    ((parkedOpen booted).initd = true ∧ (parkedOpen booted).env.script = []
      ∧ (parkedOpen booted).env.scl = true ∧ InSync (parkedOpen booted)
      ∧ (parkedOpen booted).env.bus.nbits = 0 ∧ (parkedOpen booted).parked = true)
      ∧ (booted.initd = true ∧ booted.env.script = [] ∧ booted.env.scl = true ∧ InSync booted
        ∧ booted.env.bus.nbits = 0 ∧ booted.released = true) :=
  ⟨⟨rfl, rfl, rfl, ⟨rfl, rfl⟩, rfl, rfl⟩, ⟨rfl, rfl, rfl, ⟨rfl, rfl⟩, rfl, rfl⟩⟩

/-- The inputs past the first `k`. -/
theorem ahead_add (k n : Nat) (e : Env) : e.ahead (n + k) = (Nat.repeat Env.advance k e).ahead n := by
  induction k generalizing n e with
  | zero => rfl
  | succ k ih => rw [show n + (k + 1) = (n + 1) + k by omega, ih, Env.ahead]; rfl

/-- A device that holds the data line low over the ninth clock of the next byte. -/
def holdsNinth : State :=
  { parkedOpen booted with
      env := { (parkedOpen booted).env with
        script := List.replicate 40 ⟨true, true, false⟩ ++ List.replicate 7 ⟨false, true, false⟩
          ++ [⟨true, true, false⟩] } }

/-- `ByteOnTheWire`: its premises on the inputs, the last line, say no reset and a free clock too. -/
theorem witness_byteOnTheWire : holdsNinth.initd = true ∧ holdsNinth.parked = true ∧ InSync holdsNinth
    ∧ holdsNinth.env.bus.active = true ∧ holdsNinth.env.bus.nbits = 0 ∧ holdsNinth.env.expander = none
    ∧ (∀ n, holdsNinth.env.ahead n = ⟨!(true && decide (40 ≤ n) && decide (n ≤ 46)), true, false⟩) := by
  refine ⟨rfl, rfl, ⟨rfl, rfl⟩, rfl, rfl, rfl, fun n => ?_⟩
  by_cases h : n < 48
  · have : ∀ m : Fin 48, holdsNinth.env.ahead m
        = ⟨!(true && decide (40 ≤ m.val) && decide (m.val ≤ 46)), true, false⟩ := by decide +kernel
    exact this ⟨n, h⟩
  · obtain ⟨m, rfl⟩ := Nat.exists_eq_add_of_le (show 48 ≤ n by omega)
    have he : (Nat.repeat Env.advance 48 holdsNinth.env).script = []
        ∧ (Nat.repeat Env.advance 48 holdsNinth.env).sda = true
        ∧ (Nat.repeat Env.advance 48 holdsNinth.env).scl = true := by decide +kernel
    rw [Nat.add_comm, ahead_add, Env.ahead_of_empty he.1, he.2.1, he.2.2]
    simp

/-- At most `n` more steps of a command that has not responded. -/
def carry : Nat → State → Result
  | 0, t => .next t
  | n + 1, t => if t.busy && t.rsp.isNone then andThen (step t) (carry n) else .next t

theorem carried_of_carry {i : Instr} {s t u : State} (n : Nat) (h : Carried i s t)
    (hu : carry n t = .next u) : Carried i s u := by
  induction n generalizing t with
  | zero => cases hu; exact h
  | succ n ih =>
    rw [carry] at hu
    split at hu
    · next hb =>
      simp only [Bool.and_eq_true, Option.isNone_iff_eq_none] at hb
      cases hs : step t with
      | next v => rw [hs, andThen_next] at hu; exact ih (h.goesOn hb.1 hb.2 hs) hu
      | fault r => rw [hs] at hu; cases hu
      | refused r => rw [hs] at hu; cases hu
    · cases hu; exact h

/-- A device that holds the clock low at the next `n` steps. -/
def slowClock (n : Nat) (s : State) : State :=
  { s with env := { s.env with
      script := List.replicate n ⟨true, false, false⟩ ++ [⟨true, true, false⟩] } }

/-- What `carry` leads to is where the command stands. -/
theorem carried_of_gives {i : Instr} {s : State} (n : Nat) {p : State → Bool}
    (h : gives (andThen (exec i s) (carry n)) p = true) : ∃ t, Carried i s t ∧ p t = true := by
  cases hs : exec i s with
  | next u =>
    rw [hs, andThen_next] at h
    obtain ⟨t, ht, hp⟩ := exists_of_gives h
    exact ⟨t, carried_of_carry n (.accepted hs) ht, hp⟩
  | fault r => rw [hs] at h; cases h
  | refused r => rw [hs] at h; cases h

/-- The clock of `slowClock` is free at last, and there is no reset. -/
theorem slowClock_noReset : (slowClock 60 booted).env.noReset := by
  have h61 : (Nat.repeat Env.advance 61 (slowClock 60 booted).env).script = [] := by decide +kernel
  have hlow : ∀ m : Fin 61, ((slowClock 60 booted).env.ahead m).rst = false := by decide +kernel
  intro n
  by_cases h : n < 61
  · exact hlow ⟨n, h⟩
  · obtain ⟨m, rfl⟩ := Nat.exists_eq_add_of_le (show 61 ≤ n by omega)
    rw [Nat.add_comm, ahead_add, Env.ahead_of_empty h61]

/-- `BeginThenEndReturnsToIdle` and the clauses on `Carried` of `BeginwSendsTheFrame`: the address byte is
kept waiting for more than one step, and both commands end. -/
theorem witness_beginThenEnd : (slowClock 60 booted).env.noReset ∧ (slowClock 60 booted).initd = true
    ∧ (∃ t, exec (.beginw 0x27) (slowClock 60 booted) = .next t ∧ decide (t.busy = true) = true)
    ∧ (∃ t, Carried (.beginw 0x27) (slowClock 60 booted) t
        ∧ (decide (t.busy = false)
            && gives (exec .endt t) fun u => decide (u.busy = false)) = true) :=
  ⟨slowClock_noReset, rfl, exists_of_gives (by decide +kernel), carried_of_gives 20 (by decide +kernel)⟩

/-- `EndIsAStopCondition`: a stop condition kept waiting. -/
theorem witness_slowStop : (∃ t, exec .stop (slowClock 10 booted) = .next t
      ∧ decide (t.busy = true) = true)
    ∧ (∃ t, Carried .stop (slowClock 10 booted) t ∧ decide (t.busy = false) = true) :=
  ⟨exists_of_gives (by decide +kernel), carried_of_gives 10 (by decide +kernel)⟩

/-- `NackIsRecorded` and the frames, of commands kept waiting: the first byte's clock is held, and each
command ends at a later step. -/
theorem witness_carried : ∀ i ∈ [Instr.stop, .endt, .wbyte 0x4E, .beginw 0x27, .wbytes false 2,
      .emitc .nibble .data 0x0B, .sendc .full .command 0x28, .blnow],
    ∃ t, Carried i (slowClock 60 booted) t ∧ decide (t.busy = false) = true := by
  intro i hi
  simp only [List.mem_cons, List.not_mem_nil, or_false] at hi
  rcases hi with rfl | rfl | rfl | rfl | rfl | rfl | rfl | rfl <;>
    exact carried_of_gives 60 (by decide +kernel)

/-- `SendcReachesTheExpander`. -/
theorem witness_sendcReachesTheExpander :
    let s := configured (withDevice expander27 booted)
    s.initd = true ∧ s.txbuf.wf = true ∧ s.released = true ∧ s.env.bus.sda = true
      ∧ s.env.bus.scl = true ∧ s.env.noReset ∧ s.env.clockFree ∧ (∀ n, (s.env.ahead n).sda = true)
      ∧ s.env.expander = some expander27 ∧ expander27.acks = none ∧ expander27.address = s.addr
      ∧ expander27.driving = false :=
  ⟨rfl, rfl, rfl, rfl, rfl, noReset_of_empty rfl, clockFree_of_empty rfl rfl,
    fun n => by rw [Env.ahead_of_empty rfl]; rfl, rfl, rfl, rfl, rfl⟩

/-- `AbsentDeviceTranscript`. -/
theorem witness_absentDeviceTranscript :
    booted.initd = true ∧ booted.released = true ∧ booted.env.bus.sda = true
      ∧ booted.env.bus.scl = true ∧ booted.env.expander = none ∧ booted.env.noReset
      ∧ booted.env.clockFree ∧ (∀ n, (booted.env.ahead n).sda = true) :=
  ⟨rfl, rfl, rfl, rfl, rfl, noReset_of_empty rfl, clockFree_of_empty rfl rfl,
    fun n => by rw [Env.ahead_of_empty rfl]; rfl⟩

/-- A nack of each command that can answer one. -/
theorem witness_nack : ∀ i ∈ [Instr.wbyte 0x4E, .beginw 0x27, .wbytes true 5, .emitc .full .data 0xAB,
      .sendc .nibble .command 0x03, .blnow],
    ∃ t, exec i booted = .next t ∧ decide (t.rsp = some ⟨.nack, 0⟩) = true := by
  intro i hi
  simp only [List.mem_cons, List.not_mem_nil, or_false] at hi
  rcases hi with rfl | rfl | rfl | rfl | rfl | rfl <;> exact exists_of_gives (by decide +kernel)

/-- A next state of each command that the frames speak of. -/
theorem witness_frames : ∀ i ∈ [Instr.start, .stop, .endt, .wbyte 0x4E, .beginw 0x27, .wbytes false 2,
      .emitc .nibble .data 0x0B, .sendc .full .command 0x28, .blnow],
    ∃ t, exec i booted = .next t ∧ decide (t.curOp = none) = true := by
  intro i hi
  simp only [List.mem_cons, List.not_mem_nil, or_false] at hi
  rcases hi with rfl | rfl | rfl | rfl | rfl | rfl | rfl | rfl | rfl <;>
    exact exists_of_gives (by decide +kernel)

/-- States that meet the invariant: reset, inside a transaction, inside a byte, in a wait. -/
theorem witness_invariant : State.reset.Inv ∧ (parkedOpen booted).Inv ∧ (inByteWait 0x4E).Inv
    ∧ (inStopWait .endt).Inv ∧ ({ booted with txbuf := packedAB, txlen := 5 } : State).Inv
    ∧ (∃ t, step (inStopWait .endt) = .next t ∧ decide (t.curOp = none) = true) :=
  ⟨by decide, by decide, by decide, by decide, by decide, exists_of_gives (by decide +kernel)⟩

/-- `UninitialisedModeTouchesNoLine`. -/
theorem witness_uninitialised : State.reset.mode = .uninitialised ∧ Instr.sendc .full .data 0xAB ≠ .init
    ∧ (∃ t, exec (.sendc .full .data 0xAB) State.reset = .next t
        ∧ decide (t.rsp = some ⟨.illegal, 0⟩) = true) :=
  ⟨rfl, by decide, exists_of_gives (by decide +kernel)⟩

/-- A session ready, its cursor in the last cell. -/
def readySession : Session := { width := 16, curX := 15, curY := 3, state := .ready }

/-- `SessionNeedsInitialize`, `CursorStaysOnScreen`, `TrackedCursorOfEachOperation`. -/
theorem witness_session : State.reset.host.session.state = .uninitialized
    ∧ readySession.cursorOk ∧ readySession.state = .ready
    ∧ (SessionOp.moveCursor 15 3).expand .offered 0x27 readySession ≠ none
    ∧ (SessionOp.clear).expand .offered 0x27 readySession ≠ none
    ∧ (SessionOp.putChar 0x41).expand .offered 0x27 readySession ≠ none
    ∧ (SessionOp.putStringFast [0x41]).expand .offered 0x27 readySession ≠ none
    ∧ (SessionOp.putStringAtFast 0 0 [0x41]).expand .offered 0x27 readySession ≠ none
    ∧ (SessionOp.setup 0x27 1 true).expand .offered 0x27 readySession ≠ none
    ∧ (SessionOp.setup 0x27 40 true).expand .offered 0x27 readySession ≠ none
    ∧ (SessionOp.putString [0x41, 0x42]).expand .offered 0x27 readySession ≠ none
    ∧ (SessionOp.setBacklight true true).expand .offered 0x27 readySession ≠ none
    ∧ (SessionOp.askBacklight).expand .offered 0x27 readySession ≠ none
    ∧ (SessionOp.askWidth).expand .offered 0x27 readySession ≠ none
    ∧ (SessionOp.askColumn).expand .offered 0x27 readySession ≠ none
    ∧ (SessionOp.askRow).expand .offered 0x27 readySession ≠ none :=
  ⟨rfl, ⟨by decide, by decide⟩, rfl, by decide, by decide, by decide, by decide, by decide, by decide,
    by decide, by decide, by decide, by decide, by decide, by decide, by decide⟩

/-- `SessionNeedsInitialize`, its clause on the accessor of the backlight flag;
`TrackedCursorOfEachOperation`, a step on a cursor update. -/
theorem witness_sessionStep :
    ((booted.withSession readySession).call .offered .askBacklight).isSome = true
      ∧ ((booted.withSession readySession).env.ahead 0).rst = false
      ∧ (booted.withQueue [.cursor 3 1]).host.queue = [.cursor 3 1]
      ∧ HostAct.command (.cursor 3 1) = none ∧ (booted.withQueue [.cursor 3 1]).curOp = none
      ∧ gives (step (booted.withQueue [.cursor 3 1]))
          (fun t => decide (t.host.session.curX = 3 ∧ t.host.session.curY = 1)) = true := by
  decide

/-- A NACK has just come that the host waits for. -/
def heardNack : State :=
  { booted with rsp := some ⟨.nack, 0⟩, host := { HostAgent.reset with ok := true, tracking := true } }

/-- `FailedBatchIsStillClosed`. -/
theorem witness_failedBatch : (booted.withQueue [.ifOk 0xC141]).curOp = none
    ∧ (booted.withQueue [.ifOk 0xC141]).hostReads.host.ok = false
    ∧ ((booted.withQueue [.ifOk 0xC141]).env.ahead 0).rst = false
    ∧ gives (step (booted.withQueue [.track 0x7027])) (fun t => t.host.tracking) = true
    ∧ heardNack.rsp = some ⟨.nack, 0⟩ ∧ heardNack.host.tracking = true
    ∧ heardNack.hostReads.host.ok = false := by
  decide +kernel

end Sys2Proof.Tests
end

/-! PROOF. No command changes the host's part of the state, `rst` included (R2, R20, R41): a frame lemma
for each way a command's effect is put together, down to `exec` and the further steps it takes. -/

namespace Sys2Proof.Machine

variable {i : Instr} {s t : State}

/-! ### How shared operations answer -/

/-- A result carried on answers a next state only through one. -/
theorem andThen_eq_next {o : Result} {f : State → Result} :
    andThen o f = .next t ↔ ∃ u, o = .next u ∧ f u = .next t := by
  cases o <;> simp [andThen]

/-- What the checks before a command's first step can answer (R214): a refusal, or the command's run. -/
theorem checked_cases (i : Instr) (s : State) (run : State → Result) :
    checked i s run = illegalCommand s ∨ checked i s run = run s := by
  unfold checked
  split
  · exact .inl rfl
  · split
    · exact .inl rfl
    · exact .inr rfl

/-- What every tick keeps, `rst` included, a run of the command keeps. -/
theorem runSteps_preserves {P : State → Prop}
    (hP : ∀ {s t : State}, P s → tick s = .next t → P t) :
    ∀ (n : Nat) {s t : State}, P s → runSteps n s = .next t → P t := by
  intro n
  induction n with
  | zero => intro s t hs h; cases h; exact hs
  | succ n ih =>
    intro s t hs h
    obtain ⟨u, hu, h⟩ := andThen_eq_next.mp h
    split at h
    · exact ih (hP hs hu) h
    · cases h; exact hP hs hu

/-! ### The host through them -/

/-- A clocked step keeps the host if its effect does: `rst` keeps it (log entry 12). -/
theorem clocked_host {f : State → Result} (hf : f s.latch = .next t → t.host = s.host)
    (h : clocked s f = .next t) : t.host = s.host := by
  rcases clocked_cases s f with hc | hc
  · rw [hc] at h; cases h; rfl
  · exact hf (hc ▸ h)

theorem illegalCommand_host (h : illegalCommand s = .next t) : t.host = s.host :=
  clocked_host (fun h => by cases h; rfl) h

theorem checked_host {run : State → Result} (h : checked i s run = .next t)
    (hrun : run s = .next t → t.host = s.host) : t.host = s.host := by
  rcases checked_cases i s run with hc | hc
  · exact illegalCommand_host (hc ▸ h)
  · exact hrun (hc ▸ h)

theorem oneStep_host {f : State → State} {d : State → Byte} (hf : ∀ u, (f u).host = u.host)
    (h : oneStep s f d = .next t) : t.host = s.host :=
  clocked_host (fun h => by cases h; exact hf s.latch) h

theorem tick_host (h : tick s = .next t) : t.host = s.host :=
  clocked_host (fun h => (primitive_keeps h).host) h

theorem runCommand_host (h : runCommand s = .next t) : t.host = s.host :=
  runSteps_preserves (P := fun u => u.host = s.host) (fun hu h => (tick_host h).trans hu) _ rfl h

/-- A command that enters the byte loop at once and runs (R112, R145). -/
theorem beginLoop_runCommand_host (h : andThen (beginLoop i s) runCommand = .next t) :
    t.host = s.host := by
  obtain ⟨u, hu, h⟩ := andThen_eq_next.mp h
  exact (runCommand_host h).trans (beginLoop_keeps hu).host

/-! ### Whole commands -/

/-- A command is one step, or it writes registers of the block and runs from there; neither is the
host's. -/
theorem exec_host (h : exec i s = .next t) : t.host = s.host := by
  unfold exec at h
  cases i with
  | init => exact checked_host h (oneStep_host fun _ => rfl)
  | start => exact checked_host h runCommand_host
  | stop => exact checked_host h runCommand_host
  | wbyte v => exact checked_host h runCommand_host
  | ldbuf idx v => exact checked_host h (oneStep_host fun _ => rfl)
  | wbytes hk n =>
    refine checked_host h fun h => ?_
    split at h
    · refine oneStep_host (fun _ => ?_) h
      rfl
    · exact (beginLoop_runCommand_host h).trans rfl
  | beginw a => exact checked_host h runCommand_host
  | endt => exact checked_host h runCommand_host
  | setaddr a => exact checked_host h (oneStep_host fun _ => rfl)
  | setbl b => exact checked_host h (oneStep_host fun _ => rfl)
  | pack size kind v => exact checked_host h (oneStep_host fun _ => rfl)
  | emitc size kind v => exact checked_host h beginLoop_runCommand_host
  | sendc size kind v => exact checked_host h runCommand_host
  | blnow => exact checked_host h runCommand_host
  | rdreg r => exact checked_host h (oneStep_host fun _ => rfl)

/-- A further step of a command that has not responded keeps the host too. -/
theorem step_host_of_running (hb : s.busy = true) (hn : s.rsp = none) (h : step s = .next t) :
    t.host = s.host := by
  obtain ⟨j, hj⟩ := Option.isSome_iff_exists.mp hb
  exact runCommand_host (step_of_running hj hn ▸ h)

/-- Settles O52, by induction on the further steps the command takes. -/
theorem commandsLeaveTheHostAlone : Obligations.CommandsLeaveTheHostAlone := by
  unfold Obligations.CommandsLeaveTheHostAlone
  intro i s t h
  induction h with
  | accepted h => exact exec_host h
  | goesOn _ hb hn h ih => exact (step_host_of_running hb hn h).trans ih

end Sys2Proof.Machine

/-! PROOF. A whole command, said once: what `exec` can do (R100, R214), what a step answers that samples
`rst` 1 (R240), and the two columns of R44's table. -/

namespace Sys2Proof.Machine

/-- The whole effect of a command that takes one step (log entry 3). -/
def effect : Instr → State → State
  | .init, t => State.observe { t with
      sdaOut := true, sclOut := true, shreg := 0, bitcnt := 0, isOpen := false, initd := true }
  | .ldbuf idx v, t => { t with txbuf := t.txbuf.write idx.toNat v }
  | .wbytes _ _, t => { t with sentcnt := 0, byteidx := 0 }
  | .setaddr a, t => { t with addr := a }
  | .setbl b, t => { t with bl := b }
  | .pack size kind v, t => t.packed size kind v
  | .rdreg _, t => t
  | .start, t => t
  | .stop, t => t
  | .wbyte _, t => t
  | .beginw _, t => t
  | .endt, t => t
  | .emitc _ _ _, t => t
  | .sendc _ _ _, t => t
  | .blnow, t => t

/-- The `DATA` of the response to a command that takes one step (R84). -/
def answer : Instr → State → Byte
  | .rdreg r, t => t.readReg r
  | .init, _ => 0
  | .start, _ => 0
  | .stop, _ => 0
  | .wbyte _, _ => 0
  | .ldbuf _ _, _ => 0
  | .wbytes _ _, _ => 0
  | .beginw _, _ => 0
  | .endt, _ => 0
  | .setaddr _, _ => 0
  | .setbl _, _ => 0
  | .pack _ _ _, _ => 0
  | .emitc _ _ _, _ => 0
  | .sendc _ _ _, _ => 0
  | .blnow, _ => 0

/-- The first byte of a byte loop, loaded (R112). -/
def loopHead (s : State) : State :=
  beginByte .data (s.txbuf.get 0) { s with sentcnt := 0, byteidx := 0 }

/-- The state in which a command that drives the lines stands at its first step: accepted, with the
registers written that its body writes before it (R100, R112, R144, R147). -/
def entered : Instr → State → State
  | .start, s => s.accept .start (.start .fallSda)
  | .stop, s => s.accept .stop (.stop .fallSda)
  | .endt, s => s.accept .endt (.stop .fallSda)
  | .wbyte v, s => beginByte .single v (s.accept (.wbyte v) (.byte .single .putBit))
  | .wbytes h n, s => loopHead (s.accept (.wbytes h n) .idle)
  | .beginw a, s => s.accept (.beginw a) (.start .fallSda)
  | .emitc size kind v, s =>
    loopHead ((s.packed size kind v).accept (.emitc size kind v) .idle)
  | .sendc size kind v, s =>
    (s.packed size kind v).accept (.sendc size kind v) (.start .fallSda)
  | .blnow, s => s.packedBacklight.accept .blnow (.start .fallSda)
  | .init, s => s
  | .ldbuf _ _, s => s
  | .setaddr _, s => s
  | .setbl _, s => s
  | .pack _ _ _, s => s
  | .rdreg _, s => s

variable {i : Instr} {s t : State}

theorem entered_env (i : Instr) (s : State) : (entered i s).env = s.env := by cases i <;> rfl

theorem entered_curOp (h : i.needsInit = true) (s : State) : (entered i s).curOp = some i := by
  cases i with
  | init | ldbuf | setaddr | setbl | pack | rdreg => cases h
  | _ => rfl

theorem packed_txlen_ne_zero (size : Size) (kind : Kind) (v : Byte) (s : State) :
    (s.packed size kind v).txlen ≠ 0 := by cases size <;> simp

/-- A byte loop with something to send begins with the byte at index 0, which always exists (R60, R112). -/
theorem beginLoop_of_count (h : byteCount s i ≠ 0) : beginLoop i s = .next (loopHead s) := by
  have hc : byteCount { s with sentcnt := 0, byteidx := 0 } i ≠ 0 := by
    rwa [byteCount_of_txlen (s := s) (t := { s with sentcnt := 0, byteidx := 0 }) rfl]
  rw [beginLoop, if_neg hc]
  rfl

/-- What the checks before a command's first step leave of it (R214). -/
theorem checked_legal (i : Instr) (s : State) (run : State → Result) :
    checked i s run = illegalCommand s
      ∨ (i.wf = true ∧ (i.needsInit = true → s.initd = true) ∧ checked i s run = run s) := by
  unfold checked
  split
  · exact .inl rfl
  · split
    · exact .inl rfl
    · next hw hn => exact .inr ⟨by simpa using hw, by simpa using hn, rfl⟩

/-- Whether a command takes more than one step: it drives the lines, and `WBYTES` has something to send
(log entry 3). -/
def drives : Instr → Bool
  | .wbytes _ n => decide (n ≠ 0)
  | .start => true
  | .stop => true
  | .wbyte _ => true
  | .beginw _ => true
  | .endt => true
  | .emitc _ _ _ => true
  | .sendc _ _ _ => true
  | .blnow => true
  | .init => false
  | .ldbuf _ _ => false
  | .setaddr _ => false
  | .setbl _ => false
  | .pack _ _ _ => false
  | .rdreg _ => false

theorem needsInit_of_drives (h : drives i = true) : i.needsInit = true := by
  cases i with
  | init | ldbuf | setaddr | setbl | pack | rdreg => cases h
  | _ => rfl

/-- A command past its checks: a run from its first step, or one step. -/
def course (i : Instr) (s : State) : Result :=
  if drives i then runCommand (entered i s) else oneStep s (effect i) (answer i)

/-- A command is its checks and then its course (R100, R214). -/
theorem exec_eq_checked (i : Instr) (s : State) : exec i s = checked i s (course i) := by
  cases i with
  | wbytes hk n =>
    rw [exec, execWbytes]
    congr 1
    funext u
    by_cases hn : n = 0
    · subst hn; rfl
    · have hb : byteCount (u.accept (.wbytes hk n) .idle) (.wbytes hk n) ≠ 0 := hn
      have hd : drives (.wbytes hk n) = true := decide_eq_true hn
      rw [if_neg hn, beginLoop_of_count hb, course, if_pos hd]
      rfl
  | emitc size kind v =>
    rw [exec, execEmitc]
    congr 1
    funext u
    have hb : byteCount ((u.packed size kind v).accept (.emitc size kind v) .idle)
        (.emitc size kind v) ≠ 0 := packed_txlen_ne_zero size kind v u
    simp [course, drives, entered, beginLoop_of_count hb]
  | _ => rfl

/-- What a command can do: it is refused, or it is legal and takes its course. -/
theorem exec_cases (i : Instr) (s : State) :
    exec i s = illegalCommand s
      ∨ (i.wf = true ∧ (i.needsInit = true → s.initd = true) ∧ exec i s = course i s) := by
  rw [exec_eq_checked]
  exact checked_legal i s (course i)

theorem checked_of_legal (hw : i.wf = true) (hi : i.needsInit = true → s.initd = true)
    (run : State → Result) : checked i s run = run s := by
  have hn : (i.needsInit && !s.initd) = false := by
    cases h : i.needsInit
    · rfl
    · rw [hi h]; rfl
  rw [checked, if_neg (by simp [hw]), if_neg (by simp [hn])]

/-- A legal command of one step, `rst` low: its effect, and the response OK. -/
theorem exec_of_oneStep (hw : i.wf = true) (hi : i.needsInit = true → s.initd = true)
    (hd : drives i = false) (h0 : (s.env.ahead 0).rst = false) :
    exec i s = .next ((effect i s.latch).finish .ok (answer i s.latch)) := by
  rw [exec_eq_checked, checked_of_legal hw hi, course, if_neg (by simp [hd]), oneStep,
    clocked_of_low h0]

/-! ### `rst` -/

/-- A tick of a running command that samples `rst` 1 ends the run (R241). -/
theorem runCommand_of_rst (h : (s.env.ahead 0).rst = true) :
    runCommand s = .next s.latch.resetBlock :=
  runSteps_of_end _ (clocked_of_rst h _) rfl

/-- Every command's first step resets the block when it samples `rst` 1 (R240, R241). -/
theorem exec_of_rst (h : (s.env.ahead 0).rst = true) (i : Instr) :
    ∃ u : State, exec i s = .next u.resetBlock := by
  obtain hc | ⟨-, -, hc⟩ := exec_cases i s <;> rw [hc]
  · exact ⟨_, clocked_of_rst h _⟩
  · unfold course
    split
    · exact ⟨_, runCommand_of_rst (by rwa [entered_env])⟩
    · exact ⟨_, clocked_of_rst h _⟩

theorem hostStep_of_rst (h : (s.env.ahead 0).rst = true) :
    ∃ u : State, hostStep s = .next u.resetBlock := by
  have hidle : ∀ {v : State}, (v.env.ahead 0).rst = true →
      ∃ u : State, idleStep v = .next u.resetBlock := fun h => ⟨_, clocked_of_rst h _⟩
  have hword : ∀ {v : State} (w : CmdWord), (v.env.ahead 0).rst = true →
      ∃ u : State, issueWord w v = .next u.resetBlock := by
    intro v w h
    unfold issueWord
    split
    · exact exec_of_rst h _
    · exact ⟨_, clocked_of_rst h _⟩
  unfold hostStep
  split
  · exact hidle h
  · next a q _ =>
    cases a with
    | issue w => exact hword w h
    | track w => exact hword w h
    | ifOk w =>
      rw [hostAct]
      split
      · exact hword w h
      · exact hidle h
    | wait t => exact hidle h
    | width w => exact hidle h
    | cursor x y => exact hidle h
    | ready => exact hidle h

/-- A step of the machine that samples `rst` 1 resets the block, whatever runs or is presented (R240). -/
theorem step_of_rst (h : (s.env.ahead 0).rst = true) : ∃ u : State, step s = .next u.resetBlock := by
  have h' : (s.hostReads.env.ahead 0).rst = true := by rwa [hostReads_env]
  unfold step machineStep
  split
  · exact ⟨_, runCommand_of_rst h'⟩
  · exact hostStep_of_rst h'

/-- The reset column, and the mode it gives (R44, R218). -/
theorem resetColumn_resetBlock (s : State) :
    ResetColumn s.resetBlock ∧ s.resetBlock.mode = .uninitialised :=
  ⟨⟨rfl, rfl, rfl, rfl, rfl, fun _ => rfl, rfl, rfl, rfl, rfl, rfl, rfl, rfl, rfl, rfl, rfl⟩, rfl⟩

/-- Settles O13: `rst` wins over whatever a step does, and `INIT` is its one step's effect. -/
theorem resetTable : Obligations.ResetTable := by
  unfold Obligations.ResetTable
  refine ⟨resetColumn_resetBlock State.reset, fun s h => ?_, fun s h => ?_⟩
  · obtain ⟨u, hu⟩ := step_of_rst h
    exact ⟨_, hu, resetColumn_resetBlock u⟩
  · have hi : Instr.init.needsInit = true → s.initd = true := nofun
    exact ⟨_, exec_of_oneStep rfl hi rfl h, rfl, rfl, rfl, rfl, rfl, rfl, rfl, rfl, rfl, ⟨rfl, rfl⟩,
      fun _ => rfl, rfl, rfl, rfl, rfl⟩

end Sys2Proof.Machine

/-! PROOF. The invariant through a whole step of the machine: between commands, through the acceptance of
a command, and through what the host does (R25, R26, R29, R30, R89, R110, R176). -/

namespace Sys2Proof.Machine

/-- What the invariant says of the block between commands. -/
structure Resting (s : State) : Prop where
  op : s.curOp = none
  ustep : s.ustep = .idle
  buf : s.txbuf.wf = true
  timer : s.timer = 0
  bits : s.bitcnt.toNat ≤ 8
  idx : s.byteidx.toNat ≤ 4
  len : s.txlen.toNat ≤ 5
  sent : s.sentcnt.toNat ≤ 5
  uninit : s.initd = true ∨ (s.released = true ∧ s.isOpen = false)
  lines : linesAt s.isOpen s.sdaOut s.sclOut .idle = true

variable {i : Instr} {s t : State}

theorem inv_of_resting (r : Resting s) : s.Inv := by
  refine ⟨r.buf, ?_, ?_, ?_, r.ustep ▸ r.lines, r.timer⟩
  · simp [State.countersOk, r.ustep, inDataClock, r.bits, r.idx, r.len, r.sent]
  · simp [State.controlOk, r.op, r.ustep]
  · rcases r.uninit with h | ⟨h1, h2⟩ <;> simp [State.uninitOk, State.busy, r.op, *]

theorem resting_of_inv (h : s.Inv) (hop : s.curOp = none) : Resting s := by
  obtain ⟨hbuf, hcount, hctl, hun, hlines, htimer⟩ := h
  simp only [State.controlOk, hop, decide_eq_true_eq] at hctl
  simp only [State.countersOk, Bool.and_eq_true, decide_eq_true_eq] at hcount
  obtain ⟨⟨⟨⟨hbits, hidx⟩, hlen⟩, hsent⟩, -⟩ := hcount
  refine ⟨hop, hctl, hbuf, htimer, hbits, hidx, hlen, hsent, ?_, hctl ▸ hlines⟩
  simpa [State.uninitOk, State.busy, hop] using hun

/-! ### Commands of one step -/

/-- The end of a command that only wrote registers. -/
theorem Resting.finish (r : Resting s) (st : Status) (d : Byte) : Resting (s.finish st d) :=
  ⟨rfl, rfl, r.buf, r.timer, r.bits, r.idx, r.len, r.sent, r.uninit, r.lines⟩

theorem packBytes_length (bl : Bool) (size : Size) (kind : Kind) (v : Byte) :
    (packBytes bl size kind v).length = packedCount size := by cases size <;> rfl

/-- Packing fills the buffer from its first entry and never beyond its last (R60, R140, R144). -/
theorem Resting.packed (r : Resting s) (size : Size) (kind : Kind) (v : Byte) :
    Resting (s.packed size kind v) := by
  have hfit : 0 + (packBytes s.bl size kind v).length ≤ Config.txbufDepth := by
    rw [packBytes_length]
    cases size <;> decide
  have hlen : (s.packed size kind v).txlen.toNat ≤ 5 := by cases size <;> simp
  exact ⟨r.op, r.ustep, Memory.store_wf _ r.buf hfit, r.timer, r.bits, r.idx, hlen, r.sent, r.uninit,
    r.lines⟩

theorem Resting.packedBacklight (r : Resting s) : Resting s.packedBacklight :=
  ⟨r.op, r.ustep, Memory.write_wf _ r.buf (by decide), r.timer, r.bits, r.idx, by simp, r.sent,
    r.uninit, r.lines⟩

theorem Resting.effect (r : Resting s) (hw : i.wf = true) : Resting (effect i s) := by
  cases i with
  | init =>
    exact ⟨r.op, r.ustep, r.buf, r.timer, Nat.zero_le _, r.idx, r.len, r.sent, .inl rfl, rfl⟩
  | ldbuf idx v =>
    have hi : idx.toNat < Config.txbufDepth := Nat.lt_succ_of_le (of_decide_eq_true hw)
    exact ⟨r.op, r.ustep, Memory.write_wf v r.buf hi, r.timer, r.bits, r.idx, r.len, r.sent, r.uninit,
      r.lines⟩
  | wbytes hk n =>
    exact ⟨r.op, r.ustep, r.buf, r.timer, r.bits, Nat.zero_le _, r.len, Nat.zero_le _, r.uninit, r.lines⟩
  | setaddr a => exact ⟨r.op, r.ustep, r.buf, r.timer, r.bits, r.idx, r.len, r.sent, r.uninit, r.lines⟩
  | setbl b => exact ⟨r.op, r.ustep, r.buf, r.timer, r.bits, r.idx, r.len, r.sent, r.uninit, r.lines⟩
  | pack size kind v => exact r.packed size kind v
  | _ => exact r

/-! ### The acceptance of a command -/

/-- A legal command that drives the lines is accepted (R34, R176). -/
theorem Resting.accept (r : Resting s) (hw : i.wf = true) (hn : i.needsInit = true)
    (hi : s.initd = true) (p : UStep) : Good i (s.accept i p) :=
  ⟨rfl, hw, hn, hi, r.buf, r.timer, r.bits, r.idx, r.len, r.sent⟩

theorem Good.beginByte (g : Good i s) (r : ByteRole) (v : Byte) : Good i (beginByte r v s) :=
  g.step rfl rfl rfl g.timer (Nat.zero_le _) rfl rfl rfl

theorem Good.loopHead (g : Good i s) : Good i (loopHead s) :=
  ⟨g.op, g.wf, g.needs, g.initd, g.buf, g.timer, Nat.zero_le _, Nat.zero_le _, g.len, Nat.zero_le _⟩

/-- A start or a stop condition may begin with the lines at any level (R102, R104). -/
theorem placed_start (hb : belongs i (.start .fallSda) = true) :
    Placed i (s.accept i (.start .fallSda)) := ⟨hb, rfl, by simp [inDataClock], rfl⟩

theorem placed_stop (hb : belongs i (.stop .fallSda) = true) :
    Placed i (s.accept i (.stop .fallSda)) := ⟨hb, rfl, by simp [inDataClock], rfl⟩

/-- The head of a byte loop with something to send: index 0 is below the count (R112). -/
theorem placed_loopHead (hl : loops i = true) (hc : byteCount s i ≠ 0) : Placed i (loopHead s) := by
  refine ⟨hl, ?_, fun _ => by simp [loopHead], rfl⟩
  have hpos : 0 < (byteCount (loopHead s) i).toNat := by
    rw [byteCount_of_txlen (s := s) (t := loopHead s) rfl]
    exact Nat.pos_of_ne_zero fun h => hc (BitVec.eq_of_toNat_eq h)
  simpa [loopHead, loopOk] using hpos

/-- A command that runs starts at a position of its own, from which the invariant holds. -/
theorem inv_entered (r : Resting s) (hw : i.wf = true) (hi : s.initd = true) (hd : drives i = true) :
    (entered i s).Inv := by
  have hn := needsInit_of_drives hd
  have g := r.accept hw hn hi
  cases i with
  | start => exact inv_of_running (g _) (placed_start rfl)
  | stop => exact inv_of_running (g _) (placed_stop rfl)
  | endt => exact inv_of_running (g _) (placed_stop rfl)
  | beginw a => exact inv_of_running (g _) (placed_start rfl)
  | wbyte v => exact inv_of_running ((g _).beginByte _ _) ⟨rfl, rfl, fun _ => by simp [entered], rfl⟩
  | wbytes hk n =>
    exact inv_of_running (g _).loopHead (placed_loopHead rfl (of_decide_eq_true hd))
  | emitc size kind v =>
    exact inv_of_running ((r.packed size kind v).accept hw hn hi _).loopHead
      (placed_loopHead rfl (packed_txlen_ne_zero size kind v s))
  | sendc size kind v =>
    exact inv_of_running ((r.packed size kind v).accept hw hn hi _) (placed_start rfl)
  | blnow =>
    exact inv_of_running (r.packedBacklight.accept hw hn hi _) (placed_start rfl)
  | _ => cases hd

/-! ### Whole commands -/

/-- A clocked step keeps the invariant if its effect does: the reset column meets it (R240). -/
theorem clocked_inv {f : State → Result} (hf : f s.latch = .next t → t.Inv)
    (h : clocked s f = .next t) : t.Inv := by
  rcases clocked_cases s f with hc | hc <;> rw [hc] at h
  · cases h; exact inv_resetBlock _
  · exact hf h

theorem illegalCommand_inv (hs : s.Inv) (h : illegalCommand s = .next t) : t.Inv :=
  clocked_inv (fun h => by cases h; exact inv_latch hs) h

theorem idleStep_inv (hs : s.Inv) (h : idleStep s = .next t) : t.Inv :=
  clocked_inv (fun h => by cases h; exact inv_latch hs) h

theorem runCommand_inv (hs : s.Inv) (h : runCommand s = .next t) : t.Inv := runSteps_inv _ hs h

theorem exec_inv (hs : s.Inv) (hop : s.curOp = none) (h : exec i s = .next t) : t.Inv := by
  have r := resting_of_inv hs hop
  obtain hc | ⟨hw, hi, hc⟩ := exec_cases i s <;> rw [hc] at h
  · exact illegalCommand_inv hs h
  · unfold course at h
    split at h
    · next hd => exact runCommand_inv (inv_entered r hw (hi (needsInit_of_drives hd)) hd) h
    · have rl : Resting s.latch := resting_of_inv (inv_latch hs) hop
      refine clocked_inv (fun h => ?_) h
      cases h
      exact inv_of_resting ((rl.effect hw).finish _ _)

/-! ### What the host does -/

/-- The invariant says nothing of the host. -/
theorem inv_withHost (hs : s.Inv) (a : HostAgent) : State.Inv { s with host := a } := hs

theorem inv_hostReads (hs : s.Inv) : s.hostReads.Inv := by
  rw [hostReads_eq]; exact inv_withHost hs _

theorem inv_withTracking (hs : s.Inv) (b : Bool) : (s.withTracking b).Inv := hs

theorem inv_withSession (hs : s.Inv) (v : Session) : (s.withSession v).Inv := hs

theorem inv_withQueue (hs : s.Inv) (q : List HostAct) : (s.withQueue q).Inv := hs

theorem issueWord_inv {w : CmdWord} (hs : s.Inv) (hop : s.curOp = none)
    (h : issueWord w s = .next t) : t.Inv := by
  unfold issueWord at h
  split at h
  · exact exec_inv hs hop h
  · exact illegalCommand_inv hs h

theorem hostAct_inv {a : HostAct} (hs : s.Inv) (hop : s.curOp = none) (h : hostAct a s = .next t) :
    t.Inv := by
  cases a with
  | issue w => exact issueWord_inv (inv_withTracking hs false) hop h
  | track w => exact issueWord_inv (inv_withTracking hs true) hop h
  | ifOk w =>
    rw [hostAct] at h
    split at h
    · exact issueWord_inv (inv_withTracking hs true) hop h
    · exact idleStep_inv hs h
  | wait d => exact idleStep_inv hs h
  | width w => exact idleStep_inv (inv_withSession hs _) h
  | cursor x y => exact idleStep_inv (inv_withSession hs _) h
  | ready => exact idleStep_inv (inv_withSession hs _) h

theorem hostStep_inv (hs : s.Inv) (hop : s.curOp = none) (h : hostStep s = .next t) : t.Inv := by
  unfold hostStep at h
  split at h
  · exact idleStep_inv hs h
  · next a q _ => exact hostAct_inv (inv_withQueue hs q) hop h

/-- Settles O54: a running command goes on by ticks, which keep the invariant; otherwise the host acts, and
a command it issues starts from a resting block at a position of its own. -/
theorem stepKeepsTheInvariant : Obligations.StepKeepsTheInvariant := by
  unfold Obligations.StepKeepsTheInvariant
  intro s t hs h
  have hr := inv_hostReads hs
  unfold step machineStep at h
  split at h
  · exact runCommand_inv hr h
  · next hop => exact hostStep_inv hr hop h

/-- Settles O53: the reset column meets the invariant. -/
theorem resetMeetsTheInvariant : Obligations.ResetMeetsTheInvariant := inv_resetBlock State.reset

end Sys2Proof.Machine

/-! PROOF. A running command ends or is kept waiting (R34, R84, R107, R112): every primitive that moves it
on brings it nearer to its end, so that a run never stops between the two. -/

namespace Sys2Proof.Machine

/-! ### How far a command is from its end -/

/-- Steps left of the byte transmitter, this one with them, with `BITCNT` at `c` (R106). -/
def byteLeft (c : BitVec 4) : BytePos → Nat
  | .putBit => 5 * (7 - c).toNat + 13
  | .lowHalf => 5 * (7 - c).toNat + 12
  | .raise => 5 * (7 - c).toNat + 11
  | .highHalf => 5 * (7 - c).toNat + 10
  | .fall => 5 * (7 - c).toNat + 9
  | .ackRelease => 8
  | .ackLow => 7
  | .ackRaise => 6
  | .ackWait => 5
  | .ackSample => 4
  | .ackHold => 3
  | .parkScl => 2
  | .parkSda => 1

/-- Steps left of a stop condition (R104). -/
def stopLeft : StopPos → Nat
  | .fallSda => 7
  | .lowHold => 6
  | .raise => 5
  | .waitScl => 4
  | .highHold => 3
  | .riseSda => 2
  | .freeHold => 1

/-- Steps left of a start condition (R102). -/
def startLeft : StartPos → Nat
  | .fallSda => 4
  | .holdSda => 3
  | .fallScl => 2
  | .holdScl => 1

/-- Steps left after the byte at `BYTEIDX`, its hook apart: 49 for each byte that can follow, of at most
seven a count of three bits can name, and the 7 of a stop condition (R104, R112, R148). -/
def loopLeftover (s : State) : Nat := 7 + 49 * (7 - s.byteidx.toNat)

/-- Steps left after a byte sent in a role: none, a whole byte loop from index 0 (48 steps of its first byte,
its hook, `loopLeftover`), or the hook and the rest of the loop. -/
def roleLeft (s : State) : ByteRole → Nat
  | .single => 0
  | .frame => 399
  | .data => 1 + loopLeftover s

/-- A bound on the steps a running command has left, reads of the clock that find it low apart. A start
condition may be followed by an address byte of 48 steps. -/
def stepsLeft (s : State) : Nat :=
  match s.ustep with
  | .idle => 0
  | .start p => startLeft p + 447
  | .byte r p => byteLeft s.bitcnt p + roleLeft s r
  | .hook => 1 + loopLeftover s
  | .stop p => stopLeft p

variable {i : Instr} {s t : State} {p : UStep} {n : Nat}

theorem stepsLeft_start {q : StartPos} (h : s.ustep = .start q) : stepsLeft s = startLeft q + 447 := by
  rw [stepsLeft, h]

theorem stepsLeft_byte {r : ByteRole} {q : BytePos} (h : s.ustep = .byte r q) :
    stepsLeft s = byteLeft s.bitcnt q + roleLeft s r := by rw [stepsLeft, h]

theorem stepsLeft_hook (h : s.ustep = .hook) : stepsLeft s = 1 + loopLeftover s := by rw [stepsLeft, h]

theorem stepsLeft_stop {q : StopPos} (h : s.ustep = .stop q) : stepsLeft s = stopLeft q := by
  rw [stepsLeft, h]

theorem roleLeft_congr (h : t.byteidx = s.byteidx) (r : ByteRole) : roleLeft t r = roleLeft s r := by
  cases r <;> simp only [roleLeft, loopLeftover, h]

theorem byteLeft_le (c : BitVec 4) (p : BytePos) : byteLeft c p ≤ 88 := by
  have hc : (7 - c).toNat < 2 ^ 4 := (7 - c).isLt
  cases p <;> simp only [byteLeft] <;> omega

/-- A run has more steps than any command has left. -/
theorem stepsLeft_lt_runBound (s : State) : stepsLeft s < runBound := by
  have hloop : loopLeftover s ≤ 350 := by simp only [loopLeftover]; omega
  unfold stepsLeft runBound
  split
  · omega
  · next p _ => cases p <;> simp [startLeft]
  · next r p _ =>
    have hb := byteLeft_le s.bitcnt p
    cases r <;> simp only [roleLeft] <;> omega
  · omega
  · next p _ => cases p <;> simp [stopLeft]

/-- A data clock that is not the last leaves one fewer (R108). -/
theorem bitsLeft_succ {c : BitVec 4} (h : (c + 1).toNat < 8) :
    (7 - (c + 1)).toNat + 1 = (7 - c).toNat := by bv_omega

/-! ### What a primitive leads to -/

/-- Command `i` runs, at a position of its body; a wait has released the clock (R107). -/
structure Running (i : Instr) (s : State) : Prop where
  op : s.curOp = some i
  active : s.ustep ≠ .idle
  wait : atWait s.ustep = true → s.sclOut = true

/-- A primitive of command `i` at position `p` has led to `t`: the command has ended with a response, or
runs on at another position with fewer than `n` steps left. -/
inductive Onward (i : Instr) (p : UStep) (n : Nat) (t : State) : Prop
  | ended : t.curOp = none → t.rsp.isSome = true → Onward i p n t
  | moved : Running i t → t.rsp = none → t.ustep ≠ p → stepsLeft t < n → Onward i p n t

section

variable (hop : s.curOp = some i) (hr : s.rsp = none)
include hop hr

theorem loopDone_onward (hp : p ≠ .stop .fallSda) (hn : 7 < n) (ok : Bool) :
    Onward i p n (loopDone i ok s) := by
  unfold loopDone
  split
  · exact .moved ⟨hop, nofun, nofun⟩ hr hp.symm hn
  · exact .ended rfl rfl

theorem loadByte_onward (hp : p ≠ .byte .data .putBit) (hn : 49 + loopLeftover s < n)
    (h : loadByte s = .next t) : Onward i p n t := by
  unfold loadByte at h
  split at h
  · cases h
    refine .moved ⟨hop, nofun, nofun⟩ hr hp.symm ?_
    simp only [stepsLeft, beginByte_ustep, beginByte_bitcnt, byteLeft, roleLeft]
    simp only [loopLeftover, beginByte_byteidx] at hn ⊢
    simp
    omega
  · cases h

theorem beginLoop_onward (hp : p ≠ .byte .data .putBit) (hp' : p ≠ .stop .fallSda) (hn : 399 < n)
    (h : beginLoop i s = .next t) : Onward i p n t := by
  unfold beginLoop at h
  dsimp only at h
  split at h
  · cases h
    exact loopDone_onward (s := { s with sentcnt := 0, byteidx := 0 }) hop hr hp' (by omega) true
  · exact loadByte_onward (s := { s with sentcnt := 0, byteidx := 0 }) hop hr hp hn h

theorem nextByte_onward (hp : p ≠ .byte .data .putBit) (hp' : p ≠ .stop .fallSda)
    (hn : loopLeftover s < n) (h : nextByte i s = .next t) : Onward i p n t := by
  unfold nextByte at h
  split at h
  · next hlt =>
    have h7 : (byteCount s i).toNat < 2 ^ 3 := (byteCount s i).isLt
    have hb : (s.byteidx + 1).toNat = s.byteidx.toNat + 1 := by
      rw [BitVec.toNat_add]; simp; omega
    refine loadByte_onward (s := { s with byteidx := s.byteidx + 1 }) hop hr hp ?_ h
    simp only [loopLeftover] at hn ⊢
    rw [hb]
    omega
  · cases h
    exact loopDone_onward hop hr hp' (by simp only [loopLeftover] at hn; omega) true

theorem afterByte_onward {r : ByteRole} (h : afterByte i r s = .next t) :
    Onward i (.byte r .parkSda) (1 + roleLeft s r) t := by
  cases r with
  | single => cases h; exact .ended rfl rfl
  | frame =>
    simp only [afterByte, afterFrame] at h
    split at h
    · split at h
      · exact beginLoop_onward (s := { s with lastok := !s.ackLevel }) hop hr (by simp) (by simp)
          (by simp [roleLeft]) h
      · cases h
        exact loopDone_onward (s := { s with lastok := !s.ackLevel }) hop hr (by simp)
          (by simp [roleLeft]) false
    · cases h; exact .ended rfl rfl
  | data =>
    simp only [afterByte, afterData] at h
    split at h
    · split at h
      · cases h
        exact .moved ⟨hop, nofun, nofun⟩ hr nofun (by simp [stepsLeft, roleLeft, loopLeftover])
      · refine nextByte_onward (s := { s with lastok := !s.ackLevel, sentcnt := s.sentcnt + 1 })
          hop hr (by simp) (by simp) ?_ h
        simp only [roleLeft, loopLeftover]
        omega
    · cases h
      refine loopDone_onward (s := { s with lastok := !s.ackLevel }) hop hr (by simp) ?_ false
      simp only [roleLeft, loopLeftover]
      omega

end

/-- The running command stands at a read of the clock that found it low (R107, R212). -/
structure Held (s : State) : Prop where
  wait : atWait s.ustep = true
  low : s.sclIn = false

theorem startStep_onward {q : StartPos} (a : Running i s) (hr : s.rsp = none)
    (hu : s.ustep = .start q) (h : startStep i q s = .next t) :
    Onward i s.ustep (stepsLeft s) t := by
  rw [stepsLeft_start hu, hu]
  cases q
  case holdScl =>
    simp only [startStep, afterStart] at h
    split at h
    · cases h
      exact .moved ⟨a.op, nofun, nofun⟩ hr nofun
        (by simp [stepsLeft, byteLeft, roleLeft, startLeft])
    · cases h; exact .ended rfl rfl
  all_goals
    cases h
    exact .moved ⟨a.op, nofun, nofun⟩ hr nofun (by simp [stepsLeft, startLeft])

/-- A step from one position of a byte to another, nearer to its end. -/
theorem byte_moved {r : ByteRole} {q q' : BytePos} (a : Running i s) (hr : s.rsp = none)
    (hu : s.ustep = .byte r q) (ht : t.ustep = .byte r q') (hop : t.curOp = s.curOp)
    (hrt : t.rsp = s.rsp) (hy : t.byteidx = s.byteidx) (hw : q' = .ackWait → t.sclOut = true)
    (hq : q' ≠ q) (hlt : byteLeft t.bitcnt q' < byteLeft s.bitcnt q) :
    Onward i s.ustep (stepsLeft s) t := by
  rw [stepsLeft_byte hu, hu]
  refine .moved ⟨hop.trans a.op, by simp [ht], fun h => hw ?_⟩ (hrt.trans hr) (by simp [ht, hq]) ?_
  · rw [ht] at h
    cases q' with
    | ackWait => rfl
    | _ => cases h
  · rw [stepsLeft_byte ht, roleLeft_congr hy]
    omega

theorem byteStep_onward {r : ByteRole} {q : BytePos} (a : Running i s) (hr : s.rsp = none)
    (hu : s.ustep = .byte r q) (h : byteStep i r q s = .next t) :
    Onward i s.ustep (stepsLeft s) t ∨ (t = s ∧ Held s) := by
  cases q
  case parkSda =>
    rw [stepsLeft_byte hu, hu]
    exact .inl (afterByte_onward (s := s.setSda false) a.op hr h)
  case ackWait =>
    cases h
    split
    · exact .inl (byte_moved a hr hu rfl rfl rfl rfl nofun nofun (by simp [byteLeft]))
    · next hl => exact .inr ⟨rfl, by rw [hu]; rfl, by simpa using hl⟩
  case fall =>
    cases h
    refine .inl (byte_moved a hr hu
      (q' := if (s.bitcnt + 1).toNat < 8 then .putBit else .ackRelease) rfl rfl rfl rfl ?_ ?_ ?_)
    · split <;> exact nofun
    · split <;> exact nofun
    · split
      · next h8 =>
        have := bitsLeft_succ h8
        simp only [byteLeft, afterBit, goto_bitcnt, setScl_bitcnt]
        omega
      · simp only [byteLeft]; omega
  case ackRaise =>
    cases h
    exact .inl (byte_moved a hr hu rfl rfl rfl rfl (fun _ => rfl) nofun (by simp [byteLeft]))
  all_goals
    cases h
    exact .inl (byte_moved a hr hu rfl rfl rfl rfl nofun nofun (by simp [byteLeft]))

theorem stopStep_onward {q : StopPos} (a : Running i s) (hr : s.rsp = none)
    (hu : s.ustep = .stop q) (h : stopStep i q s = .next t) :
    Onward i s.ustep (stepsLeft s) t ∨ (t = s ∧ Held s) := by
  rw [stepsLeft_stop hu]
  cases q
  case freeHold => cases h; exact .inl (.ended rfl rfl)
  case waitScl =>
    cases h
    split
    · exact .inl (.moved ⟨a.op, nofun, nofun⟩ hr (by simp [hu]) (by simp [stepsLeft, stopLeft]))
    · next hl => exact .inr ⟨rfl, by rw [hu]; rfl, by simpa using hl⟩
  case raise =>
    cases h
    exact .inl (.moved ⟨a.op, nofun, fun _ => rfl⟩ hr (by simp [hu]) (by simp [stepsLeft, stopLeft]))
  all_goals
    cases h
    exact .inl (.moved ⟨a.op, nofun, nofun⟩ hr (by simp [hu]) (by simp [stepsLeft, stopLeft]))

theorem hookStep_onward (a : Running i s) (hr : s.rsp = none) (hu : s.ustep = .hook)
    (h : hookStep i s = .next t) : Onward i s.ustep (stepsLeft s) t := by
  rw [stepsLeft_hook hu, hu]
  exact nextByte_onward (s := s.delay _) a.op hr (by simp) (by simp)
    (by simp [loopLeftover]) h

/-- A primitive of a running command: it leads on, or it is a read of the clock that found it low. -/
theorem primitive_onward (a : Running i s) (hr : s.rsp = none) (h : primitive s = .next t) :
    Onward i s.ustep (stepsLeft s) t ∨ (t = s ∧ Held s) := by
  unfold primitive at h
  rw [a.op] at h
  dsimp only at h
  split at h
  · next hu => exact absurd hu a.active
  · next hu => exact .inl (startStep_onward a hr hu h)
  · next hu => exact byteStep_onward a hr hu h
  · next hu => exact .inl (hookStep_onward a hr hu h)
  · next hu => exact stopStep_onward a hr hu h

/-! ### Runs and whole commands -/

/-- Command `i` has ended with a response, or runs without one and is held at a wait with the clock
released (R34, R107). -/
inductive Settled (i : Instr) (t : State) : Prop
  | ended : t.curOp = none → t.rsp.isSome = true → Settled i t
  | held : Running i t → t.rsp = none → Held t → Settled i t

/-- With `rst` low, a run of more steps than the command has left settles it. -/
theorem runSteps_settled : ∀ (n : Nat) {s t : State}, stepsLeft s < n → Running i s →
    s.env.noReset → runSteps n s = .next t → Settled i t := by
  intro n
  induction n with
  | zero => intro s t hn; cases hn
  | succ n ih =>
    intro s t hn a hr h
    obtain ⟨u, hu, h⟩ := andThen_eq_next.mp h
    have hru := (tick_after hu).noReset hr
    rw [tick_of_low (hr 0)] at hu
    have al : Running i s.latch := ⟨a.op, a.active, a.wait⟩
    obtain (⟨hop, hrsp⟩ | ⟨au, hrsp, hne, hlt⟩) | ⟨rfl, hheld⟩ := primitive_onward al rfl hu
    · rw [if_neg (by simp [hop])] at h
      cases h
      exact .ended hop hrsp
    · rw [if_pos (by simpa [au.op] using hne)] at h
      exact ih (by have : stepsLeft s.latch = stepsLeft s := rfl; omega) au hru h
    · rw [if_neg (by simp)] at h
      cases h
      exact .held al rfl hheld

theorem runCommand_settled (a : Running i s) (hr : s.env.noReset) (h : runCommand s = .next t) :
    Settled i t := runSteps_settled _ (stepsLeft_lt_runBound s) a hr h

/-- No command starts at a wait. -/
theorem running_entered (hd : drives i = true) (s : State) : Running i (entered i s) := by
  have hu : (entered i s).ustep ≠ .idle ∧ atWait (entered i s).ustep = false := by
    cases i with
    | init | ldbuf | setaddr | setbl | pack | rdreg => cases hd
    | _ => exact ⟨nofun, rfl⟩
  exact ⟨entered_curOp (needsInit_of_drives hd) s, hu.1, fun h => by simp [hu.2] at h⟩

/-- Settles O9: a refusal and a command of one step answer at once, and a run settles. -/
theorem busyUntilTheResponse : Obligations.BusyUntilTheResponse := by
  unfold Obligations.BusyUntilTheResponse
  intro i s t hop hr h
  have hsettled : Settled i t := by
    obtain hc | ⟨-, -, hc⟩ := exec_cases i s <;> rw [hc] at h
    · rw [illegalCommand, clocked_of_low (hr 0)] at h
      cases h
      exact .ended hop rfl
    · unfold course at h
      split at h
      · next hd => exact runCommand_settled (running_entered hd s) (by rwa [entered_env]) h
      · rw [oneStep, clocked_of_low (hr 0)] at h
        cases h
        exact .ended rfl rfl
  rcases hsettled with ⟨hc, hrsp⟩ | ⟨a, hrsp, hheld⟩
  · exact .inl ⟨by rw [State.busy, hc]; rfl, hrsp⟩
  · exact .inr ⟨by rw [State.busy, a.op]; rfl, a.op, hrsp, hheld.wait, a.wait hheld.wait, hheld.low⟩

end Sys2Proof.Machine

/-! PROOF. The session's variables after each operation's updates (R183 to R192), and the cursor on the
screen (R41). -/

namespace Sys2Proof.Machine

/-! ### The updates of an expansion -/

/-- The updates of one list of actions and then of another. -/
theorem sessionAfter_append (v : Session) (l m : List HostAct) :
    sessionAfter v (l ++ m) = sessionAfter (sessionAfter v l) m := by
  induction l generalizing v with
  | nil => rfl
  | cons a l ih => cases a <;> exact ih _

/-- The initialization steps update nothing of the session (R184). -/
theorem sessionAfter_initStepActs (v : Session) (t : Config.HostWait) (e : Size × Byte) :
    sessionAfter v (initStepActs t e) = v := rfl

theorem sessionAfter_flatMap_initStepActs (v : Session) (t : Config.HostWait)
    (l : List (Size × Byte)) : sessionAfter v (l.flatMap (initStepActs t)) = v := by
  induction l with
  | nil => rfl
  | cons e l ih => rw [List.flatMap_cons, sessionAfter_append, sessionAfter_initStepActs, ih]

theorem sessionAfter_initSeqActs (v : Session) (l : List (Size × Byte)) :
    sessionAfter v (initSeqActs l) = v := by
  cases l with
  | nil => rfl
  | cons e l =>
    rw [initSeqActs, sessionAfter_append, sessionAfter_initStepActs, sessionAfter_flatMap_initStepActs]

/-- The setup operation sets every variable of the session (R184). -/
theorem sessionAfter_setupActs (v : Session) (p : HostParams) (a : Byte) (w : Nat) (on : Bool) :
    sessionAfter v (setupActs p a w on) = { width := w, curX := 0, curY := 0, state := .ready } := by
  rw [setupActs, sessionAfter_append, sessionAfter_append, sessionAfter_initSeqActs]
  rfl

theorem sessionAfter_moveCursorActs (v : Session) (p : HostParams) (x y : Nat) :
    sessionAfter v (moveCursorActs p x y) = { v with curX := x, curY := y } := rfl

theorem sessionAfter_clearActs (v : Session) (p : HostParams) :
    sessionAfter v (clearActs p) = { v with curX := 0, curY := 0 } := rfl

theorem sessionAfter_putCharActs (v : Session) (p : HostParams) (width x y : Nat) (c : Byte) :
    sessionAfter v (putCharActs p width x y c)
      = { v with curX := (putCharCursor width x y).1, curY := (putCharCursor width x y).2 } := by
  unfold putCharActs putCharCursor
  split <;> rfl

theorem sessionAfter_setBacklightActs (v : Session) (on now : Bool) :
    sessionAfter v (setBacklightActs on now) = v := by cases now <;> rfl

/-! ### The cursor on the screen -/

/-- `put_char` moves from a cell of the screen to a cell of the screen (R187). -/
theorem putCharCursor_onScreen {width x y : Nat} (hx : x < width) (hy : y < 4) :
    (putCharCursor width x y).1 < width ∧ (putCharCursor width x y).2 < 4 := by
  unfold putCharCursor wraps
  split
  · exact ⟨by omega, by omega⟩
  · next h => exact ⟨by simpa using h, hy⟩

/-- So does `put_string`, from the cell it starts at, whatever its length (R188). -/
theorem putStringActs_cursorOk (p : HostParams) (l : List Byte) : ∀ {v : Session} {x y : Nat},
    v.curX = x → v.curY = y → v.cursorOk →
    (sessionAfter v (putStringActs p v.width x y l)).cursorOk := by
  induction l with
  | nil => intro v x y _ _ hv; exact hv
  | cons c l ih =>
    rintro v x y rfl rfl ⟨hx, hy⟩
    rw [putStringActs, sessionAfter_append, sessionAfter_putCharActs]
    exact ih (v := { v with
      curX := (putCharCursor v.width v.curX v.curY).1
      curY := (putCharCursor v.width v.curX v.curY).2 }) rfl rfl (putCharCursor_onScreen hx hy)

/-- Settles O58: operation by operation, by what its updates leave. -/
theorem cursorStaysOnScreen : Obligations.CursorStaysOnScreen := by
  unfold Obligations.CursorStaysOnScreen
  intro p op addr v acts _ hv h hfast hfastAt
  have h0 : 0 < v.width := Nat.zero_lt_of_lt hv.1
  cases op with
  | setup a w on =>
    obtain ⟨⟨hw, -⟩, ⟨⟩⟩ := Option.ite_none_right_eq_some.mp h
    rw [sessionAfter_setupActs]
    exact ⟨hw, Nat.zero_lt_succ 3⟩
  | moveCursor x y =>
    obtain ⟨⟨-, hon⟩, ⟨⟩⟩ := Option.ite_none_right_eq_some.mp h
    rw [sessionAfter_moveCursorActs]
    simpa [Session.onScreen, Session.cursorOk] using hon
  | clear =>
    obtain ⟨-, ⟨⟩⟩ := Option.ite_none_right_eq_some.mp h
    exact ⟨h0, Nat.zero_lt_succ 3⟩
  | putChar c =>
    obtain ⟨-, ⟨⟩⟩ := Option.ite_none_right_eq_some.mp h
    rw [sessionAfter_putCharActs]
    exact putCharCursor_onScreen hv.1 hv.2
  | putString l =>
    obtain ⟨-, ⟨⟩⟩ := Option.ite_none_right_eq_some.mp h
    exact putStringActs_cursorOk p l rfl rfl hv
  | putStringFast l => exact absurd rfl (hfast l)
  | putStringAtFast x y l => exact absurd rfl (hfastAt x y l)
  | setBacklight on now =>
    obtain ⟨-, ⟨⟩⟩ := Option.ite_none_right_eq_some.mp h
    rwa [sessionAfter_setBacklightActs]
  | askBacklight | askWidth | askColumn | askRow =>
    obtain ⟨-, ⟨⟩⟩ := Option.ite_none_right_eq_some.mp h
    exact hv

end Sys2Proof.Machine

/-! PROOF. The bits of the two assembled registers, `STATUS` and `PINS` (R22, R37, R38). -/

namespace Sys2Proof.Machine

/-- The four flags from bit 3 down, and zeros above them (R37). -/
theorem statusByte_getLsbD (a b c d : Bool) (k : Nat) :
    (statusByte a b c d).getLsbD k = [d, c, b, a].getD k false := by
  match k with
  | 0 | 1 | 2 | 3 | 4 | 5 | 6 | 7 => revert a b c d; decide
  | k + 8 => exact BitVec.getLsbD_of_ge _ _ (by omega)

/-- `RDREG`'s reading of `STATUS` differs in `BUSY` alone, bit 2 (R37, R174). -/
theorem statusByte_and_busyMask : ∀ a b c d : Bool,
    statusByte a false c d = statusByte a b c d &&& 0xFB := by decide

/-- `PINS` has the layout of four flags too (R38). -/
theorem pins_eq_statusByte (s : State) : s.pins = statusByte s.sclOut s.sdaOut s.sclIn s.sdaIn := rfl

theorem statusByte_getLsbD_of_le (a b c d : Bool) {k : Nat} (hk : 4 ≤ k) :
    (statusByte a b c d).getLsbD k = false := by
  rw [statusByte_getLsbD, List.getD_eq_default _ _ hk]

/-- Settles O19, by the layout the two registers share. -/
theorem statusAndPinsBits : Obligations.StatusAndPinsBits := by
  unfold Obligations.StatusAndPinsBits
  intro s
  rw [pins_eq_statusByte, State.status]
  exact ⟨statusByte_getLsbD .., statusByte_getLsbD .., statusByte_getLsbD .., statusByte_getLsbD ..,
    fun _ => statusByte_getLsbD_of_le _ _ _ _, statusByte_and_busyMask .., statusByte_getLsbD ..,
    statusByte_getLsbD .., statusByte_getLsbD .., statusByte_getLsbD ..,
    fun _ => statusByte_getLsbD_of_le _ _ _ _⟩

end Sys2Proof.Machine

/-! PROOF. No step stops (R60, R112, R212): the one stop the model has is a read beyond the transmit buffer,
and every byte loop counts to at most its five entries. -/

namespace Sys2Proof.Machine

/-- Whether a command at a position has a read of the transmit buffer still before it (R112): it is in
its byte loop, or `END` will close it, which only the whole transactions have (R146, R147). -/
def loads (i : Instr) : UStep → Bool
  | .byte .data _ => true
  | .hook => true
  | .byte .single _ => closes i
  | .byte .frame _ => closes i
  | .idle => closes i
  | .start _ => closes i
  | .stop _ => closes i

/-- The running command, if it can read the transmit buffer yet, counts no further than its entries (R27,
R60). -/
def BufferSafe (s : State) : Prop :=
  ∀ i, s.curOp = some i → loads i s.ustep = true → (byteCount s i).toNat ≤ Config.txbufDepth

/-- A next state, from which the running command reads no entry that does not exist. -/
def AnswersSafely (o : Result) : Prop := ∃ t, o = .next t ∧ BufferSafe t

variable {i : Instr} {s t : State}

/-! ### What keeps the buffer safe -/

theorem bufferSafe_of_none (h : s.curOp = none) : BufferSafe s := fun i hi => by
  rw [h] at hi
  cases hi

/-- A command's count is told by `TXLEN` and its own operand alone. -/
theorem count_le_congr {n : Nat} (hc : (byteCount s i).toNat ≤ n) (hn : t.txlen = s.txlen) :
    (byteCount t i).toNat ≤ n := by rwa [byteCount_of_txlen hn]

/-- A command at a count within the buffer is safe wherever it stands. -/
theorem bufferSafe_of_count (hc : (byteCount s i).toNat ≤ Config.txbufDepth)
    (hop : t.curOp = some i) (hn : t.txlen = s.txlen) : BufferSafe t := fun j hj _ => by
  obtain rfl : i = j := Option.some.inj (hop.symm.trans hj)
  exact count_le_congr hc hn

/-- A step to a position from which no more is read. -/
theorem BufferSafe.move (h : BufferSafe s) (hop : t.curOp = s.curOp) (hn : t.txlen = s.txlen)
    (hu : ∀ i, loads i t.ustep = true → loads i s.ustep = true) : BufferSafe t := fun i hi hl => by
  rw [byteCount_of_txlen hn]
  exact h i (hop ▸ hi) (hu i hl)

theorem loads_of_closes (h : closes i = true) (p : UStep) : loads i p = true := by
  unfold loads
  split
  · rfl
  · rfl
  all_goals exact h

theorem loads_byte (i : Instr) (r : ByteRole) (p q : BytePos) :
    loads i (.byte r p) = loads i (.byte r q) := by cases r <;> rfl

/-- The invariant bounds the count of every running command (R112). -/
theorem bufferSafe_of_inv (h : s.Inv) : BufferSafe s := fun _ hi _ =>
  byteCount_le (running_of_inv h hi).1

/-! ### The byte loop -/

section

variable (hop : s.curOp = some i) (hc : (byteCount s i).toNat ≤ Config.txbufDepth)
include hop hc

theorem loopDone_bufferSafe (ok : Bool) : BufferSafe (loopDone i ok s) := by
  unfold loopDone
  split
  · exact bufferSafe_of_count hc hop rfl
  · exact bufferSafe_of_none rfl

theorem beginLoop_answers : AnswersSafely (beginLoop i s) := by
  by_cases h : byteCount s i = 0
  · have h0 : byteCount { s with sentcnt := 0, byteidx := 0 } i = 0 :=
      (byteCount_of_txlen (s := s) rfl i).trans h
    rw [beginLoop, if_pos h0]
    exact ⟨_, rfl, loopDone_bufferSafe (s := { s with sentcnt := 0, byteidx := 0 }) hop
      (count_le_congr hc rfl) true⟩
  · exact ⟨_, beginLoop_of_count h, bufferSafe_of_count (t := loopHead s) hc hop rfl⟩

theorem nextByte_answers : AnswersSafely (nextByte i s) := by
  refine ⟨_, nextByte_eq rfl hc, ?_⟩
  unfold goOn
  split
  · exact bufferSafe_of_count hc hop rfl
  · exact loopDone_bufferSafe hop hc true

end

/-! ### One primitive -/

theorem afterByte_answers {r : ByteRole} {p : BytePos} (hop : s.curOp = some i)
    (hu : s.ustep = .byte r p) (h : BufferSafe s) : AnswersSafely (afterByte i r s) := by
  have hc : loads i (.byte r p) = true →
      (byteCount { s with lastok := !s.ackLevel } i).toNat ≤ Config.txbufDepth := fun hl =>
    count_le_congr (h i hop (hu ▸ hl)) rfl
  cases r with
  | single => exact ⟨_, rfl, bufferSafe_of_none rfl⟩
  | frame =>
    simp only [afterByte, afterFrame]
    split
    · next hcl =>
      split
      · exact beginLoop_answers (s := { s with lastok := !s.ackLevel }) hop (hc hcl)
      · exact ⟨_, rfl, loopDone_bufferSafe (s := { s with lastok := !s.ackLevel }) hop (hc hcl) false⟩
    · exact ⟨_, rfl, bufferSafe_of_none rfl⟩
  | data =>
    have hc := hc rfl
    simp only [afterByte, afterData]
    split
    · split
      · exact ⟨_, rfl, bufferSafe_of_count hc hop rfl⟩
      · exact nextByte_answers (s := { s with lastok := !s.ackLevel, sentcnt := s.sentcnt + 1 }) hop
          (count_le_congr hc rfl)
    · exact ⟨_, rfl, loopDone_bufferSafe (s := { s with lastok := !s.ackLevel }) hop hc false⟩

theorem byteStep_answers {r : ByteRole} {p : BytePos} (hop : s.curOp = some i)
    (hu : s.ustep = .byte r p) (h : BufferSafe s) : AnswersSafely (byteStep i r p s) := by
  have hmove : ∀ {t : State} {q : BytePos}, t.curOp = s.curOp → t.txlen = s.txlen →
      t.ustep = .byte r q → BufferSafe t := fun hop hn hq =>
    h.move hop hn fun j hl => by rwa [hu, loads_byte j r p, ← hq]
  cases p
  case parkSda =>
    exact afterByte_answers (s := s.setSda false) hop hu (h.move rfl rfl fun _ => id)
  case ackWait =>
    refine ⟨_, rfl, ?_⟩
    split
    · exact hmove rfl rfl rfl
    · exact h
  all_goals exact ⟨_, rfl, hmove rfl rfl rfl⟩

theorem startStep_answers {p : StartPos} (hu : s.ustep = .start p)
    (h : BufferSafe s) : AnswersSafely (startStep i p s) := by
  have hmove : ∀ {t : State} {q : StartPos}, t.curOp = s.curOp → t.txlen = s.txlen →
      t.ustep = .start q → BufferSafe t := fun hop hn hq =>
    h.move hop hn fun j hl => by rw [hq] at hl; rwa [hu]
  cases p
  case holdScl =>
    simp only [startStep, afterStart]
    split
    · exact ⟨_, rfl, h.move rfl rfl fun j hl => loads_of_closes hl _⟩
    · exact ⟨_, rfl, bufferSafe_of_none rfl⟩
  all_goals exact ⟨_, rfl, hmove rfl rfl rfl⟩

theorem stopStep_answers {p : StopPos} (hu : s.ustep = .stop p)
    (h : BufferSafe s) : AnswersSafely (stopStep i p s) := by
  have hmove : ∀ {t : State} {q : StopPos}, t.curOp = s.curOp → t.txlen = s.txlen →
      t.ustep = .stop q → BufferSafe t := fun hop hn hq =>
    h.move hop hn fun j hl => by rw [hq] at hl; rwa [hu]
  cases p
  case freeHold => exact ⟨_, rfl, bufferSafe_of_none rfl⟩
  case waitScl =>
    refine ⟨_, rfl, ?_⟩
    split
    · exact hmove rfl rfl rfl
    · exact h
  all_goals exact ⟨_, rfl, hmove rfl rfl rfl⟩

/-- The hook's command is in its byte loop, so its count is bounded (R148). -/
theorem hookStep_answers (hop : s.curOp = some i) (hu : s.ustep = .hook) (h : BufferSafe s) :
    AnswersSafely (hookStep i s) :=
  nextByte_answers (s := s.delay _) hop (count_le_congr (h i hop (by rw [hu]; rfl)) rfl)

theorem primitive_answers (h : BufferSafe s) : AnswersSafely (primitive s) := by
  unfold primitive
  split
  · exact ⟨s, rfl, h⟩
  · next hop =>
    split
    · exact ⟨s, rfl, h⟩
    · next hu => exact startStep_answers hu h
    · next hu => exact byteStep_answers hop hu h
    · next hu => exact hookStep_answers hop hu h
    · next hu => exact stopStep_answers hu h

/-! ### Runs, commands and steps -/

/-- One step of the running command, whatever the inputs: `rst` ends the command (R241). -/
theorem tick_answers (h : BufferSafe s) : AnswersSafely (tick s) := by
  rcases clocked_cases s primitive with hc | hc <;> rw [tick, hc]
  · exact ⟨_, rfl, bufferSafe_of_none rfl⟩
  · exact primitive_answers (h.move rfl rfl fun _ => id)

theorem runSteps_answers (n : Nat) : ∀ {s : State}, BufferSafe s → ∃ t, runSteps n s = .next t := by
  induction n with
  | zero => exact fun {s} _ => ⟨s, rfl⟩
  | succ n ih =>
    intro s h
    obtain ⟨u, hu, hsafe⟩ := tick_answers h
    rw [runSteps, hu, andThen_next]
    split
    · exact ih hsafe
    · exact ⟨u, rfl⟩

theorem runCommand_answers (h : BufferSafe s) : ∃ t, runCommand s = .next t := runSteps_answers _ h

/-- A step whose effect is a next state answers one, with `rst` or without. -/
theorem clocked_answers (s : State) (f : State → State) :
    ∃ t, clocked s (fun u => .next (f u)) = .next t := by
  rcases clocked_cases s (fun u => .next (f u)) with hc | hc <;> exact ⟨_, hc⟩

/-- What is packed fits the buffer (R60, R140). -/
theorem packed_txlen_le (size : Size) (kind : Kind) (v : Byte) (s : State) :
    (s.packed size kind v).txlen.toNat ≤ Config.txbufDepth := by
  cases size <;> simp [Config.txbufDepth]

/-- A legal command starts its run with a count of at most five: its own operand within the limits of R82,
or the number of bytes it has packed (R112, R144, R147). -/
theorem bufferSafe_entered (hw : i.wf = true) (hd : drives i = true) (s : State) :
    BufferSafe (entered i s) := by
  have hop := entered_curOp (needsInit_of_drives hd) s
  have hpacked := fun size kind v => packed_txlen_le size kind v s
  cases i with
  | wbytes hk n =>
    exact bufferSafe_of_count (s := s) (i := .wbytes hk n) (of_decide_eq_true hw) hop rfl
  | emitc size kind v =>
    exact bufferSafe_of_count (i := .emitc size kind v) (hpacked size kind v) hop rfl
  | sendc size kind v =>
    exact bufferSafe_of_count (i := .sendc size kind v) (hpacked size kind v) hop rfl
  | blnow =>
    have h1 : (1 : BitVec 3).toNat ≤ Config.txbufDepth := by decide
    exact bufferSafe_of_count (s := s.packedBacklight) (i := .blnow) h1 hop rfl
  | start | stop | endt | beginw | wbyte =>
    intro j hj hl
    obtain rfl := Option.some.inj (hop.symm.trans hj)
    cases hl
  | init | ldbuf | setaddr | setbl | pack | rdreg => cases hd

/-- Settles O7: a command is refused, takes one step, or runs from a count within the buffer. -/
theorem execAlwaysAnswersNext : Obligations.ExecAlwaysAnswersNext := by
  unfold Obligations.ExecAlwaysAnswersNext
  intro i s
  obtain hc | ⟨hw, -, hc⟩ := exec_cases i s <;> rw [hc]
  · exact clocked_answers s _
  · unfold course
    split
    · next hd => exact runCommand_answers (bufferSafe_entered hw hd s)
    · exact clocked_answers s _

theorem issueWord_answers (w : CmdWord) (s : State) : ∃ t, issueWord w s = .next t := by
  unfold issueWord
  split
  · exact execAlwaysAnswersNext _ s
  · exact clocked_answers s _

/-- Between commands the host's next action is a command or an idle step. -/
theorem hostStep_answers (s : State) : ∃ t, hostStep s = .next t := by
  unfold hostStep
  split
  · exact clocked_answers s id
  · next a q _ =>
    cases a with
    | issue w => exact issueWord_answers w _
    | track w => exact issueWord_answers w _
    | ifOk w =>
      rw [hostAct]
      split
      · exact issueWord_answers w _
      · exact clocked_answers _ id
    | wait d => exact clocked_answers _ id
    | width w => exact clocked_answers _ id
    | cursor x y => exact clocked_answers _ id
    | ready => exact clocked_answers _ id

/-- Settles O55: a running command goes on at a count the invariant bounds; otherwise the host acts. -/
theorem invariantRulesOutStops : Obligations.InvariantRulesOutStops := by
  unfold Obligations.InvariantRulesOutStops
  intro s hs
  unfold step machineStep
  split
  · exact runCommand_answers (bufferSafe_of_inv (inv_hostReads hs))
  · exact hostStep_answers _

end Sys2Proof.Machine

/-! PROOF. The drives of a byte, tick by tick (R62, R106, R108, R109, R110). -/

namespace Sys2Proof.Machine

variable {i : Instr} {r : ByteRole} {s t : State}

/-! ### Along a run -/

theorem ticks_of_reaches {k : Nat} (h : Reaches k s t) (m : Nat) : ticks (k + m) s = ticks m t := by
  induction k generalizing s with
  | zero => cases h; rw [Nat.zero_add]
  | succ k ih =>
    obtain ⟨u, hu, -, -, h⟩ := h
    rw [Nat.succ_add, ticks, hu, andThen_next, ih h]

theorem driveTrace_of_tick (h : tick s = .next t) (n : Nat) :
    driveTrace (n + 1) s = (t.sdaOut, t.sclOut) :: driveTrace n t := by rw [driveTrace, h]

theorem driveTrace_of_reaches {k : Nat} (h : Reaches k s t) (m : Nat) :
    driveTrace (k + m) s = driveTrace k s ++ driveTrace m t := by
  induction k generalizing s with
  | zero => cases h; rw [Nat.zero_add]; rfl
  | succ k ih =>
    obtain ⟨u, hu, -, -, h⟩ := h
    rw [Nat.succ_add, driveTrace_of_tick hu, driveTrace_of_tick hu, ih h, List.cons_append]

/-! ### The byte transmitter -/

/-- One data clock (R108). -/
theorem driveTrace_bit (hop : s.curOp = some i) (hu : s.ustep = .byte r .putBit)
    (hr : s.env.noReset) : driveTrace 5 s = bitDrives s.sclOut (s.shreg.getLsbD 7) := by
  simp [driveTrace, tick, clocked, primitive, hop, hu, byteStep, hr _, bitDrives, afterBit]

/-- The ninth clock up to the park of the clock line, the clock free at the step that reads it (R109). -/
theorem driveTrace_ninth (hop : s.curOp = some i) (hu : s.ustep = .byte r .ackRelease)
    (hl : s.sclOut = false) (hr : s.env.noReset) (hc : (s.env.ahead 3).scl = true) :
    driveTrace 7 s = ackDrives.take 7 := by
  simp [driveTrace, tick, clocked, primitive, hop, hu, hl, byteStep, hr _, ackDrives, State.sclIn, hc]

/-- The data clocks of a byte, the first with the clock as it stood before (R106). -/
theorem driveTrace_bits (hop : s.curOp = some i) (hr : s.env.noReset) (v : Byte) : ∀ k, k < 8 →
    driveTrace (5 * (k + 1)) (beginByte r v s) = bitDrives s.sclOut (v.getLsbD 7)
      ++ ((List.range k).map fun j => v.getLsbD (6 - j)).flatMap (bitDrives false) := by
  intro k
  induction k with
  | zero =>
    intro _
    simpa using driveTrace_bit (s := beginByte r v s) (r := r) hop rfl hr
  | succ k ih =>
    intro hk
    obtain ⟨e, h⟩ := run_bits (r := r) hop hr v k (by omega)
    have hbit : driveTrace 5 (midByte r v (k + 1) s e) = bitDrives false (v.getLsbD (6 - k)) := by
      rw [driveTrace_bit (s := midByte r v (k + 1) s e) (r := r) hop
        (by simp [midByte, show k < 7 by omega]) (h.after.noReset hr)]
      have : (v <<< (k + 1)).getLsbD 7 = v.getLsbD (6 - k) := by
        rw [BitVec.getLsbD_shiftLeft]
        simp [show ¬ 7 < k + 1 by omega, show 7 - (k + 1) = 6 - k by omega]
      exact congrArg (bitDrives false) this
    rw [show 5 * (k + 1 + 1) = 5 * (k + 1) + 5 by omega, driveTrace_of_reaches h.reaches, hbit,
      ih (by omega), List.range_succ, List.map_append, List.flatMap_append, List.append_assoc]
    simp

/-- A byte in any role, up to the step that hands its result on (R106). -/
theorem driveTrace_byte (hop : s.curOp = some i) (hr : s.env.noReset)
    (hc : (s.env.ahead 43).scl = true) (v : Byte) :
    driveTrace 47 (beginByte r v s) = (byteDrives s.sclOut v).take 47 := by
  obtain ⟨e, h⟩ := run_bits (r := r) hop hr v 7 (by omega)
  have hninth : driveTrace 7 (midByte r v (7 + 1) s e) = ackDrives.take 7 :=
    driveTrace_ninth (r := r) hop rfl rfl (h.after.noReset hr) (by
      rw [show (midByte r v (7 + 1) s e).env.ahead 3 = s.env.ahead 43 from h.after.ahead 3]; exact hc)
  rw [show 47 = 5 * (7 + 1) + 7 by rfl, driveTrace_of_reaches h.reaches, hninth,
    driveTrace_bits hop hr v 7 (by omega)]
  rfl

/-- A whole byte run alone, on a free clock (R106): 48 ticks with the drives of the byte, which end the
command parked, with what scripted devices left of the data line at the sample in `LASTOK`. -/
theorem run_single (hop : s.curOp = some i) (hr : s.env.noReset)
    (hc : (s.env.ahead 43).scl = true) (v : Byte) :
    ∃ t, runCommand (beginByte .single v s) = .next t ∧ ticks 48 (beginByte .single v s) = .next t
      ∧ driveTrace 48 (beginByte .single v s) = byteDrives s.sclOut v
      ∧ t.parked = true ∧ (s.env.expander = none → t.lastok = s.env.ackAt 44) := by
  obtain ⟨a, e, hrun, ha⟩ := run_byte (r := .single) hop hr v hc
  have hlast := tick_parkSda (r := .single) (by exact hop) rfl (hrun.after.noReset hr 0)
  refine ⟨_, (runSteps_of_reaches hrun.reaches 465).trans (runSteps_of_end 464 hlast rfl),
    (ticks_of_reaches hrun.reaches 1).trans (by rw [ticks, hlast]; rfl), ?_, rfl,
    fun hx => congrArg not (ha hx)⟩
  rw [driveTrace_of_reaches hrun.reaches 1, driveTrace_byte hop hr hc, driveTrace_of_tick hlast]
  rfl

end Sys2Proof.Machine

/-! PROOF. What the bus monitor makes of the block's drives when the devices on the bus are scripted (R10,
R22): it watches the levels that inputs and drives give at each tick, and nothing else reaches it. -/

namespace Sys2Proof.Machine

variable {i : Instr} {r : ByteRole} {s t : State}

/-! ### What a primitive shows the devices -/

/-- `t` has the drives and the environment of `s`. -/
structure SameWires (s t : State) : Prop where
  env : t.env = s.env
  sda : t.sdaOut = s.sdaOut
  scl : t.sclOut = s.sclOut

theorem SameWires.trans {u : State} (h : SameWires s t) (h' : SameWires t u) : SameWires s u :=
  ⟨h'.env.trans h.env, h'.sda.trans h.sda, h'.scl.trans h.scl⟩

theorem loopDone_sameWires (i : Instr) (ok : Bool) (s : State) : SameWires s (loopDone i ok s) := by
  unfold loopDone; split <;> exact ⟨rfl, rfl, rfl⟩

theorem loadByte_sameWires (h : loadByte s = .next t) : SameWires s t := by
  unfold loadByte at h
  split at h <;> cases h
  exact ⟨rfl, rfl, rfl⟩

theorem beginLoop_sameWires (h : beginLoop i s = .next t) : SameWires s t := by
  refine SameWires.trans (t := { s with sentcnt := 0, byteidx := 0 }) ⟨rfl, rfl, rfl⟩ ?_
  unfold beginLoop at h
  dsimp only at h
  split at h
  · cases h; exact loopDone_sameWires _ _ _
  · exact loadByte_sameWires h

theorem nextByte_sameWires (h : nextByte i s = .next t) : SameWires s t := by
  unfold nextByte at h
  split at h
  · exact SameWires.trans (t := { s with byteidx := s.byteidx + 1 }) ⟨rfl, rfl, rfl⟩
      (loadByte_sameWires h)
  · cases h; exact loopDone_sameWires _ _ _

theorem afterByte_sameWires (h : afterByte i r s = .next t) : SameWires s t := by
  refine SameWires.trans (t := { s with lastok := !s.ackLevel }) ⟨rfl, rfl, rfl⟩ ?_
  cases r with
  | single => cases h; exact ⟨rfl, rfl, rfl⟩
  | frame =>
    simp only [afterByte, afterFrame] at h
    split at h
    · split at h
      · exact beginLoop_sameWires h
      · cases h; exact loopDone_sameWires _ _ _
    · cases h; exact ⟨rfl, rfl, rfl⟩
  | data =>
    simp only [afterByte, afterData] at h
    split at h
    · split at h
      · cases h; exact ⟨rfl, rfl, rfl⟩
      · exact SameWires.trans (t := { s with lastok := !s.ackLevel, sentcnt := s.sentcnt + 1 })
          ⟨rfl, rfl, rfl⟩ (nextByte_sameWires h)
    · cases h; exact loopDone_sameWires _ _ _

/-- What a primitive does to the wires: nothing, or the devices see the drives it leaves. -/
def Shows (s t : State) : Prop := SameWires s t ∨ t.env = s.env.observe t.sdaOut t.sclOut

theorem SameWires.shows_of_setSda {b : Bool} (h : SameWires (s.setSda b) t) : Shows s t :=
  .inr (by rw [h.env, h.sda, h.scl]; rfl)

/-- A delay, a read of the lines and the bookkeeping between bytes show nothing; the other primitives end
with the drive they are named for (R9). -/
theorem primitive_shows (h : primitive s = .next t) : Shows s t := by
  unfold primitive at h
  split at h
  · cases h; exact .inl ⟨rfl, rfl, rfl⟩
  · split at h
    · cases h; exact .inl ⟨rfl, rfl, rfl⟩
    · next p _ =>
      cases p
      case holdScl =>
        simp only [startStep, afterStart] at h
        split at h <;> cases h <;> exact .inl ⟨rfl, rfl, rfl⟩
      case holdSda => cases h; exact .inl ⟨rfl, rfl, rfl⟩
      all_goals cases h; exact .inr rfl
    · next r p _ =>
      cases p
      case parkSda => exact (afterByte_sameWires h).shows_of_setSda
      case ackWait =>
        simp only [byteStep] at h
        split at h <;> cases h <;> exact .inl ⟨rfl, rfl, rfl⟩
      case lowHalf | highHalf | ackLow | ackSample | ackHold => cases h; exact .inl ⟨rfl, rfl, rfl⟩
      all_goals cases h; exact .inr rfl
    · exact .inl (SameWires.trans (t := s.delay _) ⟨rfl, rfl, rfl⟩ (nextByte_sameWires h))
    · next p _ =>
      cases p
      case waitScl =>
        simp only [stopStep] at h
        split at h <;> cases h <;> exact .inl ⟨rfl, rfl, rfl⟩
      case lowHold | highHold | freeHold => cases h; exact .inl ⟨rfl, rfl, rfl⟩
      all_goals cases h; exact .inr rfl

/-! ### The monitor at each tick -/

theorem Bus.see_self (b : Bus) : b.see b.sda b.scl = b := by
  have h : b.event b.sda b.scl = .quiet := by
    unfold Bus.event
    cases b.sda <;> cases b.scl <;> simp
  rw [Bus.see, h]
  rfl

/-- Levels that have been seen already tell the monitor nothing. -/
theorem Bus.see_again (b : Bus) (x y : Bool) : (b.see x y).see x y = b.see x y :=
  (b.see x y).see_self

/-- The monitor over steps of a block that leaves the drives `ds`, from the drives `d`, on a bus with the
scripted devices of the inputs `f` alone (R10, R22): at each step it sees the inputs arrive and then
the drives change. -/
def Bus.watch (b : Bus) (f : Nat → Input) (d : Bool × Bool) : List (Bool × Bool) → Bus
  | [] => b
  | c :: ds =>
    Bus.watch ((b.see (d.1 && (f 0).sda) (d.2 && (f 0).scl)).see (c.1 && (f 0).sda) (c.2 && (f 0).scl))
      (fun n => f (n + 1)) c ds

/-- What the monitor sees of one tick. -/
theorem tick_bus (hr : (s.env.ahead 0).rst = false) (hx : s.env.expander = none)
    (h : tick s = .next t) :
    t.env.bus = (s.env.bus.see (s.sdaOut && (s.env.ahead 0).sda) (s.sclOut && (s.env.ahead 0).scl)).see
      (t.sdaOut && (s.env.ahead 0).sda) (t.sclOut && (s.env.ahead 0).scl) := by
  have hsda : s.env.advance.sdaEnv = (s.env.ahead 0).sda := Env.sdaEnv_of_none (by simpa)
  have hlatch : s.latch.env.sdaEnv = (s.env.ahead 0).sda := Env.sdaEnv_of_none (by simp [hx])
  have hl : s.latch.env.bus
      = s.env.bus.see (s.sdaOut && (s.env.ahead 0).sda) (s.sclOut && (s.env.ahead 0).scl) := by
    simp [Env.observe, hsda]
  rw [tick_of_low hr] at h
  rw [← hl]
  rcases primitive_shows h with hw | hw
  · rw [hw.env, hw.sda, hw.scl, hl]
    exact (Bus.see_again ..).symm
  · rw [hw, Env.observe, hlatch]
    simp

/-- What the monitor sees of several ticks. -/
theorem bus_of_ticks (n : Nat) : ∀ {s : State}, s.env.noReset → s.env.expander = none →
    ticks n s = .next t →
    t.env.bus = s.env.bus.watch s.env.ahead (s.sdaOut, s.sclOut) (driveTrace n s) := by
  induction n with
  | zero => intro s _ _ h; cases h; rfl
  | succ n ih =>
    intro s hr hx h
    obtain ⟨u, hu, h⟩ := andThen_eq_next.mp h
    have ha := tick_after hu
    rw [ih (ha.noReset hr) (ha.lone hx) h, tick_bus (hr 0) hx hu, driveTrace_of_tick hu, Bus.watch]
    congr 1
    exact funext ha.ahead

end Sys2Proof.Machine

/-! PROOF. The monitor over a byte (R62, R66, R109; log entry 13), and `WBYTE` on the wire. -/

namespace Sys2Proof.Machine

variable {s : State}

/-! ### Data clocks -/

/-- The monitor after a data clock that carries `x` (R62, R108). -/
def Bus.heard (b : Bus) (x : Bool) : Bus :=
  { b with sda := x, scl := false, nbits := b.nbits + 1, shift := shiftIn b.shift x }

/-- With the clock low before and after, only the data line's level is new. -/
theorem Bus.see_low {b : Bus} (hs : b.scl = false) (x : Bool) :
    b.see x false = { b with sda := x } := by
  have h : b.event x false = .quiet := by simp [Bus.event, hs]
  rw [Bus.see, h, ← hs]
  rfl

/-- A data clock rises: one more bit. -/
theorem Bus.see_rise {b : Bus} (ha : b.active = true) (hs : b.scl = false) (hn : b.nbits < 8) :
    b.see b.sda true
      = { b with scl := true, nbits := b.nbits + 1, shift := shiftIn b.shift b.sda } := by
  have h : b.event b.sda true = .bit b.sda := by simp [Bus.event, ha, hs, hn]
  rw [Bus.see, h]
  rfl

/-- A data clock falls: the monitor waits for the next clock. -/
theorem Bus.see_fall {b : Bus} (hs : b.scl = true) (hn : b.nbits ≤ 8) :
    b.see b.sda false = { b with scl := false } := by
  have h : b.record (b.event b.sda false) = b := by
    have h9 : b.nbits ≠ 9 := by omega
    simp only [Bus.event, hs, h9]
    cases b.active <;> by_cases h8 : b.nbits = 8 <;> simp [h8, Bus.record]
  rw [Bus.see, h]

/-- A data clock of the block, with every device off the lines. -/
theorem watch_bit {b : Bus} {f : Nat → Input} (ha : b.active = true) (hs : b.scl = false)
    (hn : b.nbits < 8) (hf : ∀ n, n < 5 → (f n).sda = true ∧ (f n).scl = true) (x : Bool)
    (ds : List (Bool × Bool)) :
    b.watch f (b.sda, false) (bitDrives false x ++ ds)
      = (b.heard x).watch (fun n => f (n + 5)) (x, false) ds := by
  have hrise := Bus.see_rise (b := { b with sda := x, scl := false }) ha rfl hn
  have hfall := Bus.see_fall (b := { b.heard x with scl := true }) rfl hn
  have hhigh := Bus.see_self { b.heard x with scl := true }
  simp only [Bus.heard] at hrise hfall hhigh ⊢
  simp [bitDrives, Bus.watch, hf 0, hf 1, hf 2, hf 3, hf 4, Bus.see_low, hs, hrise, hhigh, hfall]

/-- Data clocks one after the other, at most eight. -/
theorem watch_bits (l : List Bool) : ∀ {b : Bus} {f : Nat → Input}, b.active = true → b.scl = false →
    b.nbits + l.length ≤ 8 → (∀ n, n < 5 * l.length → (f n).sda = true ∧ (f n).scl = true) →
    ∀ ds : List (Bool × Bool), b.watch f (b.sda, false) (l.flatMap (bitDrives false) ++ ds)
      = (l.foldl Bus.heard b).watch (fun n => f (n + 5 * l.length)) ((l.foldl Bus.heard b).sda, false) ds := by
  induction l with
  | nil => intros; rfl
  | cons x l ih =>
    intro b f ha hs hn hf ds
    rw [List.length_cons] at hn hf
    rw [List.flatMap_cons, List.append_assoc,
      watch_bit ha hs (by omega) (fun n h => hf n (by omega)) x]
    have h := ih (b := b.heard x) (f := fun n => f (n + 5)) ha rfl
      (by simp only [Bus.heard]; omega) (fun n h => hf (n + 5) (by omega)) ds
    simp only [List.foldl_cons, List.length_cons, Nat.mul_add, Nat.add_assoc] at h ⊢
    simpa [Bus.heard, Nat.add_comm] using h

/-! ### A whole byte -/

/-- The bits of a byte in the order of the wire (R62). -/
def bitsOf (v : Byte) : List Bool := (List.range 8).map fun j => v.getLsbD (7 - j)

theorem bitsOf_eq (v : Byte) : bitsOf v = [v.getLsbD 7, v.getLsbD 6, v.getLsbD 5, v.getLsbD 4,
    v.getLsbD 3, v.getLsbD 2, v.getLsbD 1, v.getLsbD 0] := rfl

theorem shiftIn_getLsbD_zero (v : Byte) (x : Bool) : (shiftIn v x).getLsbD 0 = x := by
  simp [shiftIn]

theorem shiftIn_getLsbD_succ (v : Byte) (x : Bool) (j : Nat) :
    (shiftIn v x).getLsbD (j + 1) = (decide (j + 1 < 8) && v.getLsbD j) := by
  simp [shiftIn]

/-- Eight bits shifted in, most significant first, are the whole register (R62). -/
theorem foldl_shiftIn_bitsOf (u v : Byte) : (bitsOf v).foldl shiftIn u = v := by
  apply BitVec.eq_of_getLsbD_eq
  intro j hj
  rw [bitsOf_eq]
  simp only [List.foldl]
  interval_cases j <;> simp only [shiftIn_getLsbD_zero, shiftIn_getLsbD_succ] <;> simp

/-- The monitor after the eight data clocks of a byte. -/
theorem foldl_heard_bitsOf (b : Bus) (v : Byte) : (bitsOf v).foldl Bus.heard b
    = { b with sda := v.getLsbD 0, scl := false, nbits := b.nbits + 8, shift := v } := by
  have hshift := foldl_shiftIn_bitsOf b.shift v
  rw [bitsOf_eq] at hshift ⊢
  simp only [List.foldl] at hshift
  simp only [List.foldl, Bus.heard, hshift]

/-- The ninth clock and the park, with the data line held low from the fall of the eighth clock to the
fall of the ninth or not at all (R109, R110, R226). -/
theorem watch_ack {b : Bus} {f : Nat → Input} {ack : Bool} (ha : b.active = true) (hs : b.scl = false)
    (hn : b.nbits = 8) (hf : ∀ n, (f n).sda = !(ack && decide (n ≤ 6)) ∧ (f n).scl = true) :
    b.watch f (b.sda, false) ackDrives
      = { b with sda := false, nbits := 0, log := b.log ++ [.byte b.shift ack] } := by
  obtain ⟨sda, scl, active, nbits, shift, log⟩ := b
  subst ha hs hn
  cases sda <;> cases ack <;> simp [Bus.watch, ackDrives, hf _, Bus.see, Bus.event, Bus.record]

theorem byteDrives_eq (v : Byte) :
    byteDrives false v = (bitsOf v).flatMap (bitDrives false) ++ ackDrives := by
  simp [byteDrives, bitsOf_eq]

/-- From the parked lines, the monitor reads the byte and its acknowledgment, and waits for the next
byte. -/
theorem watch_byte {b : Bus} {f : Nat → Input} {ack : Bool} (ha : b.active = true)
    (hd : b.sda = false) (hs : b.scl = false) (hn : b.nbits = 0)
    (hf : ∀ n, (f n).sda = !(ack && decide (40 ≤ n) && decide (n ≤ 46)) ∧ (f n).scl = true) (v : Byte) :
    b.watch f (false, false) (byteDrives false v)
      = { b with shift := v, log := b.log ++ [.byte v ack] } := by
  have hbits := watch_bits (bitsOf v) (f := f) ha hs (by simp [hn, bitsOf_eq])
    (fun n h => by
      have h40 : ¬ 40 ≤ n := by simpa [bitsOf_eq] using h
      simpa [h40] using hf n) ackDrives
  rw [hd] at hbits
  rw [byteDrives_eq, hbits, foldl_heard_bitsOf]
  have hninth := watch_ack (b := { b with sda := v.getLsbD 0, scl := false, nbits := b.nbits + 8, shift := v })
    (f := fun n => f (n + 40)) (ack := ack) ha rfl (by simp [hn]) (fun n => by simpa using hf (n + 40))
  exact hninth.trans (by simp [hd, hs, hn])

/-! ### `WBYTE` on the wire -/

theorem drives_of_parked (h : s.parked = true) : s.sdaOut = false ∧ s.sclOut = false := by
  simpa [State.parked] using h

/-- While the block parks both lines, they are low whatever the devices do (R22, R110). -/
theorem inSync_iff_of_parked (h : s.parked = true) :
    InSync s ↔ s.env.bus.sda = false ∧ s.env.bus.scl = false := by
  obtain ⟨hsda, hscl⟩ := drives_of_parked h
  have hin : s.sdaIn = false ∧ s.sclIn = false := by simp [State.sdaIn, State.sclIn, hsda, hscl]
  exact ⟨fun ⟨h1, h2⟩ => ⟨h1.trans hin.1, h2.trans hin.2⟩,
    fun ⟨h1, h2⟩ => ⟨h1.trans hin.1.symm, h2.trans hin.2.symm⟩⟩

/-- `WBYTE v` on a bus with scripted devices alone that leave the clock free: what `run_single` says, and
the monitor has watched the drives of the byte. -/
theorem exec_wbyte_wire (hi : s.initd = true) (hr : s.env.noReset) (hx : s.env.expander = none)
    (hc : (s.env.ahead 43).scl = true) (v : Byte) :
    ∃ t, exec (.wbyte v) s = .next t ∧ t.lastok = s.env.ackAt 44 ∧ t.parked = true
      ∧ t.env.bus = s.env.bus.watch s.env.ahead (s.sdaOut, s.sclOut) (byteDrives s.sclOut v) := by
  have hexec : exec (.wbyte v) s = runCommand (entered (.wbyte v) s) :=
    (exec_eq_checked _ s).trans (checked_of_legal rfl (fun _ => hi) _)
  obtain ⟨t, hrun, hticks, hdrives, hpark, hok⟩ := run_single (i := .wbyte v)
    (s := s.accept (.wbyte v) (.byte .single .putBit)) rfl hr hc v
  refine ⟨t, hexec.trans hrun, hok hx, hpark, ?_⟩
  rw [bus_of_ticks 48 (s := entered (.wbyte v) s) hr hx hticks, entered, hdrives]
  rfl

/-- Settles O38: `WBYTE`'s drives are those of the byte, and the monitor reads them bit by bit. -/
theorem byteOnTheWire : Obligations.ByteOnTheWire := by
  unfold Obligations.ByteOnTheWire
  intro s v ack hi hp hsync hact hn hx hr hc hf
  obtain ⟨hsda, hscl⟩ := drives_of_parked hp
  obtain ⟨hbsda, hbscl⟩ := (inSync_iff_of_parked hp).mp hsync
  obtain ⟨t, hexec, hok, hpark, hbus⟩ := exec_wbyte_wire hi hr hx (hc 43) v
  rw [hsda, hscl, watch_byte hact hbsda hbscl hn (fun n => ⟨hf n, hc n⟩)] at hbus
  refine ⟨t, hexec, by simpa [Env.ackAt, hf 44] using hok, ?_⟩
  rw [inSync_iff_of_parked hpark, hbus]
  exact ⟨rfl, hn, hact, hbsda, hbscl⟩

end Sys2Proof.Machine

/-! PROOF. The command words (R80 to R83, R87, R90): the decoder said once, row by row, over the three
fields of a word, and what that makes of `encode`, of the opcode map of R82 and of the operands. -/

namespace Sys2Proof

open Machine
open Laws.Opcode (value)

variable {i j : Instr} {w : CmdWord} {m : BitVec 4} {v : Byte}

/-! ### The decoder, row by row -/

/-- Whether the bits that R81 says must be 0 are 0, in a word of the row of a command. -/
def zerosHold : Instr → BitVec 4 → Byte → Bool
  | .wbyte _, m, _ => m == 0#4
  | .ldbuf _ _, m, _ => m.getLsbD 3 == false
  | .wbytes _ _, m, v => m.extractLsb' 0 3 == 0#3 && v.extractLsb' 3 5 == 0#5
  | .beginw _, m, v => m == 0#4 && v.getLsbD 7 == false
  | .setaddr _, m, v => m == 0#4 && v.getLsbD 7 == false
  | .setbl _, m, v => m == 0#4 && v.extractLsb' 1 7 == 0#7
  | .pack _ _ _, m, _ => m.extractLsb' 2 2 == 0#2
  | .emitc _ _ _, m, _ => m.extractLsb' 2 2 == 0#2
  | .sendc _ _ _, m, _ => m.extractLsb' 2 2 == 0#2
  | .rdreg _, m, v => m == 0#4 && v.extractLsb' 4 4 == 0#4
  | .init, m, v => m == 0#4 && v == 0#8
  | .start, m, v => m == 0#4 && v == 0#8
  | .stop, m, v => m == 0#4 && v == 0#8
  | .endt, m, v => m == 0#4 && v == 0#8
  | .blnow, m, v => m == 0#4 && v == 0#8

/-- The command of the row of a command whose operands are those of `MOD` and `IMM` (R87). -/
def fromFields : Instr → BitVec 4 → Byte → Instr
  | .wbyte _, _, v => .wbyte v
  | .ldbuf _ _, m, v => .ldbuf (m.extractLsb' 0 3) v
  | .wbytes _ _, m, v => .wbytes (m.getLsbD 3) (v.extractLsb' 0 3)
  | .beginw _, _, v => .beginw (v.extractLsb' 0 7)
  | .setaddr _, _, v => .setaddr (v.extractLsb' 0 7)
  | .setbl _, _, v => .setbl (v.getLsbD 0)
  | .pack _ _ _, m, v => .pack (sizeOfMod m) (kindOfMod m) v
  | .emitc _ _ _, m, v => .emitc (sizeOfMod m) (kindOfMod m) v
  | .sendc _ _ _, m, v => .sendc (sizeOfMod m) (kindOfMod m) v
  | .rdreg _, _, v => .rdreg (v.extractLsb' 0 4)
  | .init, _, _ => .init
  | .start, _, _ => .start
  | .stop, _, _ => .stop
  | .endt, _, _ => .endt
  | .blnow, _, _ => .blnow

theorem checkWord_eq_ok {z : Bool} :
    checkWord z j = .ok i ↔ z = true ∧ j.wf = true ∧ j = i := by
  cases z <;> cases h : j.wf <;> simp [checkWord, h]

theorem decode_eq_some : decode w = some i ↔ decodeWord w = .ok i := by
  unfold decode
  split <;> simp [*]

/-- The verdict on a word whose `OP` is that of a row (R82, R83). -/
theorem decodeWord_of_op (h : opField w = value j) :
    decodeWord w
      = checkWord (zerosHold j (modField w) (immField w)) (fromFields j (modField w) (immField w)) := by
  unfold decodeWord
  rw [h]
  cases j <;> rfl

/-- A word decodes to a command of the row its `OP` names. -/
theorem opField_of_decodeWord (h : decodeWord w = .ok i) : opField w = value i := by
  unfold decodeWord at h
  dsimp only at h
  split at h
  case h_16 => cases h
  all_goals
    obtain ⟨-, -, rfl⟩ := checkWord_eq_ok.mp h
    exact BitVec.eq_of_toNat_eq ‹_›

/-- What it is for a word to be legal and mean `i` (R82, R83, R87). -/
theorem decode_eq_some_iff : decode w = some i ↔ opField w = value i
    ∧ zerosHold i (modField w) (immField w) = true
    ∧ i.wf = true ∧ fromFields i (modField w) (immField w) = i := by
  have hrow (hop : opField w = value i) : decode w = some i ↔
      zerosHold i (modField w) (immField w) = true
      ∧ i.wf = true ∧ fromFields i (modField w) (immField w) = i := by
    rw [decode_eq_some, decodeWord_of_op hop, checkWord_eq_ok]
    exact and_congr_right fun _ => and_congr_left fun h => by rw [h]
  exact ⟨fun h => have hop := opField_of_decodeWord (decode_eq_some.mp h); ⟨hop, (hrow hop).mp h⟩,
    fun ⟨hop, h⟩ => (hrow hop).mpr h⟩

/-- Settles O1: the decoder, evaluated. -/
theorem referenceWordsDecode : Obligations.ReferenceWordsDecode := by
  unfold Obligations.ReferenceWordsDecode
  decide

/-! ### The encoder -/

theorem cmd16_fields (w : CmdWord) : cmd16 (opField w) (modField w) (immField w) = w := by
  have h : modField w ++ immField w = w.extractLsb' 0 12 :=
    BitVec.extractLsb'_append_extractLsb'_eq_extractLsb' rfl
  rw [cmd16, BitVec.append_assoc, h]
  exact BitVec.extractLsb'_append_extractLsb'

/-- A field whose upper bits are 0 is its lower bits with zeros before them. -/
theorem zeros_append_extractLsb' {n k : Nat} {x : BitVec (n + k)} (h : x.extractLsb' k n = 0#n) :
    0#n ++ x.extractLsb' 0 k = x := by
  rw [← h, BitVec.extractLsb'_append_extractLsb']

theorem extractLsb'_one_eq_bit {n : Nat} (x : BitVec n) (k : Nat) :
    x.extractLsb' k 1 = bit (x.getLsbD k) := by
  apply BitVec.eq_of_getLsbD_eq
  intro l hl
  obtain rfl : l = 0 := by omega
  simp

theorem extractLsb'_one_eq_zero_iff {n k : Nat} {x : BitVec n} :
    x.extractLsb' k 1 = 0#1 ↔ x.getLsbD k = false := by
  rw [extractLsb'_one_eq_bit]
  cases x.getLsbD k <;> decide

theorem bit_append_extractLsb' {k : Nat} (x : BitVec (1 + k)) :
    bit (x.getLsbD k) ++ x.extractLsb' 0 k = x := by
  rw [← extractLsb'_one_eq_bit, BitVec.extractLsb'_append_extractLsb']

theorem getLsbD_bit_append {k : Nat} (b : Bool) (x : BitVec k) : (bit b ++ x).getLsbD k = b := by
  rw [BitVec.getLsbD_append]
  simp

/-- `SIZE` and `KIND` are the bits they were packed from (R81, R87). -/
theorem fields_packMod (size : Size) (kind : Kind) :
    (packMod size kind).extractLsb' 2 2 = 0#2 ∧ sizeOfMod (packMod size kind) = size
      ∧ kindOfMod (packMod size kind) = kind := by
  cases size <;> cases kind <;> decide

theorem packMod_fields : ∀ {m : BitVec 4}, m.extractLsb' 2 2 = 0#2 →
    packMod (sizeOfMod m) (kindOfMod m) = m := by decide

/-- A command's word has its must-be-zero bits 0 (R81). -/
theorem zerosHold_encode (i : Instr) :
    zerosHold i (modField (encode i)) (immField (encode i)) = true := by
  cases i <;> simp only [encode, zerosHold, modField_cmd16, immField_cmd16, Bool.and_eq_true,
    beq_iff_eq, fields_packMod]
  case ldbuf => exact getLsbD_bit_append false _
  case wbytes => exact ⟨BitVec.extractLsb'_append_eq_right, BitVec.extractLsb'_append_eq_left⟩
  case beginw | setaddr => exact ⟨rfl, getLsbD_bit_append false _⟩
  case setbl | rdreg => exact ⟨rfl, BitVec.extractLsb'_append_eq_left⟩
  case init | start | stop | endt | blnow => exact ⟨rfl, rfl⟩
  case wbyte => rfl

/-- The fields of a command's word give its operands back (R81, R87). -/
theorem fromFields_encode (i : Instr) :
    fromFields i (modField (encode i)) (immField (encode i)) = i := by
  cases i <;> simp only [encode, fromFields, modField_cmd16, immField_cmd16, fields_packMod]
  case ldbuf idx v => exact congrArg (Instr.ldbuf · v) BitVec.extractLsb'_append_eq_right
  case wbytes h n =>
    exact congrArg₂ Instr.wbytes (getLsbD_bit_append h _) BitVec.extractLsb'_append_eq_right
  case beginw a => exact congrArg Instr.beginw BitVec.extractLsb'_append_eq_right
  case setaddr a => exact congrArg Instr.setaddr BitVec.extractLsb'_append_eq_right
  case setbl b => exact congrArg Instr.setbl (by cases b <;> rfl)
  case rdreg r => exact congrArg Instr.rdreg BitVec.extractLsb'_append_eq_right

theorem opField_encode (i : Instr) : opField (encode i) = value i := by
  cases i <;> exact opField_cmd16 ..

/-- Fields whose must-be-zero bits are 0 are those of the word of the command they give (R81). -/
theorem encode_fromFields (hz : zerosHold j m v = true) :
    encode (fromFields j m v) = cmd16 (value j) m v := by
  cases j <;> simp only [zerosHold, Bool.and_eq_true, beq_iff_eq] at hz <;>
    simp only [fromFields, encode, value]
  case ldbuf => rw [zeros_append_extractLsb' (extractLsb'_one_eq_zero_iff.mpr hz)]
  case wbytes =>
    obtain ⟨hm, hv⟩ := hz
    rw [← hm, bit_append_extractLsb' (k := 3) m, zeros_append_extractLsb' hv]
  case beginw | setaddr =>
    obtain ⟨rfl, hv⟩ := hz
    rw [zeros_append_extractLsb' (extractLsb'_one_eq_zero_iff.mpr hv)]
    rfl
  case setbl =>
    obtain ⟨rfl, hv⟩ := hz
    rw [← extractLsb'_one_eq_bit, zeros_append_extractLsb' hv]
    rfl
  case rdreg =>
    obtain ⟨rfl, hv⟩ := hz
    rw [zeros_append_extractLsb' hv]
    rfl
  case pack | emitc | sendc => rw [packMod_fields hz]
  case wbyte => rw [hz]; rfl
  case init | start | stop | endt | blnow =>
    obtain ⟨rfl, rfl⟩ := hz
    rfl

/-- Settles O2: the row of the command decodes its word, and reads its operands back. -/
theorem decodeOfEncodeIsIdentity : Obligations.DecodeOfEncodeIsIdentity := by
  unfold Obligations.DecodeOfEncodeIsIdentity
  intro i hw
  exact decode_eq_some_iff.mpr ⟨opField_encode i, zerosHold_encode i, hw, fromFields_encode i⟩

/-- Settles O3: a legal word is put together from its fields, which are those of its command's word. -/
theorem legalWordsHaveOneMeaning : Obligations.LegalWordsHaveOneMeaning := by
  unfold Obligations.LegalWordsHaveOneMeaning
  intro w i h
  obtain ⟨hop, hz, hw, hi⟩ := decode_eq_some_iff.mp h
  have henc := encode_fromFields hz
  rw [hi, ← hop, cmd16_fields] at henc
  exact ⟨hw, henc⟩

/-! ### The opcode map of R82 -/

theorem cmd16_inj {op op' m m' : BitVec 4} {v v' : Byte} :
    cmd16 op m v = cmd16 op' m' v' ↔ op = op' ∧ m = m' ∧ v = v' := by
  refine ⟨fun h => ⟨?_, ?_, ?_⟩, by rintro ⟨rfl, rfl, rfl⟩; rfl⟩
  · simpa only [opField_cmd16] using congrArg opField h
  · simpa only [modField_cmd16] using congrArg modField h
  · simpa only [immField_cmd16] using congrArg immField h

theorem cmd16_and (op op' m m' : BitVec 4) (v v' : Byte) :
    cmd16 op m v &&& cmd16 op' m' v' = cmd16 (op &&& op') (m &&& m') (v &&& v') := by
  rw [cmd16, cmd16, BitVec.and_append, BitVec.and_append, cmd16]

/-- A mask over the lower bits of a field asks whether they are 0. -/
theorem and_lower_eq_zero_iff {n k : Nat} (x : BitVec (n + k)) :
    x &&& (0#n ++ BitVec.allOnes k) = 0#(n + k) ↔ x.extractLsb' 0 k = 0#k := by
  have h : x &&& (0#n ++ BitVec.allOnes k) = 0#n ++ x.extractLsb' 0 k := by
    conv_lhs => rw [← BitVec.extractLsb'_append_extractLsb' (x := x)]
    rw [BitVec.and_append, BitVec.and_allOnes, BitVec.and_zero]
  rw [h, ← BitVec.zero_append_zero, BitVec.append_right_inj]

/-- A mask over the upper bits of a field asks whether they are 0. -/
theorem and_upper_eq_zero_iff {n k : Nat} (x : BitVec (n + k)) :
    x &&& (BitVec.allOnes n ++ 0#k) = 0#(n + k) ↔ x.extractLsb' k n = 0#n := by
  have h : x &&& (BitVec.allOnes n ++ 0#k) = x.extractLsb' k n ++ 0#k := by
    conv_lhs => rw [← BitVec.extractLsb'_append_extractLsb' (x := x)]
    rw [BitVec.and_append, BitVec.and_allOnes, BitVec.and_zero]
  rw [h, ← BitVec.zero_append_zero, BitVec.append_left_inj]

/-- A word matches a row under its mask when its `OP` is the row's and the rest that the mask keeps is 0
(R82). -/
theorem row_match_iff (w : CmdWord) (j : Instr) :
    w &&& (rowOf j).mask = (rowOf j).matchBits ↔ opField w = value j
      ∧ modField w &&& modField (rowOf j).mask = 0 ∧ immField w &&& immField (rowOf j).mask = 0 := by
  have hmatch : (rowOf j).matchBits = cmd16 (value j) 0 0 := by
    cases j <;> dsimp only [rowOf, value] <;> rfl
  have hop : opField (rowOf j).mask = BitVec.allOnes 4 := by
    cases j <;> dsimp only [rowOf] <;> rfl
  conv_lhs =>
    rw [hmatch, ← cmd16_fields w, ← cmd16_fields (rowOf j).mask, cmd16_and, cmd16_inj, hop,
      BitVec.and_allOnes]

/-- What the masks of R82 keep besides `OP` is what R81 says must be 0. -/
theorem mask_iff_zerosHold (j : Instr) (m : BitVec 4) (v : Byte) :
    (m &&& modField (rowOf j).mask = 0 ∧ v &&& immField (rowOf j).mask = 0)
      ↔ zerosHold j m v = true := by
  have hm : m &&& BitVec.allOnes 4 = 0#4 ↔ m = 0#4 := by rw [BitVec.and_allOnes]
  have hv : v &&& BitVec.allOnes 8 = 0#8 ↔ v = 0#8 := by rw [BitVec.and_allOnes]
  have hnone : v &&& 0 = 0 := BitVec.and_zero
  have hm3 := (and_upper_eq_zero_iff (n := 1) (k := 3) m).trans extractLsb'_one_eq_zero_iff
  have hv7 := (and_upper_eq_zero_iff (n := 1) (k := 7) v).trans extractLsb'_one_eq_zero_iff
  cases j <;> simp only [rowOf, zerosHold, Bool.and_eq_true, beq_iff_eq]
  case init | start | stop | endt | blnow => exact and_congr hm hv
  case wbyte => exact (and_iff_left hnone).trans hm
  case ldbuf => exact (and_iff_left hnone).trans hm3
  case wbytes =>
    exact and_congr (and_lower_eq_zero_iff (n := 1) (k := 3) m)
      (and_upper_eq_zero_iff (n := 5) (k := 3) v)
  case beginw | setaddr => exact and_congr hm hv7
  case setbl => exact and_congr hm (and_upper_eq_zero_iff (n := 7) (k := 1) v)
  case pack | emitc | sendc =>
    exact (and_iff_left hnone).trans (and_upper_eq_zero_iff (n := 2) (k := 2) m)
  case rdreg => exact and_congr hm (and_upper_eq_zero_iff (n := 4) (k := 4) v)

theorem rowOf_fromFields (j : Instr) (m : BitVec 4) (v : Byte) :
    rowOf (fromFields j m v) = rowOf j := by cases j <;> rfl

/-- R82's limits on a word of a row are those on the command it stands for. -/
theorem limitHolds_eq_wf (hop : opField w = value j) :
    limitHolds w = (fromFields j (modField w) (immField w)).wf := by
  have hlt := w.isLt
  have hq : w.toNat / 4096 = (value j).toNat := by
    rw [← hop]
    simp [opField, Nat.shiftRight_eq_div_pow]
    omega
  unfold limitHolds
  rw [hq]
  cases j with
  | ldbuf => simp [fromFields, Instr.wf, legalIndex, value, modField, Nat.shiftRight_eq_div_pow]
  | wbytes => simp [fromFields, Instr.wf, legalCount, value, immField]
  | rdreg =>
    rw [Bool.eq_iff_iff]
    simp [fromFields, Instr.wf, legalReg, value, immField]
    omega
  | _ => rfl

/-- Settles O4: a row's match, mask and limits ask for its `OP`, its zeros and a well-formed command. -/
theorem opcodeMapIsTheDecoder : Obligations.OpcodeMapIsTheDecoder := by
  unfold Obligations.OpcodeMapIsTheDecoder
  intro w j
  constructor
  · rintro ⟨hmatch, hl⟩
    obtain ⟨hop, hz⟩ := (row_match_iff w j).mp hmatch
    have henc := encode_fromFields ((mask_iff_zerosHold ..).mp hz)
    rw [← hop, cmd16_fields] at henc
    rw [limitHolds_eq_wf hop] at hl
    exact ⟨_, henc ▸ decodeOfEncodeIsIdentity _ hl, rowOf_fromFields ..⟩
  · rintro ⟨i, hi, hrow⟩
    obtain ⟨hop, hz, hw, hi⟩ := decode_eq_some_iff.mp hi
    rw [← hrow, limitHolds_eq_wf hop, hi]
    exact ⟨(row_match_iff w i).mpr ⟨hop, (mask_iff_zerosHold ..).mpr hz⟩, hw⟩

/-! ### Operands -/

theorem Size.toBool_ofBool (b : Bool) : (Size.ofBool b).toBool = b := by cases b <;> rfl

theorem Kind.toBool_ofBool (b : Bool) : (Kind.ofBool b).toBool = b := by cases b <;> rfl

/-- A bit of `MOD` is a bit of the word eight places up (R80). -/
theorem modField_getLsbD (w : CmdWord) {k : Nat} (hk : k < 4) :
    (modField w).getLsbD k = w.getLsbD (8 + k) := by
  simp [modField, hk]

theorem modField_low (w : CmdWord) : (modField w).extractLsb' 0 3 = w.extractLsb' 8 3 := by
  rw [modField]
  ext k hk
  simp
  omega

theorem immField_low (w : CmdWord) {k : Nat} (hk : k ≤ 8) :
    (immField w).extractLsb' 0 k = w.extractLsb' 0 k :=
  BitVec.extractLsb'_extractLsb'_of_le (by omega)

theorem immField_getLsbD_zero (w : CmdWord) : (immField w).getLsbD 0 = w.getLsbD 0 := by
  simp [immField]

/-- Settles O5: a command has the operands that its row reads from the fields of its word. -/
theorem operandsComeFromTheirBits : Obligations.OperandsComeFromTheirBits := by
  unfold Obligations.OperandsComeFromTheirBits
  intro w i h
  obtain ⟨-, -, -, hi⟩ := decode_eq_some_iff.mp h
  have hsize := (Size.toBool_ofBool _).trans (modField_getLsbD w (k := 1) (by decide))
  have hkind := (Kind.toBool_ofBool _).trans (modField_getLsbD w (k := 0) (by decide))
  cases i with
  | init | start | stop | endt | blnow => trivial
  | wbyte v => exact (Instr.wbyte.inj hi).symm
  | ldbuf idx v =>
    obtain ⟨hidx, hv⟩ := Instr.ldbuf.inj hi
    exact ⟨hidx.symm.trans (modField_low w), hv.symm⟩
  | wbytes h n =>
    obtain ⟨hh, hn⟩ := Instr.wbytes.inj hi
    exact ⟨hh.symm.trans (modField_getLsbD w (by decide)), hn.symm.trans (immField_low w (by decide))⟩
  | beginw a => exact (Instr.beginw.inj hi).symm.trans (immField_low w (by decide))
  | setaddr a => exact (Instr.setaddr.inj hi).symm.trans (immField_low w (by decide))
  | setbl b => exact (Instr.setbl.inj hi).symm.trans (immField_getLsbD_zero w)
  | pack size kind v =>
    obtain ⟨rfl, rfl, hv⟩ := Instr.pack.inj hi
    exact ⟨hsize, hkind, hv.symm⟩
  | emitc size kind v =>
    obtain ⟨rfl, rfl, hv⟩ := Instr.emitc.inj hi
    exact ⟨hsize, hkind, hv.symm⟩
  | sendc size kind v =>
    obtain ⟨rfl, rfl, hv⟩ := Instr.sendc.inj hi
    exact ⟨hsize, hkind, hv.symm⟩
  | rdreg r => exact (Instr.rdreg.inj hi).symm.trans (immField_low w (by decide))

end Sys2Proof

/-! PROOF. The bits of the packed bytes (R85, R87, R141). -/

namespace Sys2Proof.Machine

/-- The layout of the control nibble (R85, R87). -/
theorem ctl_getLsbD (bl k e : Bool) (b : Nat) : (ctl bl k e).getLsbD b = [k, false, e, bl].getD b false := by
  match b with
  | 0 | 1 | 2 | 3 | 4 | 5 | 6 | 7 => revert bl k e; decide
  | b + 8 => exact BitVec.getLsbD_of_ge _ _ (by omega)

/-- A nibble on the data lines leaves the control bits 0 (R87). -/
theorem hi_getLsbD_of_lt (v : Byte) {b : Nat} (hb : b < 4) : (hi v).getLsbD b = false := by
  interval_cases b <;> simp [hi]

theorem lo_getLsbD_of_lt (v : Byte) {b : Nat} (hb : b < 4) : (lo v).getLsbD b = false := by
  simp [lo, hb]

/-- Each phase is a nibble on the data lines, none in the last, over its control bits: enable at the even
phases, the kind in all but the last (R141 to R143). -/
theorem packBytes_getD (bl : Bool) (size : Size) (kind : Kind) (v : Byte) {j : Nat}
    (hj : j < packedCount size) : ∃ d : Byte, (∀ b, b < 4 → d.getLsbD b = false)
      ∧ (j + 1 = packedCount size → d = 0)
      ∧ (packBytes bl size kind v).getD j 0
          = d ||| ctl bl (kind.toBool && decide (j + 1 < packedCount size)) (decide (j % 2 = 0)) := by
  have hhi := fun b => hi_getLsbD_of_lt v (b := b)
  have hlo := fun b => lo_getLsbD_of_lt v (b := b)
  have h0 : ∀ b, b < 4 → (0 : Byte).getLsbD b = false := fun _ _ => BitVec.getLsbD_zero
  cases size <;> rw [packedCount] at hj <;> interval_cases j <;>
    simp only [packBytes, packFull, packNibble, packedCount]
  · exact ⟨hi v, hhi, nofun, by simp⟩
  · exact ⟨hi v, hhi, nofun, by simp⟩
  · exact ⟨lo v, hlo, nofun, by simp⟩
  · exact ⟨lo v, hlo, nofun, by simp⟩
  · exact ⟨0, h0, fun _ => rfl, by simp⟩
  · exact ⟨lo v, hlo, nofun, by simp⟩
  · exact ⟨lo v, hlo, nofun, by simp⟩
  · exact ⟨0, h0, fun _ => rfl, by simp⟩

/-- Settles O22: a phase's control bits are those of its control nibble. -/
theorem controlBitsOfEachPhase : Obligations.ControlBitsOfEachPhase := by
  unfold Obligations.ControlBitsOfEachPhase
  intro bl size kind v j hj
  obtain ⟨d, hd, hlast, hbyte⟩ := packBytes_getD bl size kind v hj
  have hbit : ∀ b, b < 4 → ((packBytes bl size kind v).getD j 0).getLsbD b
      = [kind.toBool && decide (j + 1 < packedCount size), false, decide (j % 2 = 0), bl].getD b false := by
    intro b hb
    rw [hbyte, BitVec.getLsbD_or, hd b hb, ctl_getLsbD, Bool.false_or]
  refine ⟨hbit 1 (by decide), hbit 3 (by decide), hbit 2 (by decide), hbit 0 (by decide), fun h => ?_⟩
  rw [hbyte, hlast h]
  apply BitVec.eq_of_getLsbD_eq
  intro b hb
  simp [ctl_getLsbD]

end Sys2Proof.Machine

/-! PROOF. The responses of the commands (R84): what a primitive, a run and a whole command can answer, and
that a legal command answers when the clock is free (R107, R246). -/

namespace Sys2Proof.Machine

variable {i : Instr} {s t : State}

/-! ### The response word -/

/-- The code of a status in the field `ST` (R84). -/
def Status.code : Status → BitVec 2
  | .ok => 0
  | .nack => 1
  | .illegal => 2

theorem Response.word_eq (r : Response) : r.word = r.st.code ++ r.data := by
  obtain ⟨st, data⟩ := r
  cases st <;> rfl

/-! ### What a running command answers -/

/-- A piece of a command's course leaves the response port as it was, or answers the boolean a command
returns with `DATA` 0 (R84, R100 (e)). -/
def Responds (s t : State) : Prop :=
  t.rsp = s.rsp ∨ ∃ ok, t.rsp = some { st := statusOf ok, data := 0 }

theorem loopDone_responds (i : Instr) (ok : Bool) (s : State) : Responds s (loopDone i ok s) := by
  unfold loopDone
  split
  · exact .inl rfl
  · exact .inr ⟨ok, rfl⟩

theorem loadByte_rsp (h : loadByte s = .next t) : t.rsp = s.rsp := by
  unfold loadByte at h
  split at h <;> cases h
  rfl

theorem beginLoop_responds (h : beginLoop i s = .next t) : Responds s t := by
  unfold beginLoop at h
  dsimp only at h
  split at h
  · cases h
    exact loopDone_responds i true { s with sentcnt := 0, byteidx := 0 }
  · exact .inl ((loadByte_rsp h).trans rfl)

theorem nextByte_responds (h : nextByte i s = .next t) : Responds s t := by
  unfold nextByte at h
  split at h
  · exact .inl ((loadByte_rsp h).trans rfl)
  · cases h
    exact loopDone_responds i true s

theorem afterByte_responds {r : ByteRole} (h : afterByte i r s = .next t) : Responds s t := by
  cases r with
  | single => cases h; exact .inr ⟨_, rfl⟩
  | frame =>
    simp only [afterByte, afterFrame] at h
    split at h
    · split at h
      · exact beginLoop_responds (s := { s with lastok := !s.ackLevel }) h
      · cases h; exact loopDone_responds i false { s with lastok := !s.ackLevel }
    · cases h; exact .inr ⟨_, rfl⟩
  | data =>
    simp only [afterByte, afterData] at h
    split at h
    · split at h
      · cases h; exact .inl rfl
      · exact nextByte_responds (s := { s with lastok := !s.ackLevel, sentcnt := s.sentcnt + 1 }) h
    · cases h; exact loopDone_responds i false { s with lastok := !s.ackLevel }

theorem startStep_responds {p : StartPos} (h : startStep i p s = .next t) : Responds s t := by
  cases p
  case holdScl =>
    simp only [startStep, afterStart] at h
    split at h <;> cases h
    · exact .inl rfl
    · exact .inr ⟨true, rfl⟩
  all_goals cases h; exact .inl rfl

theorem byteStep_responds {r : ByteRole} {p : BytePos} (h : byteStep i r p s = .next t) :
    Responds s t := by
  cases p
  case parkSda => exact afterByte_responds (s := s.setSda false) h
  case ackWait =>
    cases h
    split <;> exact .inl rfl
  all_goals cases h; exact .inl rfl

theorem stopStep_responds {p : StopPos} (h : stopStep i p s = .next t) : Responds s t := by
  cases p
  case freeHold =>
    cases h
    exact .inr ⟨!closes i || s.lastok, by cases closes i <;> rfl⟩
  case waitScl =>
    cases h
    split <;> exact .inl rfl
  all_goals cases h; exact .inl rfl

theorem primitive_responds (h : primitive s = .next t) : Responds s t := by
  unfold primitive at h
  split at h
  · cases h; exact .inl rfl
  · split at h
    · cases h; exact .inl rfl
    · exact startStep_responds h
    · exact byteStep_responds h
    · exact nextByte_responds (s := s.delay _) h
    · exact stopStep_responds h

/-- A step clears the response before it (R84); if it ends the command it answers OK or NACK. -/
theorem tick_responds (h : tick s = .next t) :
    t.rsp = none ∨ ∃ ok, t.rsp = some { st := statusOf ok, data := 0 } := by
  rcases clocked_cases s primitive with hc | hc <;> rw [tick, hc] at h
  · cases h; exact .inl rfl
  · exact primitive_responds h

/-! ### Runs and whole commands -/

/-- What every tick brings about, from states with a property it keeps, a run of the command ends with. -/
theorem runCommand_establishes {I P : State → Prop}
    (hP : ∀ {s t : State}, I s → tick s = .next t → I t ∧ P t) (hs : I s)
    (h : runCommand s = .next t) : P t := by
  obtain ⟨u, hu, h⟩ := andThen_eq_next.mp h
  split at h
  · exact (runSteps_preserves (P := fun u => I u ∧ P u) (fun hs h => hP hs.1 h) _ (hP hs hu) h).2
  · cases h; exact (hP hs hu).2

theorem runCommand_responds (h : runCommand s = .next t) :
    t.rsp = none ∨ ∃ ok, t.rsp = some { st := statusOf ok, data := 0 } :=
  runCommand_establishes (I := fun _ => True) (fun _ h => ⟨trivial, tick_responds h⟩) trivial h

theorem answer_eq_zero (hi : ∀ n, i ≠ .rdreg n) (s : State) : answer i s = 0 := by
  cases i with
  | rdreg r => exact absurd rfl (hi r)
  | _ => rfl

/-- Settles O10: only a register's value is `DATA`; what else answers has 0 there. -/
theorem responseCoding : Obligations.ResponseCoding := by
  unfold Obligations.ResponseCoding
  refine ⟨fun r => ?_, fun i s t r hi h hr => ?_⟩
  · rw [r.word_eq, BitVec.extractLsb'_append_eq_left, BitVec.extractLsb'_append_eq_right]
    exact ⟨rfl, by cases r.st <;> decide⟩
  · have hclocked {f : State → Result} (hf : f s.latch = .next t → r.data = 0)
        (h : clocked s f = .next t) : r.data = 0 := by
      rcases clocked_cases s f with hc | hc <;> rw [hc] at h
      · cases h; cases hr
      · exact hf h
    obtain hc | ⟨-, -, hc⟩ := exec_cases i s <;> rw [hc] at h
    · exact hclocked (fun h => by cases h; cases hr; rfl) h
    · unfold course at h
      split at h
      · obtain hn | ⟨ok, hn⟩ := runCommand_responds h <;> rw [hn] at hr <;> cases hr
        rfl
      · exact hclocked (fun h => by cases h; cases hr; exact answer_eq_zero hi _) h

/-! ### On a free clock -/

/-- The scripted drive of the clock after a tick is the input of that tick. -/
theorem tick_scl (h : tick s = .next t) : t.env.scl = (s.env.ahead 0).scl := by
  rcases clocked_cases s primitive with hc | hc <;> rw [tick, hc] at h
  · cases h; rfl
  · rcases primitive_env h with he | ⟨a, b, he⟩ <;> rw [he] <;> rfl

theorem runCommand_scl (hc : s.env.clockFree) (h : runCommand s = .next t) : t.env.scl = true :=
  runCommand_establishes (I := fun u => u.env.clockFree) (P := fun u => u.env.scl = true)
    (fun hc h => ⟨(tick_after h).clockFree hc, (tick_scl h).trans (hc 0)⟩) hc h

/-- On a free clock no wait holds a command: its run ends it, with OK or NACK. -/
theorem runCommand_ends (a : Running i s) (hr : s.env.noReset) (hc : s.env.clockFree)
    (h : runCommand s = .next t) :
    t.curOp = none ∧ ∃ ok, t.rsp = some { st := statusOf ok, data := 0 } := by
  rcases runCommand_settled a hr h with ⟨hop, hrsp⟩ | ⟨at', -, hheld⟩
  · obtain hn | hok := runCommand_responds h
    · rw [hn] at hrsp; cases hrsp
    · exact ⟨hop, hok⟩
  · have hhigh : t.sclIn = true := by
      rw [State.sclIn, Env.sclEnv, at'.wait hheld.wait, runCommand_scl hc h]
      rfl
    exact absurd hhigh (by rw [hheld.low]; decide)

theorem statusOf_ok_or_nack (ok : Bool) : statusOf ok = .ok ∨ statusOf ok = .nack := by
  cases ok
  · exact .inr rfl
  · exact .inl rfl

/-- Settles O8: a legal command is one step, or a run that no read of the clock can hold. -/
theorem commandsEndOnAFreeClock : Obligations.CommandsEndOnAFreeClock := by
  unfold Obligations.CommandsEndOnAFreeClock
  intro i s hw hi hr hc
  by_cases hd : drives i = true
  · obtain ⟨t, ht⟩ := execAlwaysAnswersNext i s
    have hrun : runCommand (entered i s) = .next t := by
      rw [← ht, exec_eq_checked, checked_of_legal hw hi, course, if_pos hd]
    have henv := entered_env i s
    obtain ⟨hop, ok, hrsp⟩ :=
      runCommand_ends (running_entered hd s) (henv ▸ hr) (henv ▸ hc) hrun
    exact ⟨t, _, ht, hop, by rw [State.busy, hop]; rfl, hrsp, statusOf_ok_or_nack ok⟩
  · exact ⟨_, _, exec_of_oneStep hw hi (by simpa using hd) (hr 0), rfl, rfl, rfl, .inl rfl⟩

end Sys2Proof.Machine

/-! PROOF. The step of the machine between commands (R20, R43, R100 (a)): the host's next action is taken
off the queue and performed. -/

namespace Sys2Proof.Machine

variable {i : Instr} {s t : State} {w : CmdWord} {q : List HostAct}

theorem step_of_curOp (hop : s.curOp = some i) : step s = runCommand s.hostReads := by
  simp [step, machineStep, hop]

theorem step_of_idle (hop : s.curOp = none) : step s = hostStep s.hostReads := by
  simp [step, machineStep, hop]

theorem step_of_empty (hop : s.curOp = none) (hq : s.host.queue = []) :
    step s = idleStep s.hostReads := by
  rw [step_of_idle hop, hostStep, hostReads_queue, hq]

/-- Between commands a step performs the action at the head of the queue (log entry 15). -/
theorem step_of_queue {a : HostAct} (hop : s.curOp = none) (hq : s.host.queue = a :: q) :
    step s = hostAct a (s.hostReads.withQueue q) := by
  rw [step_of_idle hop, hostStep, hostReads_queue, hq]

theorem issueWord_of_decode (h : decode w = some i) (s : State) : issueWord w s = exec i s := by
  rw [issueWord, h]

theorem issueWord_of_illegal (h : decode w = none) (s : State) :
    issueWord w s = illegalCommand s := by
  rw [issueWord, h]

/-- A word is presented with `rst` low at the next step, whose other inputs stay. -/
theorem ahead_present (w : CmdWord) (s : State) :
    (s.present w).env.ahead 0 = { s.env.ahead 0 with rst := false } := by
  cases h : s.env.script <;> simp [State.present, Env.ahead, Env.advance, clearNextRst, h]

/-- A presented word changes nothing of the block but the command that runs (log entry 15). -/
theorem sameBlock_present (w : CmdWord) (s : State) : SameBlock s (s.present w) :=
  ⟨⟨rfl, rfl, rfl⟩, fun _ => rfl, rfl, ⟨rfl, rfl, rfl⟩, ⟨rfl, rfl⟩, ⟨rfl, rfl, rfl⟩⟩

/-- An idle step, whatever the host holds, leaves the block as it is (log entry 21). -/
theorem idleStep_sameBlock (hr : (s.env.ahead 0).rst = false) (a : HostAgent) :
    ∃ t, idleStep { s with host := a } = .next t ∧ t.curOp = s.curOp ∧ t.rsp = none
      ∧ SameBlock s t :=
  ⟨_, clocked_of_low (s := { s with host := a }) hr _, rfl, rfl,
    ⟨⟨rfl, rfl, rfl⟩, fun _ => rfl, rfl, ⟨rfl, rfl, rfl⟩, ⟨rfl, rfl⟩, ⟨rfl, rfl, rfl⟩⟩⟩

/-- With no command presented a step is idle; the host may have read a response, dropped an action or
updated its session (R43). -/
theorem step_of_not_cmdValid (hop : s.curOp = none) (hv : s.cmdValid = false) :
    ∃ a : HostAgent, step s = idleStep { s with host := a } := by
  rw [State.cmdValid, hostReads_queue] at hv
  cases hq : s.host.queue with
  | nil => exact ⟨_, (step_of_empty hop hq).trans (congrArg idleStep (hostReads_eq s))⟩
  | cons a q =>
    rw [hq] at hv
    rw [step_of_queue hop hq, hostReads_eq]
    cases a with
    | issue w => cases hv
    | track w => cases hv
    | ifOk w => exact ⟨_, if_neg (by simpa using hv)⟩
    | wait d => exact ⟨_, rfl⟩
    | width w => exact ⟨_, rfl⟩
    | cursor x y => exact ⟨_, rfl⟩
    | ready => exact ⟨_, rfl⟩

/-- Settles O6: each clause is the host's next action, performed. -/
theorem stepRunsTheDecodedCommand : Obligations.StepRunsTheDecodedCommand := by
  unfold Obligations.StepRunsTheDecodedCommand
  refine ⟨fun s w q i hop hq hd => ?_, fun s w q i hop hq hd => ?_, fun s w q i hop hq hok hd => ?_,
    fun s w q hop hq hd => ?_, fun s nbits w i hd => ⟨?_, rfl, sameBlock_present _ s, ?_⟩,
    fun s i hop => step_of_curOp hop, fun s hop hq => step_of_empty hop hq,
    fun s hready hv hr => ?_⟩
  · exact (step_of_queue hop hq).trans (issueWord_of_decode hd _)
  · exact (step_of_queue hop hq).trans (issueWord_of_decode hd _)
  · exact (step_of_queue hop hq).trans ((if_pos hok).trans (issueWord_of_decode hd _))
  · exact (step_of_queue hop hq).trans (issueWord_of_illegal hd _)
  · exact (step_of_queue (s := s.withFetchWord nbits w) rfl rfl).trans (issueWord_of_decode hd _)
  · rw [State.withFetchWord, ahead_present]
    exact ⟨rfl, rfl, rfl⟩
  · have hop : s.curOp = none := by simpa [State.cmdReady, State.busy] using hready
    obtain ⟨a, hstep⟩ := step_of_not_cmdValid hop hv
    obtain ⟨t, hidle, htop, hrsp, hsame⟩ := idleStep_sameBlock hr a
    exact ⟨t, hstep.trans hidle, by rw [State.busy, htop, hop]; rfl, hrsp, hsame⟩

end Sys2Proof.Machine

/-! PROOF. Commands of one step (R101, R111; log entry 3), and commands refused, as terms (R211, log entry
19) and as words (R83). -/

namespace Sys2Proof.Machine

variable {i : Instr} {s t : State}

/-! ### Legal commands -/

/-- What the checks before a command's first step ask for (R214). -/
structure Legal (i : Instr) (s : State) : Prop where
  wf : i.wf = true
  initd : i.needsInit = true → s.initd = true

theorem exec_of_legal (hl : Legal i s) : exec i s = course i s := by
  rw [exec_eq_checked, checked_of_legal hl.wf hl.initd]

theorem exec_of_not_legal (hl : ¬ Legal i s) : exec i s = illegalCommand s := by
  rw [exec_eq_checked]
  obtain hc | ⟨hw, hi, -⟩ := checked_legal i s (course i)
  · exact hc
  · exact absurd ⟨hw, hi⟩ hl

/-- A legal command that drives the lines runs from its first step. -/
theorem exec_of_drives (hl : Legal i s) (hd : drives i = true) :
    exec i s = runCommand (entered i s) := by
  rw [exec_of_legal hl, course, if_pos hd]

/-! ### Refusals -/

/-- IllegalCommand changes nothing (R211). -/
theorem illegalCommand_answers (h0 : (s.env.ahead 0).rst = false) :
    AnswersIllegal (illegalCommand s) s :=
  ⟨_, clocked_of_low h0 _, rfl, rfl,
    ⟨⟨rfl, rfl, rfl⟩, fun _ => rfl, rfl, ⟨rfl, rfl, rfl⟩, ⟨rfl, rfl⟩, ⟨rfl, rfl, rfl⟩⟩⟩

theorem exec_answersIllegal (hl : ¬ Legal i s) (h0 : (s.env.ahead 0).rst = false) :
    AnswersIllegal (exec i s) s := exec_of_not_legal hl ▸ illegalCommand_answers h0

/-- A word is illegal if a bit that must be 0 is 1, or a value limit fails, in the row its `OP` names
(R83). -/
theorem decode_eq_none_of_row {j : Instr} {w : CmdWord} (hop : opField w = Laws.Opcode.value j)
    (h : zerosHold j (modField w) (immField w) = false
      ∨ (fromFields j (modField w) (immField w)).wf = false) : decode w = none := by
  refine Option.eq_none_iff_forall_ne_some.mpr fun i hi => ?_
  rw [decode_eq_some, decodeWord_of_op hop, checkWord_eq_ok] at hi
  obtain ⟨hz, hw, -⟩ := hi
  rcases h with h | h
  · exact absurd hz (by simp [h])
  · exact absurd hw (by simp [h])

/-! ### One step -/

/-- A command of one step takes no delay, and the inputs have moved on by one (log entry 3). -/
theorem oneStep_effect (i : Instr) (s : State) :
    OneStep s ((effect i s.latch).finish .ok (answer i s.latch)) := by
  refine ⟨fun n => ?_, by cases i <;> rfl⟩
  cases i with
  | init => simp [effect]
  | _ => exact latch_ahead s n

/-- Settles O15: `INIT` is its one step's effect. -/
theorem initReleasesAndClears : Obligations.InitReleasesAndClears := by
  unfold Obligations.InitReleasesAndClears
  intro s h0
  exact ⟨_, exec_of_oneStep rfl nofun rfl h0, ⟨rfl, rfl, rfl⟩, oneStep_effect .init s, rfl, rfl, rfl, rfl,
    rfl, rfl, rfl, rfl, fun _ => rfl, rfl, ⟨rfl, rfl⟩, rfl⟩

/-- Settles O20: a legal index is one write of the buffer; the limits of R82 refuse the others. -/
theorem ldbufStoresOneByte : Obligations.LdbufStoresOneByte := by
  unfold Obligations.LdbufStoresOneByte
  refine ⟨fun s idx v hbuf h0 hidx => ?_, fun s idx v h0 hidx => ?_, fun w hop h => ?_⟩
  · have hw : (Instr.ldbuf idx v).wf = true := decide_eq_true hidx
    have hget : ∀ j, (s.txbuf.write idx.toNat v).get j = if idx.toNat = j then v else s.txbuf.get j :=
      fun j => Memory.get_write _ j v hbuf
    exact ⟨_, exec_of_oneStep hw nofun rfl h0, ⟨rfl, rfl, rfl⟩, oneStep_effect (.ldbuf idx v) s,
      (hget _).trans (if_pos rfl), fun j hj => (hget j).trans (if_neg hj.symm),
      Memory.write_wf v hbuf (Nat.lt_succ_of_le hidx), rfl, ⟨rfl, rfl, rfl⟩, ⟨rfl, rfl, rfl⟩,
      ⟨rfl, rfl⟩, ⟨rfl, rfl, rfl⟩⟩
  · refine exec_answersIllegal (fun hl => ?_) h0
    have hidx' : idx.toNat ≤ 4 := of_decide_eq_true hl.wf
    omega
  · refine decode_eq_none_of_row (j := .ldbuf 0 0) hop (h.imp (fun h11 => ?_) fun hidx => ?_)
    · simpa [zerosHold] using (modField_getLsbD w (k := 3) (by decide)).trans h11
    · rw [fromFields, modField_low]
      exact decide_eq_false (by omega)

/-- Settles O40: `WBYTES 0` is one step; the limits of R82 refuse the counts above 5. -/
theorem wbytesOfNothing : Obligations.WbytesOfNothing := by
  unfold Obligations.WbytesOfNothing
  refine ⟨fun s h hi h0 => ?_, fun s h n h0 hn => ?_, fun w hop hn => ?_⟩
  · exact ⟨_, exec_of_oneStep rfl (fun _ => hi) rfl h0, ⟨rfl, rfl, rfl⟩, oneStep_effect (.wbytes h 0) s,
      rfl, rfl, ⟨rfl, rfl, rfl⟩, ⟨rfl, rfl, rfl⟩, ⟨rfl, rfl, rfl⟩, fun _ => rfl, rfl⟩
  · refine exec_answersIllegal (fun hl => ?_) h0
    have hn' : n.toNat ≤ 5 := of_decide_eq_true hl.wf
    omega
  · refine decode_eq_none_of_row (j := .wbytes false 0) hop (.inr ?_)
    rw [fromFields, immField_low w (by decide)]
    exact decide_eq_false (by omega)

end Sys2Proof.Machine

/-! PROOF. The start and the stop condition (R102, R104) and the reads of the clock that wait for it (R107,
R212). -/

namespace Sys2Proof.Machine

variable {i : Instr} {s t : State}

/-! ### The drives -/

theorem driveTrace_start (hop : s.curOp = some i) (hu : s.ustep = .start .fallSda)
    (hr : s.env.noReset) : driveTrace 4 s =
      [(false, s.sclOut), (false, s.sclOut), (false, false), (false, false)] := by
  cases ha : addresses i <;>
    simp [driveTrace, tick, clocked, primitive, hop, hu, startStep, afterStart, ha, hr _]

theorem driveTrace_stop (hop : s.curOp = some i) (hu : s.ustep = .stop .fallSda)
    (hr : s.env.noReset) (hc : (s.env.ahead 3).scl = true) : driveTrace 7 s =
      [(false, s.sclOut), (false, s.sclOut), (false, true), (false, true), (false, true),
       (true, true), (true, true)] := by
  simp [driveTrace, tick, clocked, primitive, hop, hu, stopStep, afterStop, hr _, State.sclIn, hc]

/-! ### Whole conditions -/

/-- Settles O26: the four steps of a start condition end `START`. -/
theorem startParksAndOpens : Obligations.StartParksAndOpens := by
  unfold Obligations.StartParksAndOpens
  refine ⟨fun s hi hr => ⟨driveTrace_start (s := entered .start s) rfl rfl hr, ?_⟩, fun s hi h0 => ?_⟩
  · obtain ⟨e, -, h⟩ := leads_start (s := entered .start s) rfl rfl hr
    exact ⟨_, (exec_of_drives ⟨rfl, fun _ => hi⟩ rfl).trans ((h _ rfl).ended rfl (by decide)),
      ⟨rfl, rfl, rfl⟩, rfl, rfl, rfl, ⟨rfl, rfl, rfl⟩, ⟨rfl, rfl, rfl⟩, fun _ => rfl, rfl,
      ⟨rfl, rfl, rfl⟩, ⟨rfl, rfl⟩⟩
  · exact exec_answersIllegal (fun hl => by simp [hl.initd rfl] at hi) h0

/-- Settles O27: the seven steps of a stop condition end `STOP`. -/
theorem stopReleasesTheBus : Obligations.StopReleasesTheBus := by
  unfold Obligations.StopReleasesTheBus
  intro s hi hr hc
  refine ⟨driveTrace_stop (s := entered .stop s) rfl rfl hr (hc 3), ?_⟩
  obtain ⟨e, h⟩ := leads_stop (s := entered .stop s) rfl rfl hr (hc 3)
  exact ⟨_, (exec_of_drives ⟨rfl, fun _ => hi⟩ rfl).trans (h.ended rfl (by decide)),
    ⟨rfl, rfl, rfl⟩, rfl, rfl, ⟨rfl, rfl, rfl⟩, ⟨rfl, rfl, rfl⟩, fun _ => rfl, rfl,
    ⟨rfl, rfl, rfl⟩, ⟨rfl, rfl⟩⟩

/-! ### Waits -/

/-- The two places of `wait_scl_high()` (R107). -/
theorem atWait_cases {u : UStep} (h : atWait u = true) :
    (∃ r, u = .byte r .ackWait) ∨ u = .stop .waitScl := by
  unfold atWait at h
  split at h
  · exact .inl ⟨_, rfl⟩
  · exact .inr rfl
  all_goals cases h

/-- A read of a clock that a slave holds low leaves everything where it is (R107). -/
theorem tick_of_held (hop : s.curOp = some i) (hw : atWait s.ustep = true)
    (hc : (s.env.ahead 0).scl = false) (h0 : (s.env.ahead 0).rst = false) :
    tick s = .next s.latch := by
  have hl : s.latch.sclIn = false := by simp [State.sclIn, hc]
  rw [tick_of_low h0]
  obtain ⟨r, hu⟩ | hu := atWait_cases hw
  · simp [primitive, hop, hu, byteStep, hl]
  · simp [primitive, hop, hu, stopStep, hl]

/-- The running command of a wait. -/
theorem curOp_of_waiting (h : s.waiting = true) : ∃ i, s.curOp = some i ∧ atWait s.ustep = true := by
  obtain ⟨hb, hw⟩ := (Bool.and_eq_true _ _).mp h
  obtain ⟨i, hop⟩ := Option.isSome_iff_exists.mp hb
  exact ⟨i, hop, hw⟩

/-- A running command goes on, whatever of its host's plans the response before it changed. -/
theorem step_runs_on (hop : s.curOp = some i) :
    ∃ a : HostAgent, step s = runCommand { s with host := a } :=
  ⟨_, (step_of_curOp hop).trans (congrArg runCommand (hostReads_eq s))⟩

/-- Settles O31: the step is one read of the clock, which finds it low. -/
theorem waitStaysWhileTheClockIsLow : Obligations.WaitStaysWhileTheClockIsLow := by
  unfold Obligations.WaitStaysWhileTheClockIsLow
  intro s hw hc h0
  obtain ⟨i, hop, hat⟩ := curOp_of_waiting hw
  obtain ⟨a, hstep⟩ := step_runs_on hop
  have htick := tick_of_held (s := { s with host := a }) hop hat hc h0
  exact ⟨_, hstep.trans (runSteps_of_stay _ htick rfl), hw, rfl, rfl, rfl,
    ⟨⟨rfl, rfl, rfl⟩, fun _ => rfl, rfl, ⟨rfl, rfl, rfl⟩, ⟨rfl, rfl⟩, ⟨rfl, rfl, rfl⟩⟩,
    ⟨latch_ahead _, rfl⟩⟩

/-- A stop condition from its wait, the clock free at the step that reads it (R104, R107): four steps. -/
theorem leads_stop_of_wait (hop : s.curOp = some i) (hu : s.ustep = .stop .waitScl)
    (hs : s.sclOut = true) (hr : s.env.noReset) (hc : (s.env.ahead 0).scl = true) :
    ∃ e, Leads 4 [] s { s with
      sdaOut := true, sclOut := true, isOpen := false, curOp := none, ustep := .idle, timer := 0
      rsp := some { st := if closes i then statusOf s.lastok else .ok, data := 0 }
      spent := { s.spent with half := s.spent.half + 2 }, env := e } := by
  have hrun : s.curOp.isSome = true := by simp [hop]
  obtain ⟨e1, h1⟩ := (Run.refl s).wait (q := .stop .highHold) hr hrun (by simp [hu]) hs hc
    (by simp [primitive, hop, hu, stopStep])
  obtain ⟨e2, h2⟩ := h1.half (q := .stop .riseSda) hr hrun (by simp)
    (by simp [primitive, hop, stopStep])
  obtain ⟨e3, h3⟩ := h2.sda (b := true) (q := .stop .freeHold) hr hrun (by simp)
    (by simp [primitive, hop, stopStep])
  have hv : headOf s = [] := headOf_of_not (by simp [State.atByteHead, hu])
  rw [← hv]
  refine ⟨_, h3.leads hr ?_ (by simp) (after_latch _)⟩
  simp only [primitive, latch_curOp, latch_ustep, hop, stopStep, afterStop, ← hs]
  rfl

/-- A byte from the wait of its ninth clock, the clock free at the step that reads it (R107, R109, R110):
five steps, of which the second samples the data line. -/
theorem leads_single_of_wait (hop : s.curOp = some i) (hu : s.ustep = .byte .single .ackWait)
    (hd : s.sdaOut = true) (hs : s.sclOut = true) (hr : s.env.noReset)
    (hc : (s.env.ahead 0).scl = true) :
    ∃ a e, Leads 5 [] s { s with
        sdaOut := false, sclOut := false, curOp := none, ustep := .idle, timer := 0, ackLevel := a
        lastok := !a, rsp := some { st := statusOf !a, data := 0 }
        spent := { s.spent with half := s.spent.half + 1 }, env := e }
      ∧ (s.env.expander = none → a = (s.env.ahead 1).sda) := by
  have hrun : s.curOp.isSome = true := by simp [hop]
  obtain ⟨e1, h1⟩ := (Run.refl s).wait (q := .byte .single .ackSample) hr hrun (by simp [hu]) hs hc
    (by simp [primitive, hop, hu, byteStep])
  obtain ⟨a, e2, h2, ha⟩ := h1.sample (r := .single) hr hrun (by simp) hd
    (by simp [primitive, hop, byteStep])
  obtain ⟨e3, h3⟩ := h2.half (q := .byte .single .parkScl) hr hrun (by simp)
    (by simp [primitive, hop, byteStep])
  obtain ⟨e4, h4⟩ := h3.scl (b := false) (q := .byte .single .parkSda) hr hrun (by simp)
    (by simp [primitive, hop, byteStep])
  have hv : headOf s = [] := headOf_of_not (by simp [State.atByteHead, hu])
  rw [← hv]
  refine ⟨a, _, h4.leads hr ?_ (by simp) (after_drive _ false false), ha⟩
  simp only [primitive, latch_curOp, latch_ustep, hop, byteStep, afterByte]
  rfl

/-- Settles O33: the stop condition goes on from its wait. -/
theorem stretchedStopCompletes : Obligations.StretchedStopCompletes := by
  unfold Obligations.StretchedStopCompletes
  intro s i hop hi hu hs hr hc
  obtain ⟨a, hstep⟩ := step_runs_on hop
  obtain ⟨e, h⟩ := leads_stop_of_wait (s := { s with host := a }) hop hu hs hr hc
  have hcl : closes i = false := by rcases hi with rfl | rfl <;> rfl
  exact ⟨_, hstep.trans (h.ended rfl (by decide)), ⟨rfl, rfl, by simp [hcl]⟩, rfl, rfl,
    ⟨rfl, rfl, rfl⟩⟩

/-- Settles O34: the byte goes on from its wait, at which the invariant has both lines released. -/
theorem stretchedByteCompletes : Obligations.StretchedByteCompletes := by
  unfold Obligations.StretchedByteCompletes
  intro s v hinv hop hu hr hc
  have hlines := (running_of_inv hinv hop).2.lines
  simp only [hu, linesAt, Bool.and_eq_true] at hlines
  obtain ⟨hd, hs⟩ := hlines
  obtain ⟨a, hstep⟩ := step_runs_on hop
  obtain ⟨l, e, h, hl⟩ := leads_single_of_wait (s := { s with host := a }) hop hu hd hs hr hc
  exact ⟨_, !l, hstep.trans (h.ended rfl (by decide)), ⟨rfl, rfl, rfl⟩, rfl, rfl, rfl, rfl, rfl,
    ⟨rfl, rfl, rfl⟩, ⟨rfl, rfl, rfl⟩, fun _ => rfl, rfl, ⟨rfl, rfl⟩, fun hx => congrArg not (hl hx)⟩

/-- The invariant has the clock released by the block at a wait (R107). -/
theorem running_of_waiting (hinv : s.Inv) (hop : s.curOp = some i) (hat : atWait s.ustep = true) :
    Running i s := by
  have hlines := (running_of_inv hinv hop).2.lines
  refine ⟨hop, fun h => by simp [h, atWait] at hat, fun _ => ?_⟩
  obtain ⟨r, hu⟩ | hu := atWait_cases hat <;> rw [hu, linesAt, Bool.and_eq_true] at hlines
  · exact hlines.2
  · exact hlines.2

/-- Settles O35: no read of a free clock can hold the run. -/
theorem fromAWaitTheCommandEnds : Obligations.FromAWaitTheCommandEnds := by
  unfold Obligations.FromAWaitTheCommandEnds
  intro s hinv hw hr hc
  obtain ⟨i, hop, hat⟩ := curOp_of_waiting hw
  obtain ⟨a, hstep⟩ := step_runs_on hop
  have hinv' := inv_withHost hinv a
  obtain ⟨t, ht⟩ := runCommand_answers (bufferSafe_of_inv hinv')
  obtain ⟨hend, ok, hrsp⟩ := runCommand_ends (running_of_waiting hinv' hop hat) hr hc ht
  exact ⟨t, _, hstep.trans ht, by rw [State.busy, hend]; rfl, hrsp, statusOf_ok_or_nack ok⟩

end Sys2Proof.Machine

/-! PROOF. `WBYTE` and the byte loop of `WBYTES` on a free clock, whatever devices answer (R106, R112,
R149). -/

namespace Sys2Proof.Machine

/-- Settles O29: the data clocks, the ninth clock and the park, tick by tick. -/
theorem byteDrivesMsbFirst : Obligations.ByteDrivesMsbFirst := by
  unfold Obligations.ByteDrivesMsbFirst
  refine ⟨fun s v hr hc => ?_, fun s i r v hr hc => ?_⟩
  · obtain ⟨-, -, -, hdrives, -⟩ := run_single (i := .wbyte v)
      (s := s.accept (.wbyte v) (.byte .single .putBit)) rfl hr (hc 43) v
    exact hdrives
  · exact driveTrace_byte (i := i) (s := s.accept i (.byte r .putBit)) rfl hr (hc 43) v

/-- Settles O30: the 48 steps of the byte end `WBYTE` with the level sampled. -/
theorem wbyteReturnsTheAcknowledgment : Obligations.WbyteReturnsTheAcknowledgment := by
  unfold Obligations.WbyteReturnsTheAcknowledgment
  intro s v hi hr hc
  obtain ⟨a, e, -, ha, hL⟩ := leads_byte (i := .wbyte v) (r := .single)
    (s := s.accept (.wbyte v) (.byte .single .putBit)) rfl hr v (hc 43)
  have h := hL _ rfl rfl nofun
  exact ⟨_, !a, (exec_of_drives ⟨rfl, fun _ => hi⟩ rfl).trans (h.ended rfl (by decide)), ⟨rfl, rfl, rfl⟩,
    rfl, rfl, rfl, rfl, rfl, ⟨rfl, rfl, rfl⟩, ⟨rfl, rfl, rfl⟩, fun _ => rfl, rfl, ⟨rfl, rfl⟩,
    h.sent rfl (by decide), fun hx => congrArg not (ha hx)⟩

variable {i : Instr} {s : State} {n k : Nat}

/-- A byte loop that is a whole command ends it with its result (R112, R145). -/
theorem loopDone_of_not_closes (hcl : closes i = false) (ok : Bool) :
    loopDone i ok s = s.finish (statusOf ok) 0 := by simp [loopDone, hcl]

/-- The counters a byte loop leaves (R112). -/
theorem LoopLeft.of_loopLeft (a : Bool) (hk : k ≤ n) (h5 : n ≤ 5) (t : Spent) (e : Env) (st : Status)
    (d : Byte) : LoopLeft ((loopLeft i a n k t s e).finish st d) n k where
  sentcnt := by simp [loopLeft]; omega
  byteidx := by simp [loopLeft]; omega
  lastok := rfl
  shreg := rfl
  bitcnt := rfl

/-- The delays of a byte loop from its head (R112, R149). -/
theorem took_loopSpent {t : State} {h : Bool} (ht : t.spent = loopSpent h n 0 k s.spent) :
    Took s t (18 * loopBytes n k) (loopHooks h k) (loopPrearms h n k) := by
  refine ⟨?_, ?_, ?_⟩ <;> simp [ht, loopSpent, loopBytes, loopHooks, loopPrearms]

/-- The samples of a byte loop that begins at the next step (R109, R112). -/
theorem loopAck_zero (e : Env) (hook : Bool) :
    loopAck e 0 hook = fun m => !(e.ahead ((if hook then 49 else 48) * m + 44)).sda := by
  funext m
  rw [loopAck, Nat.zero_add, Env.ackAt]

/-- Settles O39: the byte loop, entered at index 0, ends `WBYTES`. -/
theorem wbytesStopsAtTheFirstNack : Obligations.WbytesStopsAtTheFirstNack := by
  unfold Obligations.WbytesStopsAtTheFirstNack
  intro s h n hi h1 h5 hr hc
  have hn : n ≠ 0 := by rintro rfl; cases h1
  obtain ⟨u, k, a, e, c, hbegin, -, -, -, hk, hc', hL, hx⟩ := leads_beginLoop (i := .wbytes h n)
    (s := s.accept (.wbytes h n) .idle) rfl hr hc rfl h1 h5
  obtain rfl : loopHead (s.accept (.wbytes h n) .idle) = u :=
    Host.Outcome.next.inj ((beginLoop_of_count (i := .wbytes h n) hn).symm.trans hbegin)
  have hbound : c ≤ runBound := by unfold runBound; omega
  rw [loopDone_of_not_closes rfl] at hL
  have hlegal : Legal (.wbytes h n) s := ⟨decide_eq_true h5, fun _ => hi⟩
  refine ⟨_, k, hk, (exec_of_drives hlegal (decide_eq_true hn)).trans (hL.ended rfl hbound),
    ⟨rfl, rfl, rfl⟩, LoopLeft.of_loopLeft a hk h5 _ e _ _, rfl, took_loopSpent rfl, rfl,
    ⟨rfl, rfl, rfl⟩, fun _ => rfl, rfl, ⟨_, hbegin, hL.sent rfl hbound⟩, fun hnone => ?_⟩
  rw [loopAck_zero]
  exact hx hnone

end Sys2Proof.Machine

/-! PROOF. The start and the stop condition on the wire (R103, R105; log entry 13), with devices that hold
what they drive, a reacting expander among them: once they have seen the lines, only a change of the
block's drives is seen. -/

namespace Sys2Proof.Machine

variable {i : Instr} {s t : State} {e : Env} {a b : Bool} {d : Bool × Bool}

/-! ### Devices that hold what they drive -/

/-- The devices hold what they drive, and the monitor has seen the block's drives `d`. -/
structure Env.Seen (e : Env) (d : Bool × Bool) : Prop where
  script : e.script = []
  sda : e.bus.sda = (d.1 && e.sdaEnv)
  scl : e.bus.scl = (d.2 && e.scl)

theorem Bus.event_self (m : Bus) : m.event m.sda m.scl = .quiet := by
  unfold Bus.event
  cases m.sda <;> cases m.scl <;> simp

/-- Lines that have been seen show nothing new (R22). -/
theorem Env.observe_of_seen (h : e.Seen (a, b)) : e.observe a b = e := by
  have hq := e.bus.event_self
  have hsee := e.bus.see_self
  rw [h.sda, h.scl] at hq hsee
  rw [Env.observe, Env.sclEnv, hsee, hq]
  cases hx : e.expander <;> simp [Expander.react, ← hx]

theorem Env.advance_of_empty (h : e.script = []) : e.advance = { e with rst := false } := by
  simp [Env.advance, h]

theorem Env.Seen.advance (h : e.Seen d) : e.advance.Seen d := by
  rw [Env.advance_of_empty h.script]
  exact ⟨h.script, h.sda, h.scl⟩

/-- A tick shows the devices the drives it leaves and nothing else. -/
theorem tick_env_of_seen (hs : s.env.Seen (s.sdaOut, s.sclOut)) (h : tick s = .next t) :
    t.env = s.env.advance.observe t.sdaOut t.sclOut := by
  have h0 : (s.env.ahead 0).rst = false := by rw [Env.ahead_of_empty hs.script]
  have hl : s.latch.env = s.env.advance := Env.observe_of_seen hs.advance
  rw [tick_of_low h0] at h
  rcases primitive_shows h with ⟨henv, hsda, hscl⟩ | henv
  · rw [henv, hl, hsda, hscl]
    exact (Env.observe_of_seen hs.advance).symm
  · rw [henv, hl]

/-- The environment after steps of a block that leaves the drives of a list. -/
def Env.shown (e : Env) (l : List (Bool × Bool)) : Env :=
  l.foldl (fun e d => e.advance.observe d.1 d.2) e

/-- Before each of those steps the devices have seen the lines, from the drives `d` on. -/
def Env.Follows (e : Env) (d : Bool × Bool) : List (Bool × Bool) → Prop
  | [] => True
  | c :: l => e.Seen d ∧ (e.advance.observe c.1 c.2).Follows c l

theorem env_of_ticks (n : Nat) : ∀ {s : State}, ticks n s = .next t →
    s.env.Follows (s.sdaOut, s.sclOut) (driveTrace n s) → t.env = s.env.shown (driveTrace n s) := by
  induction n with
  | zero => intro s h _; cases h; rfl
  | succ n ih =>
    intro s h hf
    obtain ⟨u, hu, h⟩ := andThen_eq_next.mp h
    rw [driveTrace_of_tick hu] at hf ⊢
    obtain ⟨hseen, hf⟩ := hf
    have henv := tick_env_of_seen hseen hu
    rw [← henv] at hf
    rw [ih h hf, henv]
    rfl

/-- Those steps are followed, and the monitor writes down the events `w`. -/
structure Env.Logs (e : Env) (d : Bool × Bool) (l : List (Bool × Bool)) (w : List WireEvent) : Prop where
  follows : e.Follows d l
  log : (e.shown l).bus.log = e.bus.log ++ w

theorem Env.Logs.nil (e : Env) (d : Bool × Bool) : e.Logs d [] [] :=
  ⟨trivial, (List.append_nil _).symm⟩

/-- An input that is held tells nothing. -/
theorem Env.Logs.of_advance {l : List (Bool × Bool)} {w : List WireEvent} (h : e.script = [])
    (hl : e.Logs d l w) : e.advance.Logs d l w := by
  have ha : e.advance.advance = e.advance := by simp [Env.advance, h]
  cases l with
  | nil => exact ⟨trivial, by simpa [Env.shown] using hl.log⟩
  | cons c l =>
    obtain ⟨⟨hseen, hf⟩, hlog⟩ := hl
    refine ⟨⟨hseen.advance, by rwa [ha]⟩, ?_⟩
    rw [Env.advance_bus, ← hlog, Env.shown, List.foldl_cons, ha]
    rfl

/-- A step at which the drives change. -/
theorem Env.Logs.change {c : Bool × Bool} {l : List (Bool × Bool)} {w w' : List WireEvent}
    (h : e.Seen d) (hlog : (e.observe c.1 c.2).bus.log = e.bus.log ++ w)
    (hl : (e.observe c.1 c.2).Logs c l w') : e.Logs d (c :: l) (w ++ w') := by
  have ha : e.advance.observe c.1 c.2 = (e.observe c.1 c.2).advance := by
    rw [Env.advance_of_empty h.script, Env.advance_of_empty (e := e.observe c.1 c.2) h.script]
    rfl
  have hl' := Env.Logs.of_advance (e := e.observe c.1 c.2) h.script hl
  rw [← ha] at hl'
  refine ⟨⟨h, hl'.follows⟩, ?_⟩
  rw [Env.shown, List.foldl_cons, ← List.append_assoc, ← hlog, ← hl.log]
  exact hl'.log.trans (by rw [ha, Env.advance_bus, hl.log])

theorem Env.Logs.silent {c : Bool × Bool} {l : List (Bool × Bool)} {w : List WireEvent}
    (h : e.Seen d) (hlog : (e.observe c.1 c.2).bus.log = e.bus.log)
    (hl : (e.observe c.1 c.2).Logs c l w) : e.Logs d (c :: l) w :=
  .change (w := []) h (by rw [hlog, List.append_nil]) hl

/-- A step with the drives as they were. -/
theorem Env.Logs.same {l : List (Bool × Bool)} {w : List WireEvent} (h : e.Seen d)
    (hl : e.Logs d l w) : e.Logs d (d :: l) w := by
  have hobs : e.observe d.1 d.2 = e := Env.observe_of_seen h
  exact .silent h (by rw [hobs]) (by rwa [hobs])

/-- While the block holds the data line low, the devices have seen the lines. -/
theorem Env.seen_observe_low (h : e.script = []) (b : Bool) : (e.observe false b).Seen (false, b) :=
  ⟨h, rfl, rfl⟩

/-! ### The monitor at the changes of a start and a stop condition -/

/-- With the clock low afterwards, nothing is written down. -/
theorem Bus.see_low_log (m : Bus) (x : Bool) : (m.see x false).log = m.log := by
  have h : (m.record (m.event x false)).log = m.log := by
    unfold Bus.event
    simp only [Bool.and_false, Bool.false_eq_true, if_false]
    split_ifs <;> rfl
  exact h

theorem Env.observe_low_log (e : Env) (a : Bool) : (e.observe a false).bus.log = e.bus.log :=
  e.bus.see_low_log _

/-- A fall of the data line alone: a start condition if both lines were high (R103). -/
theorem Bus.see_fallSda_log (m : Bus) :
    (m.see false m.scl).log = m.log ++ if m.sda && m.scl then [.start] else [] := by
  unfold Bus.see Bus.event
  cases m.sda <;> cases m.scl <;> simp [Bus.record]

/-- What the devices leave of the data line stays at a data clock, and at a start or a stop condition that
finds it released. -/
theorem Env.observe_sdaEnv {v : BusEvent} (h : e.bus.event (a && e.sdaEnv) (b && e.scl) = v)
    (hv : v = .quiet ∨ (∃ x, v = .bit x) ∨ (e.sdaEnv = true ∧ (v = .start ∨ v = .stop))) :
    (e.observe a b).sdaEnv = e.sdaEnv := by
  cases hx : e.expander with
  | none => simp [Env.sdaEnv, Env.observe, hx]
  | some x =>
    have hs : (e.observe a b).sdaEnv = (e.sda && !(x.react v).driving) := by
      rw [← h]; simp [Env.sdaEnv, Env.observe, Env.sclEnv, hx]
    have hs' : e.sdaEnv = (e.sda && !x.driving) := by simp [Env.sdaEnv, hx]
    rw [hs, hs']
    obtain rfl | ⟨y, rfl⟩ | ⟨hd, rfl | rfl⟩ := hv
    · rfl
    · rfl
    all_goals
      rw [hs', Bool.and_eq_true] at hd
      simp [Expander.react, hd]

/-- The data line falls on a high clock: a start condition if a device did not hold it low (R103). -/
theorem observe_startCondition (h : e.Seen (true, true)) (hc : e.scl = true) :
    (e.observe false true).bus.log = e.bus.log ++ (if e.sdaEnv then [.start] else [])
      ∧ (e.observe false true).sdaEnv = e.sdaEnv := by
  have hsda : e.bus.sda = e.sdaEnv := h.sda
  have hscl : e.bus.scl = true := h.scl.trans hc
  constructor
  · have hlog := e.bus.see_fallSda_log
    rw [hscl, hsda, Bool.and_true] at hlog
    rw [← hlog]
    simp [Env.observe, Env.sclEnv, hc]
  · refine Env.observe_sdaEnv (v := if e.sdaEnv then .start else .quiet) ?_ ?_
    · simp [Bus.event, hsda, hscl, hc]
    · cases e.sdaEnv <;> simp

/-- The data line is let go on a high clock: a stop condition if no device holds it low (R105). -/
theorem observe_stopCondition (h : e.Seen (false, true)) (hc : e.scl = true) :
    (e.observe true true).bus.log = e.bus.log ++ (if e.sdaEnv then [.stop] else [])
      ∧ (e.observe true true).sdaEnv = e.sdaEnv := by
  have hsda : e.bus.sda = false := h.sda
  have hscl : e.bus.scl = true := h.scl.trans hc
  have hev : e.bus.event e.sdaEnv true = if e.sdaEnv then .stop else .quiet := by
    simp [Bus.event, hsda, hscl]
  constructor
  · simp only [Env.observe, Env.sclEnv, hc, Bool.true_and, Bus.see, hev]
    cases e.sdaEnv <;> simp [Bus.record]
  · refine Env.observe_sdaEnv (v := if e.sdaEnv then .stop else .quiet) ?_ ?_
    · rw [← hev]; simp [hc]
    · cases e.sdaEnv <;> simp

/-- The clock rises with the data line low and no byte under way: at most a data bit. -/
theorem observe_raise (h : e.Seen (false, false)) (hn : e.bus.nbits = 0) (hc : e.scl = true) :
    (e.observe false true).bus.log = e.bus.log ∧ (e.observe false true).sdaEnv = e.sdaEnv := by
  have hsda : e.bus.sda = false := h.sda
  have hscl : e.bus.scl = false := h.scl
  have hev : e.bus.event false true = if e.bus.active then .bit false else .quiet := by
    simp [Bus.event, hsda, hscl, hn]
  constructor
  · simp only [Env.observe, Env.sclEnv, hc, Bool.false_and, Bool.true_and, Bus.see, hev]
    cases e.bus.active <;> rfl
  · refine Env.observe_sdaEnv (v := if e.bus.active then .bit false else .quiet) ?_ ?_
    · rw [← hev]; simp [hc]
    · cases e.bus.active <;> simp

/-- A whole start condition, from lines at any level (R102, R103). -/
theorem logs_start (h : e.Seen (a, b)) :
    e.Logs (a, b) [(false, b), (false, b), (false, false), (false, false)]
      (if e.bus.sda && e.bus.scl then [.start] else []) := by
  have h1 := Env.seen_observe_low h.script b
  have h2 := Env.seen_observe_low (e := e.observe false b) h.script false
  have hfall : (e.observe false b).bus.log
      = e.bus.log ++ if e.bus.sda && e.bus.scl then [.start] else [] := by
    rw [← e.bus.see_fallSda_log, h.scl]
    rfl
  rw [← List.append_nil (if e.bus.sda && e.bus.scl then [WireEvent.start] else [])]
  exact .change h hfall (.same h1 (.silent h1 (Env.observe_low_log _ _)
    (.same h2 (.nil _ _))))

/-- The end of a stop condition, the clock released (R104, R105). -/
theorem logs_riseSda (h : e.Seen (false, true)) (hc : e.scl = true) :
    e.Logs (false, true) [(true, true), (true, true)] (if e.sdaEnv then [.stop] else []) := by
  obtain ⟨hlog, hsda⟩ := observe_stopCondition h hc
  have hseen : (e.observe true true).Seen (true, true) :=
    ⟨h.script, hsda.symm.trans (Bool.true_and _).symm, rfl⟩
  rw [← List.append_nil (if e.sdaEnv then [WireEvent.stop] else [])]
  exact .change h hlog (.same hseen (.nil _ _))

/-- A whole stop condition from the parked lines, with no byte under way (R105). -/
theorem logs_stop_parked (h : e.Seen (false, false)) (hn : e.bus.nbits = 0) (hc : e.scl = true) :
    e.Logs (false, false) [(false, false), (false, false), (false, true), (false, true), (false, true),
      (true, true), (true, true)] (if e.sdaEnv then [.stop] else []) := by
  have h1 := Env.seen_observe_low h.script true
  obtain ⟨hlog, hsda⟩ := observe_raise h hn hc
  rw [← hsda]
  exact .same h (.same h (.silent h hlog
    (.same h1 (.same h1 (logs_riseSda h1 hc)))))

/-- A whole stop condition from the idle bus (R105, R131). -/
theorem logs_stop_released (h : e.Seen (true, true)) (hc : e.scl = true) :
    e.Logs (true, true) [(false, true), (false, true), (false, true), (false, true), (false, true),
      (true, true), (true, true)] (if e.sdaEnv then [.start, .stop] else []) := by
  have h1 := Env.seen_observe_low h.script true
  obtain ⟨hlog, hsda⟩ := observe_startCondition h hc
  have hw : (if e.sdaEnv then [.start, .stop] else [])
      = (if e.sdaEnv then [.start] else [])
        ++ if (e.observe false true).sdaEnv then [WireEvent.stop] else [] := by
    rw [hsda]; cases e.sdaEnv <;> rfl
  rw [hw]
  exact .change h hlog (.same h1 (.same h1 (.same h1 (.same h1 (logs_riseSda h1 hc)))))

/-! ### `START` and `STOP` -/

/-- A command that ends at the tick after a run. -/
theorem run_of_reaches {k : Nat} {u : State} (h : Reaches k s u) (hlast : tick u = .next t)
    (hend : t.curOp = none) (hk : k < runBound) :
    runCommand s = .next t ∧ ticks (k + 1) s = .next t := by
  obtain ⟨m, hm⟩ := Nat.exists_eq_add_of_lt hk
  rw [runCommand, hm, Nat.add_assoc, runSteps_of_reaches h, runSteps_of_end m hlast hend,
    ticks_of_reaches h, ticks, hlast]
  exact ⟨rfl, rfl⟩

theorem log_of_ticks {n : Nat} {w : List WireEvent} (h : ticks n s = .next t)
    (hl : s.env.Logs (s.sdaOut, s.sclOut) (driveTrace n s) w) : t.env.bus.log = s.env.bus.log ++ w := by
  rw [env_of_ticks n h hl.follows, hl.log]

/-- `START` ends, and the monitor has followed the drives of a start condition. -/
theorem exec_start_wire (hi : s.initd = true) (hr : s.env.noReset) :
    ∃ t, exec .start s = .next t ∧ Ended t .ok 0 ∧ t.isOpen = true
      ∧ ∀ w, s.env.Logs (s.sdaOut, s.sclOut)
          [(false, s.sclOut), (false, s.sclOut), (false, false), (false, false)] w →
        t.env.bus.log = s.env.bus.log ++ w := by
  obtain ⟨e, h⟩ := run_start (s := entered .start s) rfl rfl hr
  obtain ⟨hrun, hticks⟩ := run_of_reaches h.reaches
    (tick_holdScl (i := .start) rfl rfl (h.after.noReset hr 0)) rfl (by decide)
  have hd : driveTrace (3 + 1) (entered .start s)
      = [(false, s.sclOut), (false, s.sclOut), (false, false), (false, false)] :=
    driveTrace_start rfl rfl hr
  exact ⟨_, (exec_of_drives ⟨rfl, fun _ => hi⟩ rfl).trans hrun, ⟨rfl, rfl, rfl⟩, rfl,
    fun w hw => log_of_ticks (s := entered .start s) hticks (hd.symm ▸ hw)⟩

/-- `STOP` ends on a clock free at the step that reads it, and the monitor has followed the drives of a stop
condition. -/
theorem exec_stop_wire (hi : s.initd = true) (hr : s.env.noReset) (hc : (s.env.ahead 3).scl = true) :
    ∃ t, exec .stop s = .next t ∧ Ended t .ok 0
      ∧ ∀ w, s.env.Logs (s.sdaOut, s.sclOut)
          [(false, s.sclOut), (false, s.sclOut), (false, true), (false, true), (false, true),
           (true, true), (true, true)] w →
        t.env.bus.log = s.env.bus.log ++ w := by
  obtain ⟨e, h⟩ := run_stop (s := entered .stop s) rfl rfl hr hc
  obtain ⟨hrun, hticks⟩ := run_of_reaches h.reaches
    (tick_freeHold (i := .stop) rfl rfl (h.after.noReset hr 0)) rfl (by decide)
  have hd : driveTrace (6 + 1) (entered .stop s)
      = [(false, s.sclOut), (false, s.sclOut), (false, true), (false, true), (false, true),
         (true, true), (true, true)] := driveTrace_stop rfl rfl hr hc
  exact ⟨_, (exec_of_drives ⟨rfl, fun _ => hi⟩ rfl).trans hrun, ⟨rfl, rfl, rfl⟩,
    fun w hw => log_of_ticks (s := entered .stop s) hticks (hd.symm ▸ hw)⟩

/-- Settles O36: the first drive of a start condition tells whether there is one. -/
theorem startConditionOnTheWire : Obligations.StartConditionOnTheWire := by
  unfold Obligations.StartConditionOnTheWire
  intro s hi hscript hsync
  have hr : s.env.noReset := fun n => by rw [Env.ahead_of_empty hscript]
  obtain ⟨t, hexec, hend, hopen, hlog⟩ := exec_start_wire hi hr
  refine ⟨t, hexec, hend, hopen, ?_⟩
  rw [← hsync.sda, ← hsync.scl]
  exact hlog _ (logs_start ⟨hscript, hsync.sda, hsync.scl⟩)

/-- Settles O37: the drives after the clock is released tell whether there is a stop condition; from the
idle bus the first drive makes a start condition. -/
theorem stopConditionOnTheWire : Obligations.StopConditionOnTheWire := by
  unfold Obligations.StopConditionOnTheWire
  intro s hi hscript hscl hsync hn
  have hr : s.env.noReset := fun n => by rw [Env.ahead_of_empty hscript]
  have hc : (s.env.ahead 3).scl = true := by rw [Env.ahead_of_empty hscript]; exact hscl
  have hseen : s.env.Seen (s.sdaOut, s.sclOut) := ⟨hscript, hsync.sda, hsync.scl⟩
  obtain ⟨t, hexec, hend, hlog⟩ := exec_stop_wire hi hr hc
  refine ⟨t, hexec, hend, fun hp => ?_, fun hp => ?_⟩
  · obtain ⟨hsda, hclk⟩ := drives_of_parked hp
    rw [hsda, hclk] at hseen hlog
    exact hlog _ (logs_stop_parked hseen hn hscl)
  · obtain ⟨hsda, hclk⟩ := (Bool.and_eq_true _ _).mp hp
    rw [hsda, hclk] at hseen hlog
    exact hlog _ (logs_stop_released hseen hscl)

end Sys2Proof.Machine

/-! PROOF. What a command leaves unchanged, wherever it stands after its acceptance (10_state.md section 10,
R102, R104, R106, R112): the control position stays in the command's own body, and each body writes its
own registers. -/

namespace Sys2Proof.Machine

variable {i : Instr} {r : ByteRole} {s t u : State}

/-! ### After a byte and after a hook -/

/-- Where a command goes from the state `s` after a byte or a hook (R106, R112, R130, R146). -/
inductive Goes (i : Instr) (s : State) : State → Prop
  | answers (ok : Bool) : Goes i s (s.finish (statusOf ok) 0)
  | closing : closes i = true → Goes i s (s.goto (.stop .fallSda))
  | hook : hooked i = true → Goes i s (s.goto .hook)
  | data (v : Byte) : loops i = true → Goes i s (beginByte .data v s)

theorem loopDone_goes (i : Instr) (ok : Bool) (s : State) : Goes i s (loopDone i ok s) := by
  unfold loopDone
  split
  · next hc => exact .closing hc
  · exact .answers ok

theorem loadByte_goes (hl : loops i = true) (h : loadByte s = .next t) : Goes i s t := by
  unfold loadByte at h
  split at h <;> cases h
  exact .data _ hl

theorem beginLoop_goes (hl : loops i = true) (h : beginLoop i s = .next t) :
    Goes i { s with sentcnt := 0, byteidx := 0 } t := by
  unfold beginLoop at h
  dsimp only at h
  split at h
  · cases h; exact loopDone_goes i true _
  · exact loadByte_goes hl h

theorem nextByte_goes (hl : loops i = true) (h : nextByte i s = .next t) :
    ∃ b, Goes i { s with byteidx := b } t := by
  unfold nextByte at h
  split at h
  · exact ⟨_, loadByte_goes hl h⟩
  · cases h; exact ⟨s.byteidx, loopDone_goes i true s⟩

theorem loops_of_closes (h : closes i = true) : loops i = true := by
  cases i with
  | sendc | blnow => rfl
  | _ => cases h

theorem loops_of_hooked (h : hooked i = true) : loops i = true := by
  cases i with
  | wbytes | emitc | sendc => rfl
  | _ => cases h

/-- After a byte: its result is recorded, and only a byte loop's counters move (R29, R32, R106, R112). -/
theorem afterByte_goes {p : BytePos} (hb : belongs i (.byte r p) = true)
    (h : afterByte i r s = .next t) :
    ∃ b c, Goes i { s with lastok := !s.ackLevel, byteidx := b, sentcnt := c } t
      ∧ (loops i = false → b = s.byteidx ∧ c = s.sentcnt) := by
  have hloop (hl : loops i = true) {q : Prop} : loops i = false → q := fun h => by simp [hl] at h
  cases r with
  | single => cases h; exact ⟨_, _, .answers _, fun _ => ⟨rfl, rfl⟩⟩
  | frame =>
    simp only [afterByte, afterFrame] at h
    split at h
    · next hc =>
      split at h
      · exact ⟨_, _, beginLoop_goes (loops_of_closes hc) h, hloop (loops_of_closes hc)⟩
      · cases h; exact ⟨_, _, loopDone_goes i false _, fun _ => ⟨rfl, rfl⟩⟩
    · cases h; exact ⟨_, _, .answers _, fun _ => ⟨rfl, rfl⟩⟩
  | data =>
    have hl : loops i = true := hb
    simp only [afterByte, afterData] at h
    split at h
    · split at h
      · next hh => cases h; exact ⟨_, _, .hook hh, hloop hl⟩
      · obtain ⟨b, g⟩ := nextByte_goes hl h
        exact ⟨b, _, g, hloop hl⟩
    · cases h; exact ⟨_, _, loopDone_goes i false _, fun _ => ⟨rfl, rfl⟩⟩

/-! ### Within a command's body -/

/-- From `s` to `t` command `i` has stayed in its body: a command with no byte loop has not moved the loop's
counters, one with no start or stop condition has kept `OPEN`, one that sends no byte has kept the
shift state. -/
structure Within (i : Instr) (s t : State) : Prop where
  home : t.curOp = none ∨ belongs i t.ustep = true
  loop : loops i = false → SameLoop s t
  isOpen : (∀ p, belongs i (.start p) = false) → (∀ p, belongs i (.stop p) = false) →
    t.isOpen = s.isOpen
  shift : (∀ r p, belongs i (.byte r p) = false) → SameShift s t

theorem Within.refl (h : belongs i s.ustep = true) : Within i s s :=
  ⟨.inr h, fun _ => ⟨rfl, rfl⟩, fun _ _ => rfl, fun _ => ⟨rfl, rfl, rfl⟩⟩

theorem Within.trans (h : Within i s t) (h' : Within i t u) : Within i s u where
  home := h'.home
  loop hl := ⟨(h'.loop hl).byteidx.trans (h.loop hl).byteidx,
    (h'.loop hl).sentcnt.trans (h.loop hl).sentcnt⟩
  isOpen hs hp := (h'.isOpen hs hp).trans (h.isOpen hs hp)
  shift hb := ⟨(h'.shift hb).shreg.trans (h.shift hb).shreg,
    (h'.shift hb).bitcnt.trans (h.shift hb).bitcnt, (h'.shift hb).lastok.trans (h.shift hb).lastok⟩

theorem Goes.home (g : Goes i s t) : t.curOp = none ∨ belongs i t.ustep = true := by
  cases g with
  | answers ok => exact .inl rfl
  | closing hc => exact .inr (by simp [belongs, hc])
  | hook hh => exact .inr hh
  | data v hl => exact .inr hl

theorem Goes.isOpen (g : Goes i s t) : t.isOpen = s.isOpen := by cases g <;> rfl

theorem Goes.sameLoop (g : Goes i s t) : SameLoop s t := by cases g <;> exact ⟨rfl, rfl⟩

theorem afterByte_within {p : BytePos} (hb : belongs i (.byte r p) = true)
    (h : afterByte i r s = .next t) : Within i s t := by
  obtain ⟨b, c, g, hbc⟩ := afterByte_goes hb h
  refine ⟨g.home, fun hl => ?_, fun _ _ => g.isOpen, fun hn => by simp [hn] at hb⟩
  obtain ⟨rfl, rfl⟩ := hbc hl
  exact ⟨g.sameLoop.byteidx, g.sameLoop.sentcnt⟩

theorem byteStep_within {p : BytePos} (hu : s.ustep = .byte r p)
    (hb : belongs i (.byte r p) = true) (h : byteStep i r p s = .next t) : Within i s t := by
  have hmove {t : State} {q : BytePos} (hq : t.ustep = .byte r q) (hl : SameLoop s t)
      (ho : t.isOpen = s.isOpen) : Within i s t :=
    ⟨.inr (by rw [hq]; cases r <;> exact hb), fun _ => hl, fun _ _ => ho, fun hn => by simp [hn] at hb⟩
  cases p
  case parkSda =>
    refine Within.trans (t := s.setSda false) ?_ (afterByte_within hb h)
    exact hmove hu ⟨rfl, rfl⟩ rfl
  case ackWait =>
    cases h
    split
    · exact hmove rfl ⟨rfl, rfl⟩ rfl
    · exact hmove hu ⟨rfl, rfl⟩ rfl
  all_goals cases h; exact hmove rfl ⟨rfl, rfl⟩ rfl

theorem startStep_within {p : StartPos} (hb : belongs i (.start p) = true)
    (h : startStep i p s = .next t) : Within i s t := by
  cases p
  case holdScl =>
    have ho {q : Prop} : (∀ p, belongs i (.start p) = false) → q := fun hn => by simp [hn] at hb
    simp only [startStep, afterStart] at h
    split at h
    · next ha =>
      cases h
      exact ⟨.inr ha, fun _ => ⟨rfl, rfl⟩, ho, fun hn => absurd (hn .frame .putBit) (by simp [belongs, ha])⟩
    · cases h
      exact ⟨.inl rfl, fun _ => ⟨rfl, rfl⟩, ho, fun _ => ⟨rfl, rfl, rfl⟩⟩
  all_goals
    cases h
    exact ⟨.inr hb, fun _ => ⟨rfl, rfl⟩, fun _ _ => rfl, fun _ => ⟨rfl, rfl, rfl⟩⟩

theorem stopStep_within {p : StopPos} (hu : s.ustep = .stop p) (hb : belongs i (.stop p) = true)
    (h : stopStep i p s = .next t) : Within i s t := by
  cases p
  case freeHold =>
    cases h
    exact ⟨.inl rfl, fun _ => ⟨rfl, rfl⟩, fun _ hn => by simp [hn] at hb, fun _ => ⟨rfl, rfl, rfl⟩⟩
  case waitScl =>
    cases h
    split
    · exact ⟨.inr hb, fun _ => ⟨rfl, rfl⟩, fun _ _ => rfl, fun _ => ⟨rfl, rfl, rfl⟩⟩
    · exact .refl (hu ▸ hb)
  all_goals
    cases h
    exact ⟨.inr hb, fun _ => ⟨rfl, rfl⟩, fun _ _ => rfl, fun _ => ⟨rfl, rfl, rfl⟩⟩

theorem hookStep_within (hb : belongs i .hook = true) (h : hookStep i s = .next t) : Within i s t := by
  have hl : loops i = true := loops_of_hooked hb
  obtain ⟨b, g⟩ := nextByte_goes hl h
  exact ⟨g.home, fun hn => by simp [hl] at hn, fun _ _ => g.isOpen,
    fun hn => absurd (hn .data .putBit) (by simp [belongs, hl])⟩

theorem primitive_within (hop : s.curOp = some i) (hb : belongs i s.ustep = true)
    (h : primitive s = .next t) : Within i s t := by
  unfold primitive at h
  rw [hop] at h
  dsimp only at h
  split at h
  · cases h; exact .refl hb
  · next hu => exact startStep_within (hu ▸ hb) h
  · next hu => exact byteStep_within hu (hu ▸ hb) h
  · next hu => exact hookStep_within (hu ▸ hb) h
  · next hu => exact stopStep_within hu (hu ▸ hb) h

/-! ### Wherever a command stands -/

theorem tick_running (a : Running i s) (h0 : (s.env.ahead 0).rst = false) (h : tick s = .next t) :
    t.curOp = none ∨ Running i t := by
  rw [tick_of_low h0] at h
  have al : Running i s.latch := ⟨a.op, a.active, a.wait⟩
  obtain (⟨hop, -⟩ | ⟨at', -, -, -⟩) | ⟨rfl, -⟩ := primitive_onward al rfl h
  · exact .inl hop
  · exact .inr at'
  · exact .inr al

/-- Command `i`, which was at its first step at `e`, runs at `t` or has ended there, and has kept the
settings, the buffer and what its body does not write. -/
structure Kept (i : Instr) (e t : State) : Prop where
  keeps : Keeps e t
  within : Within i e t
  runs : t.curOp = none ∨ Running i t

theorem runCommand_kept {e : State} (hk : Kept i e s) (hc : s.curOp.isSome = true) (hr : s.env.noReset)
    (h : runCommand s = .next t) : Kept i e t ∧ t.env.noReset := by
  refine runSteps_induction (P := Kept i e) (fun {u v} hk hc hr h => ?_) _ hk hc hr h
  have a : Running i u := hk.runs.resolve_left fun hn => by simp [hn] at hc
  have hb : belongs i u.ustep = true := hk.within.home.resolve_left fun hn => by simp [hn] at hc
  have hl : Within i u u.latch :=
    ⟨.inr hb, fun _ => ⟨rfl, rfl⟩, fun _ _ => rfl, fun _ => ⟨rfl, rfl, rfl⟩⟩
  have hw := hl.trans (primitive_within a.op hb (tick_of_low (hr 0) ▸ h))
  exact ⟨hk.keeps.trans (tick_keeps (hr 0) h), hk.within.trans hw, tick_running a (hr 0) h⟩

theorem belongs_entered (hd : drives i = true) (s : State) : belongs i (entered i s).ustep = true := by
  cases i with
  | init | ldbuf | setaddr | setbl | pack | rdreg => cases hd
  | _ => rfl

/-- Where a command accepted at `s` stands later, `rst` low: it was refused, it took one step, or it runs or
has ended and has kept what its body does not write. -/
inductive Stands (i : Instr) (s : State) : State → Prop
  | refused : ¬ Legal i s → Stands i s { s.latch with rsp := some { st := .illegal, data := 0 } }
  | done : Legal i s → drives i = false →
      Stands i s ((effect i s.latch).finish .ok (answer i s.latch))
  | ran {t : State} : Legal i s → drives i = true → Kept i (entered i s) t → t.env.noReset →
      Stands i s t

theorem stands_of_exec (hr : s.env.noReset) (h : exec i s = .next t) : Stands i s t := by
  by_cases hl : Legal i s
  · cases hd : drives i with
    | false =>
      rw [exec_of_oneStep hl.wf hl.initd hd (hr 0)] at h
      cases h
      exact .done hl hd
    | true =>
      have hop := entered_curOp (needsInit_of_drives hd) s
      rw [exec_of_drives hl hd] at h
      obtain ⟨hk, hr'⟩ := runCommand_kept
        ⟨.refl _, .refl (belongs_entered hd s), .inr (running_entered hd s)⟩ (by rw [hop]; rfl)
        (by rwa [entered_env]) h
      exact .ran hl hd hk hr'
  · rw [exec_of_not_legal hl, illegalCommand, clocked_of_low (hr 0)] at h
    cases h
    exact .refused hl

theorem Carried.stands (hr : s.env.noReset) (h : Carried i s t) : Stands i s t := by
  induction h with
  | accepted h => exact stands_of_exec hr h
  | goesOn _ hb hn hs ih =>
    cases ih with
    | refused _ => cases hn
    | done _ _ => cases hn
    | ran hl hd hk hr' =>
      obtain ⟨j, hj⟩ := Option.isSome_iff_exists.mp hb
      rw [step_of_running hj hn] at hs
      obtain ⟨hk', hr''⟩ := runCommand_kept hk hb hr' hs
      exact .ran hl hd hk' hr''

/-! ### The frames -/

/-- A legal command that drives the lines has kept what it entered its body with. -/
theorem Carried.kept (hl : Legal i s) (hd : drives i = true) (hr : s.env.noReset)
    (h : Carried i s t) : Kept i (entered i s) t := by
  cases h.stands hr with
  | refused hn => exact absurd hl hn
  | done _ hd' => simp [hd] at hd'
  | ran _ _ hk _ => exact hk

theorem Keeps.sameBuffer (h : Keeps s t) : SameBuffer s t := fun j => by rw [h.txbuf]

/-- No command that drives the lines writes a setting (R35, R36, R33). -/
theorem Kept.sameSettings (h : Kept i (entered i s) t) : SameSettings s t := by
  obtain ⟨haddr, hbl, hinitd⟩ : SameSettings s (entered i s) := by cases i <;> exact ⟨rfl, rfl, rfl⟩
  exact ⟨h.keeps.addr.trans haddr, h.keeps.bl.trans hbl, h.keeps.initd.trans hinitd⟩

/-- A command with no byte loop enters its body with the buffer and the counters as they were. -/
theorem entered_of_not_loops (hl : loops i = false) (s : State) :
    (entered i s).txbuf = s.txbuf ∧ (entered i s).txlen = s.txlen ∧ SameLoop s (entered i s) := by
  cases i with
  | wbytes | emitc | sendc | blnow => cases hl
  | _ => exact ⟨rfl, rfl, ⟨rfl, rfl⟩⟩

/-- A command with no byte loop keeps the settings, the buffer and the counters. -/
theorem Carried.keeps_of_not_loops (hl : loops i = false) (hd : drives i = true) (hr : s.env.noReset)
    (h : Carried i s t) :
    SameSettings s t ∧ SameBuffer s t ∧ t.txlen = s.txlen ∧ SameLoop s t := by
  cases h.stands hr with
  | refused _ => exact ⟨⟨rfl, rfl, rfl⟩, fun _ => rfl, rfl, ⟨rfl, rfl⟩⟩
  | done _ hd' => simp [hd] at hd'
  | ran _ _ hk _ =>
    obtain ⟨hbuf, hlen, hidx, hsent⟩ := entered_of_not_loops hl s
    obtain ⟨hidx', hsent'⟩ := hk.within.loop hl
    exact ⟨hk.sameSettings, fun j => by rw [hk.keeps.txbuf, hbuf], hk.keeps.txlen.trans hlen,
      ⟨hidx'.trans hidx, hsent'.trans hsent⟩⟩

/-- A command with no start or stop condition keeps `OPEN` (R31). -/
theorem Carried.keeps_isOpen (hn : i.needsInit = true) (hstart : ∀ p, belongs i (.start p) = false)
    (hstop : ∀ p, belongs i (.stop p) = false) (hr : s.env.noReset) (h : Carried i s t) :
    t.isOpen = s.isOpen := by
  cases h.stands hr with
  | refused _ => rfl
  | done _ _ =>
    cases i with
    | init => cases hn
    | _ => rfl
  | ran _ _ hk _ =>
    have he : (entered i s).isOpen = s.isOpen := by cases i <;> rfl
    exact (hk.within.isOpen hstart hstop).trans he

/-- Settles O49: the body of a start or a stop condition writes neither the shift state nor the counters. -/
theorem conditionsKeepTheData : Obligations.ConditionsKeepTheData := by
  unfold Obligations.ConditionsKeepTheData
  intro i s t hi hr h
  have hd : drives i = true := by rcases hi with rfl | rfl | rfl <;> rfl
  have hl : loops i = false := by rcases hi with rfl | rfl | rfl <;> rfl
  obtain ⟨hset, hbuf, hlen, hloop⟩ := h.keeps_of_not_loops hl hd hr
  refine ⟨hset, hbuf, hlen, ?_, hloop⟩
  cases h.stands hr with
  | refused _ => exact ⟨rfl, rfl, rfl⟩
  | done _ hd' => simp [hd] at hd'
  | ran _ _ hk _ =>
    have hn : ∀ r p, belongs i (.byte r p) = false := by
      rcases hi with rfl | rfl | rfl <;> intro r p <;> cases r <;> rfl
    obtain ⟨hshreg, hbitcnt, hlastok⟩ := hk.within.shift hn
    rcases hi with rfl | rfl | rfl <;> exact ⟨hshreg, hbitcnt, hlastok⟩

/-- Settles O50: neither command has a byte loop, and `WBYTE` has no start or stop condition. -/
theorem byteCommandsKeepTheBuffer : Obligations.ByteCommandsKeepTheBuffer := by
  unfold Obligations.ByteCommandsKeepTheBuffer
  refine ⟨fun s t v hr h => ?_, fun s t a hr h => h.keeps_of_not_loops rfl rfl hr⟩
  obtain ⟨hset, hbuf, hlen, hloop⟩ := h.keeps_of_not_loops rfl rfl hr
  exact ⟨hset, hbuf, hlen, hloop, h.keeps_isOpen rfl (fun _ => rfl) (fun _ => rfl) hr⟩

/-! ### What is stored -/

/-- The transmit buffer after packing (R140, R144). -/
theorem holdsPacked_packed (hbuf : s.txbuf.wf = true) (size : Size) (kind : Kind) (v : Byte) :
    HoldsPacked s (s.packed size kind v) size kind v := by
  have hlen := packBytes_length s.bl size kind v
  have hfit : 0 + (packBytes s.bl size kind v).length ≤ Config.txbufDepth := by
    rw [hlen]; cases size <;> decide
  refine ⟨fun j => ?_, by cases size <;> rfl⟩
  rw [packed_txbuf, Memory.get_store _ j hbuf hfit, hlen, Nat.zero_add, Nat.sub_zero]
  simp only [Nat.zero_le, true_and]

theorem HoldsPacked.congr {size : Size} {kind : Kind} {v : Byte} (h : HoldsPacked s t size kind v)
    (hb : u.txbuf = t.txbuf) (hn : u.txlen = t.txlen) : HoldsPacked s u size kind v := by
  obtain ⟨hget, hlen⟩ := h
  exact ⟨fun j => by rw [hb, hget j], by rw [hn, hlen]⟩

/-- Settles O51: what is stored is stored before the first step, and no step after it stores anything. -/
theorem loopCommandsStoreOnlyTheirBytes : Obligations.LoopCommandsStoreOnlyTheirBytes := by
  unfold Obligations.LoopCommandsStoreOnlyTheirBytes
  refine ⟨fun s t h n hr hcar => ?_, fun s t size kind v hr hbuf hi hcar => ?_,
    fun s t size kind v hr hbuf hi hcar => ?_, fun s t hr hbuf hi hcar => ?_, fun s t i hop hr h => ?_⟩
  · have hopen := hcar.keeps_isOpen rfl (fun _ => rfl) (fun _ => rfl) hr
    cases hcar.stands hr with
    | refused _ => exact ⟨⟨rfl, rfl, rfl⟩, fun _ => rfl, rfl, hopen⟩
    | done _ _ => exact ⟨⟨rfl, rfl, rfl⟩, fun _ => rfl, rfl, hopen⟩
    | ran _ _ hk _ => exact ⟨hk.sameSettings, hk.keeps.sameBuffer, hk.keeps.txlen, hopen⟩
  · have hk := hcar.kept ⟨rfl, fun _ => hi⟩ rfl hr
    exact ⟨hk.sameSettings, (holdsPacked_packed hbuf size kind v).congr hk.keeps.txbuf hk.keeps.txlen,
      hcar.keeps_isOpen rfl (fun _ => rfl) (fun _ => rfl) hr⟩
  · have hk := hcar.kept ⟨rfl, fun _ => hi⟩ rfl hr
    exact ⟨hk.sameSettings, (holdsPacked_packed hbuf size kind v).congr hk.keeps.txbuf hk.keeps.txlen⟩
  · have hk := hcar.kept ⟨rfl, fun _ => hi⟩ rfl hr
    have hget (j : Nat) : t.txbuf.get j = if 0 = j then backlightByte s.bl else s.txbuf.get j := by
      rw [hk.keeps.txbuf]
      exact Memory.get_write 0 j _ hbuf
    exact ⟨hk.sameSettings, hk.keeps.txlen, hget 0, fun j hj => (hget j).trans (if_neg hj.symm)⟩
  · obtain ⟨a, hstep⟩ := step_runs_on hop
    have hkeeps := runSteps_keeps (s := { s with host := a }) (by rw [hop]; rfl) hr (hstep ▸ h)
    exact ⟨⟨hkeeps.addr, hkeeps.bl, hkeeps.initd⟩, hkeeps.sameBuffer, hkeeps.txlen⟩

end Sys2Proof.Machine

/-! PROOF. `END` and `BEGINW` (R130, R131, R133): on a free clock the steps of their bodies, and wherever they
have been kept waiting, what their positions say of the drives and of `OPEN`. -/

namespace Sys2Proof.Machine

variable {i : Instr} {s t : State} {a : Addr7}

/-- A property of a command's first state that its ticks keep holds wherever the command stands later. -/
theorem Carried.of_entered {P : State → Prop} (hl : Legal i s) (hd : drives i = true)
    (hr : s.env.noReset) (h0 : P (entered i s))
    (hP : ∀ {u v : State}, P u → u.curOp.isSome = true → u.env.noReset → tick u = .next v → P v)
    (h : Carried i s t) : P t ∧ t.env.noReset := by
  refine h.of_tick (fun he => ?_) hP
  rw [exec_of_drives hl hd] at he
  exact runSteps_induction hP _ h0 (by rw [entered_curOp (needsInit_of_drives hd)]; rfl)
    (by rwa [entered_env]) he

/-- The drives are those of a position (`linesAt`). -/
def State.linesOk (s : State) : Bool := linesAt s.isOpen s.sdaOut s.sclOut s.ustep

/-! ### `STOP` and `END` -/

/-- A command that is a stop condition alone runs, with the drives of its position, or has ended (R104,
R131). -/
inductive StopCourse (i : Instr) (t : State) : Prop
  | runs (p : StopPos) : t.curOp = some i → t.ustep = .stop p → t.linesOk = true → StopCourse i t
  | ended : Ended t .ok 0 → t.released = true → t.isOpen = false → StopCourse i t

theorem StopCourse.of_stopStep {p : StopPos} (hcl : closes i = false) (hop : s.curOp = some i)
    (hu : s.ustep = .stop p) (hl : s.linesOk = true) (h : stopStep i p s = .next t) :
    StopCourse i t := by
  rw [State.linesOk, hu] at hl
  cases p
  case freeHold => cases h; exact .ended ⟨rfl, rfl, by simp [hcl, State.finish]⟩ hl rfl
  case waitScl =>
    cases h
    split
    · exact .runs .highHold hop rfl hl
    · exact .runs .waitScl hop hu (by rwa [State.linesOk, hu])
  case raise => cases h; exact .runs _ hop rfl (by simpa [State.linesOk, linesAt] using hl)
  case riseSda =>
    cases h
    exact .runs _ hop rfl ((Bool.and_eq_true _ _).mp hl).2
  all_goals cases h; exact .runs _ hop rfl hl

theorem StopCourse.tick (hcl : closes i = false) (h : StopCourse i s) (hop : s.curOp.isSome = true)
    (hr : s.env.noReset) (ht : tick s = .next t) : StopCourse i t := by
  rw [tick_of_low (hr 0)] at ht
  cases h with
  | runs p hop' hu hl =>
    refine .of_stopStep (s := s.latch) (p := p) hcl hop' hu hl ?_
    simpa only [primitive, latch_curOp, latch_ustep, hop', hu] using ht
  | ended he _ _ => simp [he.curOp] at hop

/-- A `STOP` or `END` that has ended, however often its clock was found low, has released the lines and closed
the transaction (R104, R131). -/
theorem carried_stop_ended (hst : i = .stop ∨ i = .endt) (hi : s.initd = true) (hr : s.env.noReset)
    (h : Carried i s t) (hb : t.busy = false) :
    Ended t .ok 0 ∧ t.released = true ∧ t.isOpen = false := by
  have hwf : i.wf = true := by rcases hst with rfl | rfl <;> rfl
  have hd : drives i = true := by rcases hst with rfl | rfl <;> rfl
  have hcl : closes i = false := by rcases hst with rfl | rfl <;> rfl
  have h0 : StopCourse i (entered i s) := by
    rcases hst with rfl | rfl <;> exact .runs .fallSda rfl rfl rfl
  obtain ⟨hcourse, -⟩ := h.of_entered ⟨hwf, fun _ => hi⟩ hd hr h0 (StopCourse.tick hcl)
  cases hcourse with
  | runs p hop _ _ => simp [State.busy, hop] at hb
  | ended he hrel hopen => exact ⟨he, hrel, hopen⟩

/-- Settles O28: the seven steps of a stop condition end `END`; a wait keeps the drives of its position. -/
theorem endIsAStopCondition : Obligations.EndIsAStopCondition := by
  unfold Obligations.EndIsAStopCondition
  refine ⟨fun s hi hr hc => ?_, fun i s t hst hi hr => carried_stop_ended hst hi hr⟩
  obtain ⟨e, h⟩ := leads_stop (s := entered .endt s) rfl rfl hr (hc 3)
  exact ⟨_, (exec_of_drives ⟨rfl, fun _ => hi⟩ rfl).trans (h.ended rfl (by decide)),
    ⟨rfl, rfl, rfl⟩, rfl, rfl, ⟨rfl, rfl, rfl⟩, ⟨rfl, rfl, rfl⟩, fun _ => rfl, rfl,
    ⟨rfl, rfl, rfl⟩, ⟨rfl, rfl⟩⟩

/-! ### `BEGINW` -/

/-- `FRAME` is the address and a write bit of 0 (R86). -/
theorem frameOf_toNat (a : Addr7) : (frameOf a).toNat = 2 * a.toNat := by
  rw [frameOf, BitVec.toNat_append]
  simp [Nat.shiftLeft_eq, Nat.mul_comm]

/-- `BEGINW` makes its start condition, sends its address byte inside the transaction it has opened, or has
ended parked (R102, R110, R130). -/
inductive BeginCourse (a : Addr7) (t : State) : Prop
  | starts (p : StartPos) : t.curOp = some (.beginw a) → t.ustep = .start p → t.linesOk = true →
      BeginCourse a t
  | sends (p : BytePos) : t.curOp = some (.beginw a) → t.ustep = .byte .frame p → t.isOpen = true →
      t.linesOk = true → BeginCourse a t
  | ended : t.curOp = none → t.parked = true → t.isOpen = true → BeginCourse a t

theorem BeginCourse.of_startStep {p : StartPos} (hop : s.curOp = some (.beginw a))
    (hu : s.ustep = .start p) (hl : s.linesOk = true) (h : startStep (.beginw a) p s = .next t) :
    BeginCourse a t := by
  rw [State.linesOk, hu] at hl
  cases p
  case holdScl => cases h; exact .sends .putBit hop rfl rfl rfl
  case fallScl => cases h; exact .starts _ hop rfl (by simpa [State.linesOk, linesAt] using hl)
  all_goals cases h; exact .starts _ hop rfl hl

theorem BeginCourse.of_byteStep {p : BytePos} (hop : s.curOp = some (.beginw a))
    (hu : s.ustep = .byte .frame p) (ho : s.isOpen = true) (hl : s.linesOk = true)
    (h : byteStep (.beginw a) .frame p s = .next t) : BeginCourse a t := by
  have hl' := hl
  rw [State.linesOk, hu] at hl
  cases p
  case parkSda =>
    simp only [linesAt, Bool.and_eq_true] at hl
    cases h
    exact .ended rfl hl.2 ho
  case ackWait =>
    cases h
    split
    · exact .sends .ackSample hop rfl ho hl
    · exact .sends .ackWait hop hu ho hl'
  case fall =>
    cases h
    refine .sends (if (s.bitcnt + 1).toNat < 8 then .putBit else .ackRelease) hop rfl ho ?_
    simp only [State.linesOk, afterBit, goto_ustep]
    split <;> rfl
  all_goals
    cases h
    exact .sends _ hop rfl ho (by simp_all [State.linesOk, linesAt])

theorem BeginCourse.tick (h : BeginCourse a s) (hop : s.curOp.isSome = true) (hr : s.env.noReset)
    (ht : tick s = .next t) : BeginCourse a t := by
  rw [tick_of_low (hr 0)] at ht
  cases h with
  | starts p hop' hu hl =>
    refine .of_startStep (s := s.latch) (p := p) hop' hu hl ?_
    simpa only [primitive, latch_curOp, latch_ustep, hop', hu] using ht
  | sends p hop' hu ho hl =>
    refine .of_byteStep (s := s.latch) (p := p) hop' hu ho hl ?_
    simpa only [primitive, latch_curOp, latch_ustep, hop', hu] using ht
  | ended hn _ _ => simp [hn] at hop

/-- A `BEGINW` that has ended, however often its clock was found low, has parked the lines inside the
transaction it has opened (R130). -/
theorem carried_beginw_ended (hi : s.initd = true) (hr : s.env.noReset) (h : Carried (.beginw a) s t)
    (hb : t.busy = false) : t.parked = true ∧ t.isOpen = true ∧ t.env.noReset := by
  obtain ⟨h, hr'⟩ := h.of_entered (P := BeginCourse a) ⟨rfl, fun _ => hi⟩ rfl hr
    (.starts .fallSda rfl rfl rfl) BeginCourse.tick
  cases h with
  | starts p hop _ _ => simp [State.busy, hop] at hb
  | sends p hop _ _ _ => simp [State.busy, hop] at hb
  | ended _ hp ho => exact ⟨hp, ho, hr'⟩

/-- Settles O41: the four steps of a start condition and the 48 of the address byte end `BEGINW`. -/
theorem beginwSendsTheFrame : Obligations.BeginwSendsTheFrame := by
  unfold Obligations.BeginwSendsTheFrame
  refine ⟨fun s a hi hr hc => ?_, frameOf_toNat, fun s a hr => ?_, fun s t a hi hr hcar hb => ?_⟩
  · obtain ⟨e, he, hstart⟩ := leads_start (s := entered (.beginw a) s) rfl rfl hr
    have hstart := hstart (opened (entered (.beginw a) s) e) rfl
    obtain ⟨l, f, -, hl, hbyte⟩ := leads_byte (i := .beginw a) (r := .frame)
      (s := opened (entered (.beginw a) s) e) rfl (he.noReset hr) (frameOf a) (he.clockFree hc 43)
    have h := hstart.trans rfl (hbyte _ rfl rfl nofun)
    refine ⟨_, !l, (exec_of_drives ⟨rfl, fun _ => hi⟩ rfl).trans (h.ended rfl (by decide)),
      ⟨rfl, rfl, rfl⟩, rfl, rfl, rfl, rfl, rfl, ⟨rfl, rfl, rfl⟩, ⟨rfl, rfl, rfl⟩, fun _ => rfl, rfl,
      ⟨rfl, rfl⟩, h.sent rfl (by decide), fun hx => congrArg not ((hl (he.lone hx)).trans ?_)⟩
    exact congrArg Input.sda (he.ahead 44)
  · obtain ⟨e, h⟩ := run_start (s := entered (.beginw a) s) rfl rfl hr
    have hlast := tick_holdScl (i := .beginw a) rfl rfl (h.after.noReset hr 0)
    exact ⟨_, (ticks_of_reaches h.reaches 1).trans (congrArg (andThen · (ticks 0)) hlast), rfl, rfl, rfl⟩
  · obtain ⟨hp, ho, -⟩ := carried_beginw_ended hi hr hcar hb
    exact ⟨hp, ho⟩

/-- Settles O42: `BEGINW` keeps `INITD`, so the `END` after it is a stop condition, in whatever state `BEGINW`
has ended. -/
theorem beginThenEndReturnsToIdle : Obligations.BeginThenEndReturnsToIdle := by
  unfold Obligations.BeginThenEndReturnsToIdle
  intro s t u a hi hr hbegin hb hend hb'
  obtain ⟨-, -, hr'⟩ := carried_beginw_ended hi hr hbegin hb
  obtain ⟨hset, -⟩ := hbegin.keeps_of_not_loops rfl rfl hr
  obtain ⟨-, hrel, hopen⟩ := carried_stop_ended (.inr rfl) (hset.initd.trans hi) hr' hend hb'
  obtain ⟨hsda, hscl⟩ := (Bool.and_eq_true _ _).mp hrel
  exact ⟨hsda, hscl, hopen⟩

end Sys2Proof.Machine

/-! PROOF. The monitor and a reacting device, if there is one, on a bus that no scripted device drives (R22,
R103, R105, R109, R226; log entries 13, 14): what each change of the lines is to both of them. -/

namespace Sys2Proof.Machine

/-! ### The devices on a bus that nothing else drives -/

/-- No scripted device drives a line at any coming step, and `rst` is low. -/
def Env.Quiet (e : Env) : Prop := ∀ n, e.ahead n = { sda := true, scl := true, rst := false }

theorem Env.Quiet.noReset {e : Env} (h : e.Quiet) : e.noReset := fun n => by rw [h n]

theorem Env.Quiet.clockFree {e : Env} (h : e.Quiet) : e.clockFree := fun n => by rw [h n]

theorem After.quiet {k : Nat} {e f : Env} (h : After k e f) (hq : e.Quiet) : f.Quiet :=
  fun n => by rw [h.ahead]; exact hq _

/-- Whether the device, if there is one, leaves the data line alone. -/
def lets (x : Option Expander) : Bool := x.all fun x => !x.driving

/-- Whether there is a device and it acknowledges a byte (R226). -/
def answered (x : Option Expander) (v : Byte) : Bool := x.any (·.answers v)

/-- The monitor and the device, if there is one. -/
structure Tap where
  bus : Bus
  dev : Option Expander

/-- What the monitor and the device hold. -/
def State.tap (s : State) : Tap := ⟨s.env.bus, s.env.expander⟩

/-- Both see the lines that the block's drives and the device's make (R22). -/
def Tap.look (q : Tap) (sda scl : Bool) : Tap where
  bus := q.bus.see (sda && lets q.dev) scl
  dev := q.dev.map (·.react (q.bus.event (sda && lets q.dev) scl))

/-- The inputs of a step leave both lines to the block and the reacting device. -/
structure State.Undriven (s : State) : Prop where
  sda : s.env.sda = true
  scl : s.env.scl = true

theorem undriven_latch {s : State} (h : s.env.Quiet) : s.latch.Undriven :=
  ⟨by simp [h 0], by simp [h 0]⟩

theorem Env.sdaEnv_eq_lets {e : Env} (h : e.sda = true) : e.sdaEnv = lets e.expander := by
  rw [Env.sdaEnv, h]
  cases e.expander <;> rfl

theorem Env.tap_observe {e : Env} (hs : e.sda = true) (hc : e.scl = true) (a b : Bool) :
    Tap.mk (e.observe a b).bus (e.observe a b).expander = (Tap.mk e.bus e.expander).look a b := by
  rw [Env.observe, Env.sdaEnv_eq_lets hs, Env.sclEnv, hc, Bool.and_true]
  rfl

theorem tap_latch {s : State} (h : s.env.Quiet) : s.latch.tap = s.tap.look s.sdaOut s.sclOut := by
  refine (Env.tap_observe (e := s.env.advance) (by simp [h 0]) (by simp [h 0]) _ _).trans ?_
  rw [Env.advance_bus, Env.advance_expander]
  rfl

theorem State.Undriven.tap_setSda {s : State} (h : s.Undriven) (b : Bool) :
    (s.setSda b).tap = s.tap.look b s.sclOut := Env.tap_observe h.sda h.scl _ _

theorem State.Undriven.tap_setScl {s : State} (h : s.Undriven) (b : Bool) :
    (s.setScl b).tap = s.tap.look s.sdaOut b := Env.tap_observe h.sda h.scl _ _

/-! ### Inside a transaction -/

/-- The wire transcript and the device. -/
structure Told where
  log : List WireEvent
  dev : Option Expander

/-- What is seen inside a transaction: the line levels `d` and `c`, `n` clocks of a byte, its bits `w`. -/
def Told.tap (τ : Told) (d c : Bool) (n : Nat) (w : Byte) : Tap where
  bus := { sda := d, scl := c, active := true, nbits := n, shift := w, log := τ.log }
  dev := τ.dev

/-- The eighth clock of the byte `v` has fallen: the device answers. -/
def Told.answer (τ : Told) (v : Byte) : Told := { τ with dev := τ.dev.map (·.atByte v) }

/-- The ninth clock of the byte `v` has risen: the monitor writes it down. -/
def Told.ninth (τ : Told) (v : Byte) : Told where
  log := τ.log ++ [.byte v (answered τ.dev v)]
  dev := (τ.answer v).dev

/-- The byte `v` is over. -/
def Told.hear (τ : Told) (v : Byte) : Told where
  log := (τ.ninth v).log
  dev := (τ.ninth v).dev.map (·.react .ackCloses)

variable {τ : Told} {a c d : Bool} {n : Nat} {v w : Byte}

theorem lets_answer (τ : Told) (v : Byte) : lets (τ.answer v).dev = !answered τ.dev v := by
  unfold Told.answer answered lets
  cases τ.dev <;> rfl

theorem lets_hear (τ : Told) (v : Byte) : lets (τ.hear v).dev = true := by
  unfold Told.hear Told.ninth Told.answer lets
  cases τ.dev <;> rfl

theorem map_react_quiet (x : Option Expander) : x.map (·.react .quiet) = x := by cases x <;> rfl

theorem map_react_bit (x : Option Expander) (b : Bool) : x.map (·.react (.bit b)) = x := by
  cases x <;> rfl

theorem map_react_ack (x : Option Expander) (b : Bool) : x.map (·.react (.ack b)) = x := by
  cases x <;> rfl

/-- What an event makes of the monitor and the device. -/
theorem Tap.look_of_event {q : Tap} {x : BusEvent} (h : q.bus.event (a && lets q.dev) c = x) :
    q.look a c = ⟨{ q.bus.record x with sda := a && lets q.dev, scl := c }, q.dev.map (·.react x)⟩ := by
  rw [← h]
  rfl

/-- A clock that stays where it is, the data line as it was if the clock is high: no event. -/
theorem Told.look_settled (hd : c = true → d = (a && lets τ.dev)) :
    (τ.tap d c n w).look a c = τ.tap (a && lets τ.dev) c n w := by
  have h : (τ.tap d c n w).bus.event (a && lets τ.dev) c = .quiet := by
    cases c with
    | false => simp [Bus.event, Told.tap]
    | true =>
      rw [hd rfl]
      exact Bus.event_self (τ.tap (a && lets τ.dev) true n w).bus
  rw [Tap.look_of_event h, map_react_quiet]
  rfl

/-- A data clock rises. -/
theorem Told.look_bit (hd : d = (a && lets τ.dev)) (hn : n < 8) :
    (τ.tap d false n w).look a true = τ.tap d true (n + 1) (shiftIn w d) := by
  have h : (τ.tap d false n w).bus.event (a && lets τ.dev) true = .bit d := by
    simp [Bus.event, Told.tap, ← hd, hn]
  rw [Tap.look_of_event h, map_react_bit, hd]
  rfl

/-- A data clock falls that is not the eighth. -/
theorem Told.look_fall (hd : d = (a && lets τ.dev)) (hn : n < 8) :
    (τ.tap d true n w).look a false = τ.tap d false n w := by
  have h : (τ.tap d true n w).bus.event (a && lets τ.dev) false = .quiet := by
    simp [Bus.event, Told.tap, show n ≠ 8 by omega, show n ≠ 9 by omega]
  rw [Tap.look_of_event h, map_react_quiet, hd]
  rfl

/-- The eighth data clock falls. -/
theorem Told.look_ackOpens (hd : d = (a && lets τ.dev)) :
    (τ.tap d true 8 v).look a false = (τ.answer v).tap d false 8 v := by
  have h : (τ.tap d true 8 v).bus.event (a && lets τ.dev) false = .ackOpens v := by
    simp [Bus.event, Told.tap, ← hd]
  rw [Tap.look_of_event h, hd]
  rfl

/-- The ninth clock rises: the monitor reads what the device has answered. -/
theorem Told.look_ack (ha : a = true) :
    ((τ.answer v).tap (!answered τ.dev v) false 8 v).look a true
      = (τ.ninth v).tap (!answered τ.dev v) true 9 v := by
  subst ha
  have hd := lets_answer τ v
  have h : ((τ.answer v).tap (!answered τ.dev v) false 8 v).bus.event (true && lets (τ.answer v).dev) true
      = .ack (answered τ.dev v) := by
    simp [Bus.event, Told.tap, hd]
  rw [Tap.look_of_event h, map_react_ack]
  simp [Bus.record, Told.tap, Told.ninth, hd]
  rfl

/-- The ninth clock falls. -/
theorem Told.look_ackCloses (ha : a = true) :
    ((τ.ninth v).tap (!answered τ.dev v) true 9 v).look a false
      = (τ.hear v).tap (!answered τ.dev v) false 0 v := by
  subst ha
  have hd : lets (τ.ninth v).dev = !answered τ.dev v := lets_answer τ v
  have h : ((τ.ninth v).tap (!answered τ.dev v) true 9 v).bus.event (true && lets (τ.ninth v).dev) false
      = .ackCloses := by
    simp [Bus.event, Told.tap, hd]
  rw [Tap.look_of_event h]
  simp [Bus.record, Told.tap, Told.hear, hd]

end Sys2Proof.Machine

/-! PROOF. A byte on such a bus (R106, R108 to R110, R226): what the monitor and the device have seen at each
position of the byte transmitter, kept by every primitive of it. -/

namespace Sys2Proof.Machine

variable {i : Instr} {r : ByteRole} {s t : State} {τ : Told} {b c d : Bool} {n k : Nat} {v w : Byte}

/-! ### The wires at a position -/

/-- The block drives the clock to `c`, which is the level last seen, inside a transaction. -/
structure Wired (s : State) (τ : Told) (d c : Bool) (n : Nat) (w : Byte) : Prop where
  scl : s.sclOut = c
  tap : s.tap = τ.tap d c n w

/-- The inputs of a step show nothing; the monitor sees what the device has made of the data line. -/
theorem Wired.latch (h : Wired s τ d c n w) (hq : s.env.Quiet)
    (hd : c = true → d = (s.sdaOut && lets τ.dev)) :
    Wired s.latch τ (s.sdaOut && lets τ.dev) c n w :=
  ⟨h.scl, by rw [tap_latch hq, h.scl, h.tap, Told.look_settled hd]⟩

/-- The data line is driven while the clock is low. -/
theorem Wired.setSda (h : Wired s τ d false n w) (hu : s.Undriven) (b : Bool) :
    Wired (s.setSda b) τ (b && lets τ.dev) false n w :=
  ⟨h.scl, by rw [hu.tap_setSda, h.scl, h.tap, Told.look_settled (c := false) nofun]⟩

/-- The clock is driven. -/
theorem Wired.setScl {τ' : Told} {d' : Bool} {n' : Nat} {w' : Byte} (h : Wired s τ d c n w)
    (hu : s.Undriven) (hb : (τ.tap d c n w).look s.sdaOut b = τ'.tap d' b n' w') :
    Wired (s.setScl b) τ' d' b n' w' :=
  ⟨rfl, by rw [hu.tap_setScl, h.tap, hb]⟩

/-- No byte is under way, and the clock is driven low (R110). -/
def BetweenBytes (s : State) (τ : Told) : Prop := ∃ d w, Wired s τ d false 0 w

theorem BetweenBytes.latch (h : BetweenBytes s τ) (hq : s.env.Quiet) : BetweenBytes s.latch τ :=
  let ⟨_, _, hw⟩ := h
  ⟨_, _, hw.latch hq nofun⟩

theorem BetweenBytes.congr (h : BetweenBytes s τ) (hc : t.sclOut = s.sclOut) (he : t.env = s.env) :
    BetweenBytes t τ :=
  let ⟨d, w, hw⟩ := h
  ⟨d, w, hc.trans hw.scl, by rw [State.tap, he]; exact hw.tap⟩

/-! ### The byte transmitter -/

/-- `SHREG` is `x` and `BITCNT` is `m` after `k` data clocks of the byte `v` (R106). -/
structure Shifted (x : Byte) (m : BitVec 4) (v : Byte) (k : Nat) : Prop where
  lt : k < 8
  bitcnt : m.toNat = k
  shreg : x = v <<< k

/-- The monitor's bits after `k` data clocks of the byte `v`: its `k` most significant ones. -/
def Heard (v : Byte) (k : Nat) (w : Byte) : Prop := ∀ j < k, w.getLsbD j = v.getLsbD (8 - k + j)

theorem Heard.shiftIn (h : Heard v k w) (hk : k < 8) :
    Heard v (k + 1) (shiftIn w (v.getLsbD (7 - k))) := by
  intro j hj
  cases j with
  | zero => rw [shiftIn_getLsbD_zero]; congr 1; omega
  | succ j =>
    rw [shiftIn_getLsbD_succ, h j (by omega), decide_eq_true (by omega), Bool.true_and]
    congr 1
    omega

theorem Heard.eq (h : Heard v 8 w) : w = v := by
  apply BitVec.eq_of_getLsbD_eq
  intro j hj
  simpa using h j hj

/-- The next bit of the byte is at the top of `SHREG` (R108). -/
theorem Shifted.top {x : Byte} {m : BitVec 4} (h : Shifted x m v k) : x.getLsbD 7 = v.getLsbD (7 - k) := by
  have hk := h.lt
  rw [h.shreg, BitVec.getLsbD_shiftLeft]
  simp [show ¬7 < k by omega]

/-- The byte `v` on the wires, at each position of the byte transmitter; what was told before it is `τ`
(R106, R108 to R110, R226). -/
inductive Sending (s : State) (τ : Told) (v : Byte) : BytePos → Prop
  | putBit {k : Nat} {d : Bool} {w : Byte} : Shifted s.shreg s.bitcnt v k → Heard v k w →
      Wired s τ d false k w → Sending s τ v .putBit
  | low {p : BytePos} {k : Nat} {w : Byte} : p = .lowHalf ∨ p = .raise →
      Shifted s.shreg s.bitcnt v k → Heard v k w → s.sdaOut = v.getLsbD (7 - k) →
      Wired s τ s.sdaOut false k w → Sending s τ v p
  | high {p : BytePos} {k : Nat} {w : Byte} : p = .highHalf ∨ p = .fall →
      Shifted s.shreg s.bitcnt v k → Heard v (k + 1) w → s.sdaOut = v.getLsbD (7 - k) →
      Wired s τ s.sdaOut true (k + 1) w → Sending s τ v p
  | opens {d : Bool} : Wired s (τ.answer v) d false 8 v → Sending s τ v .ackRelease
  | answers {p : BytePos} : p = .ackLow ∨ p = .ackRaise → s.sdaOut = true →
      Wired s (τ.answer v) (!answered τ.dev v) false 8 v → Sending s τ v p
  | ninth {p : BytePos} : p = .ackWait ∨ p = .ackSample → s.sdaOut = true →
      Wired s (τ.ninth v) (!answered τ.dev v) true 9 v → Sending s τ v p
  | sampled {p : BytePos} : p = .ackHold ∨ p = .parkScl → s.sdaOut = true →
      Wired s (τ.ninth v) (!answered τ.dev v) true 9 v → s.ackLevel = (!answered τ.dev v) →
      Sending s τ v p
  | closes {d : Bool} : Wired s (τ.hear v) d false 0 v → s.ackLevel = (!answered τ.dev v) →
      Sending s τ v .parkSda

/-- The level that a device's answer leaves of the data line. -/
theorem lets_ninth (τ : Told) (v : Byte) : (true && lets (τ.ninth v).dev) = !answered τ.dev v :=
  lets_answer τ v

/-- The inputs of a step leave the byte where it is. -/
theorem Sending.latch {p : BytePos} (h : Sending s τ v p) (hlet : lets τ.dev = true)
    (hq : s.env.Quiet) : Sending s.latch τ v p := by
  have hown : (s.sdaOut && lets τ.dev) = s.sdaOut := by rw [hlet, Bool.and_true]
  have hans (hd : s.sdaOut = true) : (s.sdaOut && lets (τ.answer v).dev) = !answered τ.dev v := by
    rw [hd, lets_answer, Bool.true_and]
  cases h with
  | putBit hs hh hw => exact .putBit hs hh (hw.latch hq nofun)
  | low hp hs hh hd hw =>
    have hw' := hw.latch hq nofun
    rw [hown] at hw'
    exact .low hp hs hh hd hw'
  | high hp hs hh hd hw =>
    have hw' := hw.latch hq fun _ => hown.symm
    rw [hown] at hw'
    exact .high hp hs hh hd hw'
  | opens hw => exact .opens (hw.latch hq nofun)
  | answers hp hd hw =>
    have hw' := hw.latch hq nofun
    rw [hans hd] at hw'
    exact .answers hp hd hw'
  | ninth hp hd hw =>
    have hw' := hw.latch hq fun _ => (hans hd).symm
    exact .ninth hp hd (hans hd ▸ hw')
  | sampled hp hd hw ha =>
    have hw' := hw.latch hq fun _ => (hans hd).symm
    exact .sampled hp hd (hans hd ▸ hw') ha
  | closes hw ha => exact .closes (hw.latch hq nofun) ha

/-- Where a primitive of the byte leaves the command: in the same byte. -/
structure InByte (r : ByteRole) (s t : State) (q : BytePos) : Prop where
  op : t.curOp = s.curOp
  ustep : t.ustep = .byte r q
  byteidx : t.byteidx = s.byteidx

/-- The end of a data clock: the next one, or the device's answer (R106, R108). -/
theorem Sending.fall (hlet : lets τ.dev = true) (hs : Shifted s.shreg s.bitcnt v k)
    (hh : Heard v (k + 1) w) (hw : Wired s τ s.sdaOut true (k + 1) w) (hu : s.Undriven) :
    ∃ q, InByte r s (afterBit r (s.setScl false)) q ∧ Sending (afterBit r (s.setScl false)) τ v q := by
  have hd : s.sdaOut = (s.sdaOut && lets τ.dev) := by rw [hlet, Bool.and_true]
  have hk := hs.lt
  have hcount : (s.bitcnt + 1).toNat = k + 1 := by
    rw [BitVec.toNat_add, hs.bitcnt]
    simp
    omega
  by_cases h8 : k + 1 < 8
  · have hpos : (if (s.bitcnt + 1).toNat < 8 then BytePos.putBit else .ackRelease) = .putBit :=
      if_pos (hcount ▸ h8)
    have hw' := hw.setScl hu (Told.look_fall hd h8)
    refine ⟨.putBit, ⟨rfl, congrArg (UStep.byte r) hpos, rfl⟩,
      .putBit ⟨h8, hcount, ?_⟩ hh ⟨hw'.scl, hw'.tap⟩⟩
    rw [BitVec.shiftLeft_add, ← hs.shreg]
    rfl
  · have hpos : (if (s.bitcnt + 1).toNat < 8 then BytePos.putBit else .ackRelease) = .ackRelease :=
      if_neg (hcount ▸ h8)
    obtain rfl : k = 7 := by omega
    obtain rfl : w = v := hh.eq
    have hw' := hw.setScl hu (Told.look_ackOpens hd)
    exact ⟨.ackRelease, ⟨rfl, congrArg (UStep.byte r) hpos, rfl⟩, .opens ⟨hw'.scl, hw'.tap⟩⟩

/-- A clock that the block has released is high (R107). -/
theorem State.Undriven.sclIn (hu : s.Undriven) (h : s.sclOut = true) : s.sclIn = true := by
  rw [State.sclIn, h, Env.sclEnv, hu.scl]
  rfl

/-- The sample finds what the device leaves of the data line (R109). -/
theorem Wired.sdaIn (hw : Wired s (τ.ninth v) d true 9 v) (hu : s.Undriven) (hd : s.sdaOut = true) :
    s.sdaIn = !answered τ.dev v := by
  have hdev : s.env.expander = (τ.ninth v).dev := congrArg Tap.dev hw.tap
  rw [State.sdaIn, Env.sdaEnv_eq_lets hu.sda, hd, hdev, lets_ninth]

/-- The last primitive of the byte parks the data line, with the answer sampled (R110). -/
theorem Sending.parks (h : Sending s τ v .parkSda) (hu : s.Undriven) :
    BetweenBytes (s.setSda false) (τ.hear v) ∧ (s.setSda false).ackLevel = !answered τ.dev v := by
  cases h with
  | closes hw ha => exact ⟨⟨_, _, hw.setSda hu false⟩, ha⟩
  | low hp | high hp | answers hp | ninth hp | sampled hp => simp at hp

/-- Every primitive of the byte but its last leads to the next position (R106). -/
theorem Sending.next {p : BytePos} (h : Sending s τ v p) (hlet : lets τ.dev = true) (hu : s.Undriven)
    (hp : p ≠ .parkSda) (ht : byteStep i r p s = .next t) :
    ∃ q, InByte r s t q ∧ Sending t τ v q := by
  have hown (b : Bool) : (b && lets τ.dev) = b := by rw [hlet, Bool.and_true]
  cases h with
  | putBit hs hh hw =>
    cases ht
    have hw' := hw.setSda hu (s.shreg.getLsbD 7)
    rw [hown] at hw'
    exact ⟨_, ⟨rfl, rfl, rfl⟩, .low (.inl rfl) hs hh hs.top ⟨hw'.scl, hw'.tap⟩⟩
  | low hp hs hh hd hw =>
    rcases hp with rfl | rfl <;> cases ht
    · exact ⟨_, ⟨rfl, rfl, rfl⟩, .low (.inr rfl) hs hh hd ⟨hw.scl, hw.tap⟩⟩
    · have hw' := hw.setScl hu (Told.look_bit (hown _).symm hs.lt)
      have hh' := hh.shiftIn hs.lt
      rw [← hd] at hh'
      exact ⟨_, ⟨rfl, rfl, rfl⟩, .high (.inl rfl) hs hh' hd ⟨hw'.scl, hw'.tap⟩⟩
  | high hp hs hh hd hw =>
    rcases hp with rfl | rfl <;> cases ht
    · exact ⟨_, ⟨rfl, rfl, rfl⟩, .high (.inr rfl) hs hh hd ⟨hw.scl, hw.tap⟩⟩
    · exact Sending.fall hlet hs hh hw hu
  | opens hw =>
    cases ht
    have hw' := hw.setSda hu true
    rw [lets_answer, Bool.true_and] at hw'
    exact ⟨_, ⟨rfl, rfl, rfl⟩, .answers (.inl rfl) rfl ⟨hw'.scl, hw'.tap⟩⟩
  | answers hp hd hw =>
    rcases hp with rfl | rfl <;> cases ht
    · exact ⟨_, ⟨rfl, rfl, rfl⟩, .answers (.inr rfl) hd ⟨hw.scl, hw.tap⟩⟩
    · have hw' := hw.setScl hu (Told.look_ack hd)
      exact ⟨_, ⟨rfl, rfl, rfl⟩, .ninth (.inl rfl) hd ⟨hw'.scl, hw'.tap⟩⟩
  | ninth hp hd hw =>
    rcases hp with rfl | rfl <;> cases ht
    · rw [if_pos (hu.sclIn hw.scl)]
      exact ⟨_, ⟨rfl, rfl, rfl⟩, .ninth (.inr rfl) hd ⟨hw.scl, hw.tap⟩⟩
    · exact ⟨_, ⟨rfl, rfl, rfl⟩, .sampled (.inl rfl) hd ⟨hw.scl, hw.tap⟩ (hw.sdaIn hu hd)⟩
  | sampled hp hd hw ha =>
    rcases hp with rfl | rfl <;> cases ht
    · exact ⟨_, ⟨rfl, rfl, rfl⟩, .sampled (.inr rfl) hd ⟨hw.scl, hw.tap⟩ ha⟩
    · have hw' := hw.setScl hu (Told.look_ackCloses hd)
      exact ⟨_, ⟨rfl, rfl, rfl⟩, .closes ⟨hw'.scl, hw'.tap⟩ ha⟩
  | closes => exact absurd rfl hp

end Sys2Proof.Machine

/-! PROOF. A whole transaction on such a bus (R102, R104, R112, R146, R147): what is told at each position of
a command that sends one, kept by every tick. -/

namespace Sys2Proof.Machine

variable {i : Instr} {r : ByteRole} {e s t : State} {τ : Told} {n : Nat} {v w : Byte}

/-! ### The start and the stop condition -/

/-- What has been told so far. -/
def State.told (s : State) : Told := ⟨s.env.bus.log, s.env.expander⟩

/-- After a start condition. -/
def Told.start (τ : Told) : Told := ⟨τ.log ++ [.start], τ.dev.map (·.react .start)⟩

/-- After a stop condition. -/
def Told.stop (τ : Told) : Told := ⟨τ.log ++ [.stop], τ.dev.map (·.react .stop)⟩

theorem lets_start (τ : Told) : lets τ.start.dev = true := by
  unfold Told.start lets
  cases τ.dev <;> rfl

theorem lets_stop (τ : Told) : lets τ.stop.dev = true := by
  unfold Told.stop lets
  cases τ.dev <;> rfl

/-- Both lines are released by everyone, and have been seen so (R247). -/
structure IdleWires (s : State) : Prop where
  sdaOut : s.sdaOut = true
  sclOut : s.sclOut = true
  sda : s.env.bus.sda = true
  scl : s.env.bus.scl = true
  dev : lets s.env.expander = true

theorem IdleWires.latch (h : IdleWires s) (hq : s.env.Quiet) :
    IdleWires s.latch ∧ s.latch.told = s.told := by
  have hev : s.tap.bus.event (s.sdaOut && lets s.tap.dev) s.sclOut = .quiet := by
    have hself := s.env.bus.event_self
    rw [h.sda, h.scl] at hself
    rw [h.sdaOut, h.sclOut]
    exact (congrArg (fun x => s.env.bus.event (true && x) true) h.dev).trans hself
  have htap : s.latch.tap = _ := (tap_latch hq).trans (Tap.look_of_event hev)
  rw [map_react_quiet] at htap
  have hbus : s.latch.env.bus = _ := congrArg Tap.bus htap
  have hdev : s.latch.env.expander = s.env.expander := congrArg Tap.dev htap
  refine ⟨⟨h.sdaOut, h.sclOut, ?_, ?_, hdev ▸ h.dev⟩, ?_⟩
  · rw [hbus]; exact (Bool.and_eq_true _ _).mpr ⟨h.sdaOut, h.dev⟩
  · rw [hbus]; exact h.sclOut
  · rw [State.told, hbus, hdev]; rfl

/-- The data line falls on a high clock (R103). -/
theorem IdleWires.setSda (h : IdleWires s) (hu : s.Undriven) :
    Wired (s.setSda false) s.told.start false true 0 s.env.bus.shift := by
  refine ⟨h.sclOut, ?_⟩
  have hev : s.tap.bus.event (false && lets s.tap.dev) true = .start := by
    have hsda : s.tap.bus.sda = true := h.sda
    have hscl : s.tap.bus.scl = true := h.scl
    simp [Bus.event, hsda, hscl]
  rw [hu.tap_setSda, h.sclOut, Tap.look_of_event hev]
  rfl

/-- The data line is let go on a high clock (R105). -/
theorem Wired.setSda_stop (h : Wired s τ false true n w) (hlet : lets τ.dev = true) (hu : s.Undriven) :
    IdleWires (s.setSda true) ∧ (s.setSda true).told = τ.stop := by
  have hev : (τ.tap false true n w).bus.event (true && lets (τ.tap false true n w).dev) true = .stop := by
    simp [Bus.event, Told.tap, hlet]
  have htap := hu.tap_setSda true
  rw [h.scl, h.tap, Tap.look_of_event hev] at htap
  have hbus : (s.setSda true).env.bus = _ := congrArg Tap.bus htap
  have hdev : (s.setSda true).env.expander = τ.stop.dev := congrArg Tap.dev htap
  refine ⟨⟨rfl, h.scl, ?_, ?_, ?_⟩, ?_⟩
  · rw [hbus]; exact hlet
  · rw [hbus]
  · rw [hdev]; exact lets_stop τ
  · rw [State.told, hbus, hdev]; rfl

/-- A start condition on the wires, at each of its positions; `τ` is told when it is made (R102, R103). -/
inductive Starting (s : State) (τ : Told) : StartPos → Prop
  | fallSda : IdleWires s → s.told.start = τ → Starting s τ .fallSda
  | high {p : StartPos} {w : Byte} : p = .holdSda ∨ p = .fallScl → s.sdaOut = false →
      Wired s τ false true 0 w → Starting s τ p
  | holdScl : BetweenBytes s τ → Starting s τ .holdScl

theorem Starting.latch {p : StartPos} (h : Starting s τ p) (hq : s.env.Quiet) :
    Starting s.latch τ p := by
  cases h with
  | fallSda hi ht =>
    obtain ⟨hi', ht'⟩ := hi.latch hq
    exact .fallSda hi' (ht' ▸ ht)
  | high hp hd hw =>
    have hw' := hw.latch hq fun _ => by rw [hd, Bool.false_and]
    rw [hd, Bool.false_and] at hw'
    exact .high hp hd hw'
  | holdScl hw => exact .holdScl (hw.latch hq)

/-- Every primitive of a start condition but its last leads to the next position (R102). -/
theorem Starting.next {p : StartPos} (h : Starting s τ p) (hu : s.Undriven) (hp : p ≠ .holdScl)
    (ht : startStep i p s = .next t) :
    ∃ q, t.curOp = s.curOp ∧ t.ustep = .start q ∧ Starting t τ q := by
  cases h with
  | fallSda hi ht' =>
    cases ht
    have hw := hi.setSda hu
    rw [ht'] at hw
    exact ⟨_, rfl, rfl, .high (.inl rfl) rfl ⟨hw.scl, hw.tap⟩⟩
  | high hp hd hw =>
    rcases hp with rfl | rfl <;> cases ht
    · exact ⟨_, rfl, rfl, .high (.inr rfl) hd ⟨hw.scl, hw.tap⟩⟩
    · have hw' := hw.setScl hu (Told.look_fall (by rw [hd, Bool.false_and]) (by decide))
      exact ⟨_, rfl, rfl, .holdScl ⟨_, _, hw'.scl, hw'.tap⟩⟩
  | holdScl => exact absurd rfl hp

/-- A stop condition on the wires, at each of its positions; `τ` was told before it (R104, R105). -/
inductive Stopping (s : State) (τ : Told) : StopPos → Prop
  | fallSda : BetweenBytes s τ → Stopping s τ .fallSda
  | low {p : StopPos} {w : Byte} : p = .lowHold ∨ p = .raise → s.sdaOut = false →
      Wired s τ false false 0 w → Stopping s τ p
  | high {p : StopPos} {w : Byte} : p = .waitScl ∨ p = .highHold ∨ p = .riseSda → s.sdaOut = false →
      Wired s τ false true 1 w → Stopping s τ p
  | freeHold : IdleWires s → s.told = τ.stop → Stopping s τ .freeHold

theorem Stopping.latch {p : StopPos} (h : Stopping s τ p) (hq : s.env.Quiet) :
    Stopping s.latch τ p := by
  cases h with
  | fallSda hw => exact .fallSda (hw.latch hq)
  | low hp hd hw =>
    have hw' := hw.latch hq nofun
    rw [hd, Bool.false_and] at hw'
    exact .low hp hd hw'
  | high hp hd hw =>
    have hw' := hw.latch hq fun _ => by rw [hd, Bool.false_and]
    rw [hd, Bool.false_and] at hw'
    exact .high hp hd hw'
  | freeHold hi ht =>
    obtain ⟨hi', ht'⟩ := hi.latch hq
    exact .freeHold hi' (ht'.trans ht)

/-- Every primitive of a stop condition but its last leads to the next position (R104). -/
theorem Stopping.next {p : StopPos} (h : Stopping s τ p) (hlet : lets τ.dev = true) (hu : s.Undriven)
    (hp : p ≠ .freeHold) (ht : stopStep i p s = .next t) :
    ∃ q, t.curOp = s.curOp ∧ t.ustep = .stop q ∧ t.lastok = s.lastok ∧ Stopping t τ q := by
  cases h with
  | fallSda hw =>
    cases ht
    obtain ⟨d, w, hw⟩ := hw
    have hw' := hw.setSda hu false
    exact ⟨_, rfl, rfl, rfl, .low (.inl rfl) rfl ⟨hw'.scl, hw'.tap⟩⟩
  | low hp hd hw =>
    rcases hp with rfl | rfl <;> cases ht
    · exact ⟨_, rfl, rfl, rfl, .low (.inr rfl) hd ⟨hw.scl, hw.tap⟩⟩
    · have hw' := hw.setScl hu (Told.look_bit (by rw [hd, Bool.false_and]) (by decide))
      exact ⟨_, rfl, rfl, rfl, .high (.inl rfl) hd ⟨hw'.scl, hw'.tap⟩⟩
  | high hp hd hw =>
    rcases hp with rfl | rfl | rfl <;> cases ht
    · rw [if_pos (hu.sclIn hw.scl)]
      exact ⟨_, rfl, rfl, rfl, .high (.inr (.inl rfl)) hd ⟨hw.scl, hw.tap⟩⟩
    · exact ⟨_, rfl, rfl, rfl, .high (.inr (.inr rfl)) hd ⟨hw.scl, hw.tap⟩⟩
    · obtain ⟨hi, htold⟩ := hw.setSda_stop hlet hu
      exact ⟨_, rfl, rfl, rfl, .freeHold ⟨hi.sdaOut, hi.sclOut, hi.sda, hi.scl, hi.dev⟩ htold⟩
  | freeHold => exact absurd rfl hp

/-! ### The whole transaction -/

/-- What is told when the bytes of a list are sent up to the first that is not acknowledged, and whether all
were acknowledged (R112, R134). -/
def Told.send (τ : Told) : List Byte → Told × Bool
  | [] => (τ, true)
  | v :: l => if answered τ.dev v then (τ.hear v).send l else (τ.hear v, false)

/-- The bytes of the buffer from an index on that the command accepted at `e` sends (R112). -/
def bytesFrom (i : Instr) (e : State) (j : Nat) : List Byte :=
  (List.range' j ((byteCount e i).toNat - j)).map e.txbuf.get

theorem bytesFrom_of_lt {j : Nat} (h : j < (byteCount e i).toNat) :
    bytesFrom i e j = e.txbuf.get j :: bytesFrom i e (j + 1) := by
  rw [bytesFrom, bytesFrom, ← Nat.sub_add_cancel (Nat.sub_pos_of_lt h), List.range'_succ, List.map_cons,
    Nat.sub_sub]

theorem bytesFrom_of_le {j : Nat} (h : (byteCount e i).toNat ≤ j) : bytesFrom i e j = [] := by
  rw [bytesFrom, Nat.sub_eq_zero_of_le h]
  rfl

/-- The turn of the byte `v` in its role, `j` the index of the byte loop: told after `τ`, it and the bytes
after it lead to `T` (R112, R146). -/
inductive Turn (i : Instr) (e : State) (T : Told × Bool) (τ : Told) (v : Byte) (j : Nat) : ByteRole → Prop
  | frame : τ.send (v :: bytesFrom i e 0) = T → Turn i e T τ v j .frame
  | data : j < (byteCount e i).toNat → τ.send (v :: bytesFrom i e (j + 1)) = T → Turn i e T τ v j .data

theorem Turn.of_nack {T : Told × Bool} {j : Nat} (h : Turn i e T τ v j r)
    (hans : answered τ.dev v = false) : (τ.hear v, false) = T := by
  cases h with
  | frame hT | data _ hT => simpa [Told.send, hans] using hT

/-- The transaction of the command `i` accepted at `e`, at each position: `τ` is what was told before the
piece of it that is under way, and with the bytes left it leads to `T` (R146, R147). -/
inductive Progress (i : Instr) (e : State) (T : Told × Bool) (s : State) (τ : Told) : UStep → Prop
  | start {p : StartPos} : Starting s τ p →
      τ.send (frameOf (frameAddr e i) :: bytesFrom i e 0) = T → Progress i e T s τ (.start p)
  | byte {r : ByteRole} {p : BytePos} {v : Byte} : Turn i e T τ v s.byteidx.toNat r →
      Sending s τ v p → Progress i e T s τ (.byte r p)
  | hook : BetweenBytes s τ → s.byteidx.toNat < (byteCount e i).toNat → s.lastok = true →
      τ.send (bytesFrom i e (s.byteidx.toNat + 1)) = T → Progress i e T s τ .hook
  | stop {p : StopPos} : Stopping s τ p → (τ, s.lastok) = T → Progress i e T s τ (.stop p)

/-- The transaction is under way, or its stop condition has been told. -/
inductive Talks (i : Instr) (e : State) (T : Told × Bool) (s : State) : Prop
  | runs (τ : Told) : s.curOp = some i → lets τ.dev = true → Progress i e T s τ s.ustep → Talks i e T s
  | closed : s.curOp = none → s.lastok = T.2 → s.told = T.1.stop → Talks i e T s

section

variable {T : Told × Bool}

theorem Progress.latch {p : UStep} (h : Progress i e T s τ p) (hlet : lets τ.dev = true)
    (hq : s.env.Quiet) : Progress i e T s.latch τ p := by
  cases h with
  | start hs hT => exact .start (hs.latch hq) hT
  | byte hv hs => exact .byte hv (hs.latch hlet hq)
  | hook hw hlt hok hT => exact .hook (hw.latch hq) hlt hok hT
  | stop hs hT => exact .stop (hs.latch hq) hT

variable (hcl : closes i = true) (hk : Keeps e s) (hop : s.curOp = some i)

include hcl hop in
/-- After the byte loop, or an address byte that was not acknowledged: the stop condition (R146). -/
theorem Talks.of_loopDone (hlet : lets τ.dev = true) (hw : BetweenBytes s τ) (ok : Bool)
    (hT : (τ, s.lastok) = T) : Talks i e T (loopDone i ok s) := by
  rw [loopDone, if_pos hcl]
  exact .runs τ hop hlet (.stop (.fallSda (hw.congr rfl rfl)) hT)

include hop in
/-- A byte begins (R106). -/
theorem Talks.of_beginByte (hlet : lets τ.dev = true) (hw : BetweenBytes s τ)
    (hv : Turn i e T τ v s.byteidx.toNat r) : Talks i e T (beginByte r v s) := by
  obtain ⟨d, w, hw⟩ := hw
  exact .runs τ hop hlet (.byte hv (.putBit ⟨Nat.zero_lt_succ 7, rfl, (BitVec.shiftLeft_zero _).symm⟩
    (fun _ h => absurd h (Nat.not_lt_zero _)) ⟨hw.scl, hw.tap⟩))

include hk hop in
/-- A byte of the buffer begins (R112). -/
theorem Talks.of_dataByte (hlet : lets τ.dev = true) (hw : BetweenBytes s τ)
    (hlt : s.byteidx.toNat < (byteCount e i).toNat) (hT : τ.send (bytesFrom i e s.byteidx.toNat) = T) :
    Talks i e T (beginByte .data (s.txbuf.get s.byteidx.toNat) s) := by
  refine .of_beginByte hop hlet hw (.data hlt ?_)
  rw [hk.txbuf, ← bytesFrom_of_lt hlt, hT]

variable (h1 : byteCount e i ≠ 0) (h5 : (byteCount e i).toNat ≤ 5)

include hcl hk hop h5 in
/-- What follows an acknowledged byte and its hook: the next byte or the stop condition (R112). -/
theorem Talks.of_nextByte (hlet : lets τ.dev = true) (hw : BetweenBytes s τ) (hok : s.lastok = true)
    (hT : τ.send (bytesFrom i e (s.byteidx.toNat + 1)) = T) (ht : nextByte i s = .next t) :
    Talks i e T t := by
  have hcount : (byteCount s i).toNat = (byteCount e i).toNat :=
    congrArg BitVec.toNat (byteCount_of_txlen hk.txlen i)
  rw [nextByte_eq hcount h5] at ht
  cases ht
  unfold goOn
  split
  · next hlt =>
    have hidx : (s.byteidx + 1).toNat = s.byteidx.toNat + 1 := by
      rw [BitVec.toNat_add]; simp; omega
    exact .of_dataByte (s := { s with byteidx := s.byteidx + 1 })
      (hk.trans ⟨rfl, rfl, rfl, rfl, rfl, rfl⟩) hop hlet (hw.congr rfl rfl)
      (hidx ▸ hlt) (hidx ▸ hT)
  · next hge =>
    refine .of_loopDone hcl hop hlet hw true ?_
    rw [hok, ← hT, bytesFrom_of_le (by omega), Told.send]

include hcl hk hop h1 h5 in
/-- The result of a byte is used (R106, R112, R146). -/
theorem Talks.of_afterByte (hw : BetweenBytes s (τ.hear v)) (ha : s.ackLevel = !answered τ.dev v)
    (hv : Turn i e T τ v s.byteidx.toNat r) (ht : afterByte i r s = .next t) : Talks i e T t := by
  have hlet := lets_hear τ v
  have hok : (!s.ackLevel) = answered τ.dev v := by rw [ha, Bool.not_not]
  cases hans : answered τ.dev v with
  | false =>
    have hnack : afterByte i r s = .next (loopDone i false { s with lastok := false }) := by
      cases hv <;> simp [afterByte, afterFrame, afterData, hok, hans, hcl]
    rw [hnack] at ht
    cases ht
    exact .of_loopDone (s := { s with lastok := false }) hcl hop hlet (hw.congr rfl rfl) false
      (hv.of_nack hans)
  | true =>
    cases hv with
    | frame hT =>
      have hcount : byteCount s i ≠ 0 := by rwa [byteCount_of_txlen hk.txlen i]
      simp only [afterByte, afterFrame, hok, hans, hcl, if_true] at ht
      rw [beginLoop_of_count (s := { s with lastok := true }) hcount] at ht
      cases ht
      rw [Told.send, if_pos hans] at hT
      refine .of_dataByte (s := { s with lastok := true, sentcnt := 0, byteidx := 0 })
        (hk.trans ⟨rfl, rfl, rfl, rfl, rfl, rfl⟩) hop hlet (hw.congr rfl rfl) ?_ hT
      exact Nat.pos_of_ne_zero fun h => h1 (BitVec.eq_of_toNat_eq h)
    | data hlt hT =>
      simp only [afterByte, afterData, hok, hans, if_true] at ht
      rw [Told.send, if_pos hans] at hT
      split at ht
      · cases ht
        exact .runs _ hop hlet (.hook (hw.congr rfl rfl) hlt rfl hT)
      · exact .of_nextByte (s := { s with lastok := true, sentcnt := s.sentcnt + 1 }) hcl
          (hk.trans ⟨rfl, rfl, rfl, rfl, rfl, rfl⟩) hop h5 hlet (hw.congr rfl rfl) rfl hT ht

include hcl hk hop in
theorem Talks.of_startStep {p : StartPos} (hlet : lets τ.dev = true) (hu : s.Undriven)
    (hs : Starting s τ p) (hT : τ.send (frameOf (frameAddr e i) :: bytesFrom i e 0) = T)
    (ht : startStep i p s = .next t) : Talks i e T t := by
  by_cases hp : p = .holdScl
  · subst hp
    have had : addresses i = true := by cases i <;> simp_all [closes, addresses]
    have haddr : frameAddr { s.delay .half with isOpen := true } i = frameAddr e i := by
      cases i <;> simp [frameAddr, hk.addr]
    simp only [startStep, afterStart, had, if_true] at ht
    cases ht
    have hw : BetweenBytes s τ := by
      cases hs with
      | holdScl hw => exact hw
      | high hp => simp at hp
    refine .of_beginByte (s := { s.delay .half with isOpen := true }) hop hlet (hw.congr rfl rfl) ?_
    rw [haddr]
    exact .frame hT
  · obtain ⟨q, hopq, huq, hs'⟩ := hs.next hu hp ht
    exact .runs τ (hopq.trans hop) hlet (huq ▸ .start hs' hT)

include hcl hk hop h1 h5 in
theorem Talks.of_byteStep {p : BytePos} (hlet : lets τ.dev = true) (hu : s.Undriven)
    (hv : Turn i e T τ v s.byteidx.toNat r) (hs : Sending s τ v p)
    (ht : byteStep i r p s = .next t) : Talks i e T t := by
  by_cases hp : p = .parkSda
  · subst hp
    obtain ⟨hw, ha⟩ := hs.parks hu
    exact .of_afterByte (s := s.setSda false) hcl
      (hk.trans ⟨rfl, rfl, rfl, rfl, rfl, rfl⟩) hop h1 h5 hw ha hv ht
  · obtain ⟨q, ⟨hopq, huq, hidx⟩, hs'⟩ := hs.next hlet hu hp ht
    exact .runs τ (hopq.trans hop) hlet (huq ▸ .byte (hidx ▸ hv) hs')

include hop in
theorem Talks.of_stopStep {p : StopPos} (hlet : lets τ.dev = true) (hu : s.Undriven)
    (hs : Stopping s τ p) (hT : (τ, s.lastok) = T) (ht : stopStep i p s = .next t) : Talks i e T t := by
  by_cases hp : p = .freeHold
  · subst hp
    have htold : s.told = τ.stop := by
      cases hs with
      | freeHold _ h => exact h
      | low hp | high hp => simp at hp
    cases ht
    exact .closed rfl (hT ▸ rfl) (hT ▸ htold)
  · obtain ⟨q, hopq, huq, hok, hs'⟩ := hs.next hlet hu hp ht
    exact .runs τ (hopq.trans hop) hlet (huq ▸ .stop hs' (hok ▸ hT))

include hcl hk h1 h5 in
/-- Every step of a transaction keeps what is told of it in step with its position. -/
theorem Talks.tick (h : Talks i e T s) (hrun : s.curOp.isSome = true) (hq : s.env.Quiet)
    (ht : tick s = .next t) : Talks i e T t := by
  have hu := undriven_latch hq
  have hk' : Keeps e s.latch := hk.trans ⟨rfl, rfl, rfl, rfl, rfl, rfl⟩
  rw [tick_of_low (hq.noReset 0)] at ht
  cases h with
  | closed hn _ _ => simp [hn] at hrun
  | runs τ hop hlet hpos =>
    have hpos := hpos.latch hlet hq
    have hop : s.latch.curOp = some i := hop
    unfold primitive at ht
    rw [hop] at ht
    dsimp only at ht
    cases hstep : s.ustep <;> rw [hstep] at hpos <;> rw [latch_ustep, hstep] at ht <;> cases hpos
    case start hT hs => exact .of_startStep hcl hk' hop hlet hu hs hT ht
    case byte hv hs => exact .of_byteStep hcl hk' hop h1 h5 hlet hu hv hs ht
    case stop hT hs => exact .of_stopStep hop hlet hu hs hT ht
    case hook hw hlt hok hT =>
      exact .of_nextByte (s := s.latch.delay _) hcl
        (hk.trans ⟨rfl, rfl, rfl, rfl, rfl, rfl⟩) hop h5 hlet (hw.congr rfl rfl) hok hT ht

end

/-- A transaction on an idle bus that nothing else drives: what is told is the start condition, the address
byte and the bytes up to the first that is not acknowledged, and the stop condition (R134, R146, R147). -/
theorem told_of_transaction (hcl : closes i = true) (h1 : byteCount s i ≠ 0)
    (h5 : (byteCount s i).toNat ≤ 5) (hop : s.curOp = some i) (hu : s.ustep = .start .fallSda)
    (hi : IdleWires s) (hq : s.env.Quiet) (ht : runSteps n s = .next t) (hend : t.curOp = none) :
    (⟨t.told, t.lastok⟩ : Told × Bool)
      = (s.told.start.send (frameOf (frameAddr s i) :: bytesFrom i s 0)).map Told.stop id := by
  obtain ⟨⟨-, -, h⟩, -⟩ := runSteps_induction (P := fun u => Keeps s u ∧ u.env.Quiet
      ∧ Talks i s (s.told.start.send (frameOf (frameAddr s i) :: bytesFrom i s 0)) u)
    (fun ⟨hk, hq, h⟩ hrun hr ht => ⟨hk.trans (tick_keeps (hr 0) ht), (tick_after ht).quiet hq,
      h.tick hcl hk h1 h5 hrun hq ht⟩) n
    ⟨.refl s, hq, .runs s.told.start hop (lets_start _) (hu ▸ .start (.fallSda hi rfl) rfl)⟩
    (by simp [hop]) hq.noReset ht
  cases h with
  | runs τ hop' _ _ => simp [hend] at hop'
  | closed _ hok htold => rw [htold, hok]; rfl

end Sys2Proof.Machine

/-! PROOF. `SENDC` on the wire, with the reference expander at its address and with nothing on the bus (R134,
R146, R150, R226; log entries 13, 14). -/

namespace Sys2Proof.Machine

variable {s t : State}

/-- A bus idle at the block's drives and at what the devices have seen last (R247). -/
theorem idleWires_of_released (h : s.released = true) (hsda : s.env.bus.sda = true)
    (hscl : s.env.bus.scl = true) (hlet : lets s.env.expander = true) : IdleWires s :=
  let ⟨hd, hc⟩ := (Bool.and_eq_true _ _).mp h
  ⟨hd, hc, hsda, hscl, hlet⟩

theorem quiet_of_free {e : Env} (hr : e.noReset) (hc : e.clockFree) (hd : ∀ n, (e.ahead n).sda = true) :
    e.Quiet := fun n =>
  Eq.trans (b := ⟨(e.ahead n).sda, (e.ahead n).scl, (e.ahead n).rst⟩) rfl (by rw [hd, hc, hr])

/-- `SENDC` on an idle bus that nothing else drives ends with the answer it has recorded, and what is told is
a whole transaction (R146). -/
theorem exec_sendc_wire (size : Size) (kind : Kind) (v : Byte) (hi : s.initd = true) (hw : IdleWires s)
    (hq : s.env.Quiet) :
    ∃ t, exec (.sendc size kind v) s = .next t ∧ Ended t (statusOf t.lastok) 0 ∧ t.released = true
      ∧ (t.lastok = true → t.sentcnt.toNat = packedCount size)
      ∧ (⟨t.told, t.lastok⟩ : Told × Bool) = (s.told.start.send (frameOf s.addr ::
          bytesFrom (.sendc size kind v) (s.packed size kind v) 0)).map Told.stop id := by
  have hn : (byteCount (entered (.sendc size kind v) s) (.sendc size kind v)).toNat = packedCount size := by
    cases size <;> rfl
  have h1 : 1 ≤ packedCount size := by cases size <;> decide
  have h5 : packedCount size ≤ 5 := by cases size <;> decide
  obtain ⟨ack, -, h0, h1'⟩ := run_transaction (i := .sendc size kind v)
    (s := entered (.sendc size kind v) s) rfl rfl rfl hq.noReset hq.clockFree hn h1 h5
  have hexec := exec_of_drives (i := .sendc size kind v) (s := s) ⟨rfl, fun _ => hi⟩ rfl
  have htold {t : State} (ht : runCommand (entered (.sendc size kind v) s) = .next t)
      (hend : t.curOp = none) := told_of_transaction (i := .sendc size kind v) rfl
    (fun h => by rw [h] at hn; simp at hn; omega) (hn ▸ h5) rfl rfl
    (s := entered (.sendc size kind v) s) ⟨hw.sdaOut, hw.sclOut, hw.sda, hw.scl, hw.dev⟩ hq ht hend
  cases ack with
  | false =>
    obtain ⟨-, e, a, hrun⟩ := h0 rfl
    exact ⟨_, hexec.trans hrun, ⟨rfl, rfl, rfl⟩, rfl, nofun, htold hrun rfl⟩
  | true =>
    obtain ⟨k, e, a, hk, -, -, hrun⟩ := h1' rfl
    refine ⟨_, hexec.trans hrun, ⟨rfl, rfl, rfl⟩, rfl, fun hok => ?_, htold hrun rfl⟩
    obtain rfl : k = packedCount size := of_decide_eq_true hok
    simp
    omega

/-- The bytes `SENDC` sends are the packed ones (R144, R146). -/
theorem bytesFrom_packed (hbuf : s.txbuf.wf = true) (size : Size) (kind : Kind) (v : Byte) :
    bytesFrom (.sendc size kind v) (s.packed size kind v) 0 = packBytes s.bl size kind v := by
  obtain ⟨hget, hlen⟩ := holdsPacked_packed hbuf size kind v
  have hcount : (packBytes s.bl size kind v).length = packedCount size := packBytes_length ..
  refine List.ext_getElem ?_ fun j _ hj => ?_
  · rw [bytesFrom, List.length_map, List.length_range', hcount]
    exact hlen
  · have hj' : 0 + 1 * j < packedCount size := by omega
    simp only [bytesFrom, List.getElem_map, List.getElem_range', hget, if_pos hj']
    rw [Nat.one_mul, Nat.zero_add, List.getD_eq_getElem]

/-- With nothing on the bus the address byte is told without acknowledgment (R226). -/
theorem send_absent (τ : Told) (h : τ.dev = none) (v : Byte) (l : List Byte) :
    τ.send (v :: l) = (⟨τ.log ++ [.byte v false], none⟩, false) := by
  simp [Told.send, Told.hear, Told.ninth, Told.answer, answered, h]

/-- An expander that has acknowledged its address acknowledges every byte after it, and gives the controller
the strobes (R150, R226). -/
theorem send_selected (l : List Byte) : ∀ (x : Expander) (L : List WireEvent), x.acks = none →
    x.first = false → x.selected = true → ∃ y, (⟨L, some x⟩ : Told).send l
      = (⟨L ++ l.map fun e => .byte e true, some y⟩, true)
        ∧ y.latch = l.getLastD x.latch ∧ y.given = x.given ++ latched x.latch l := by
  induction l with
  | nil => intro x L _ _ _; exact ⟨x, by simp [Told.send], rfl, by simp [latched]⟩
  | cons v l ih =>
    intro x L hacks hfirst hsel
    have hans : x.answers v = true := by simp [Expander.answers, hacks, hfirst, hsel]
    obtain ⟨y, hsend, hlatch, hgiven⟩ := ih ((x.atByte v).react .ackCloses) (L ++ [.byte v true])
      (by simp [Expander.react, Expander.atByte, Expander.take, hans, hfirst, hacks])
      rfl (by simp [Expander.react, Expander.atByte, hans])
    have htake : ((x.atByte v).react .ackCloses).latch = v
        ∧ ((x.atByte v).react .ackCloses).given = x.given ++ strobe x.latch v := by
      simp [Expander.react, Expander.atByte, Expander.take, hans, hfirst]
    rw [htake.1] at hlatch hgiven
    refine ⟨y, ?_, ?_, ?_⟩
    · simpa [Told.send, Told.hear, Told.ninth, Told.answer, answered, hans] using hsend
    · rw [hlatch, List.getLastD_cons]
    · rw [hgiven, htake.2, latched, List.append_assoc]

/-- The expander at the address of the address byte acknowledges it and every byte after it (R226). -/
theorem send_addressed (τ : Told) {x : Expander} (h : τ.dev = some x) (hacks : x.acks = none)
    (l : List Byte) : ∃ y, τ.start.send (frameOf x.address :: l)
      = (⟨τ.log ++ [.start, .byte (frameOf x.address) true] ++ l.map fun e => .byte e true, some y⟩, true)
        ∧ y.latch = l.getLastD x.latch ∧ y.given = x.given ++ latched x.latch l := by
  have hans : (x.react .start).answers (frameOf x.address) = true := by
    simp [Expander.answers, Expander.react, hacks, frameOf]
  obtain ⟨y, hsend, hy⟩ := send_selected l
    (((x.react .start).atByte (frameOf x.address)).react .ackCloses)
    (τ.log ++ [.start, .byte (frameOf x.address) true])
    (by simp [Expander.react, Expander.atByte, hacks]) rfl
    (by simpa [Expander.react, Expander.atByte] using hans)
  refine ⟨y, ?_, ?_⟩
  · simpa [Told.send, Told.start, Told.hear, Told.ninth, Told.answer, answered, h, hans] using hsend
  · simpa [Expander.react, Expander.atByte] using hy

/-- Settles O46: the expander acknowledges every byte, so the transaction told is the whole one. -/
theorem sendcReachesTheExpander : Obligations.SendcReachesTheExpander := by
  unfold Obligations.SendcReachesTheExpander
  intro s size kind v x hi hbuf hrel hsda hscl hr hc hd hx hacks haddr hdrv
  have hlet : lets s.env.expander = true := by simp [lets, hx, hdrv]
  obtain ⟨t, hexec, hend, hrel', hsent, htold⟩ := exec_sendc_wire size kind v hi
    (idleWires_of_released hrel hsda hscl hlet) (quiet_of_free hr hc hd)
  obtain ⟨y, hsend, hlatch, hgiven⟩ := send_addressed s.told hx hacks (packBytes s.bl size kind v)
  rw [bytesFrom_packed hbuf, ← haddr, hsend] at htold
  have hok : t.lastok = true := congrArg Prod.snd htold
  have hlog := congrArg (fun T => T.1.log) htold
  have hdev := congrArg (fun T => T.1.dev) htold
  rw [hok] at hend
  refine ⟨t, y.react .stop, hexec, hend, hsent hok, hrel', haddr ▸ hlog, hdev, hlatch.trans ?_, hgiven⟩
  cases size <;> rfl

/-- Settles O47: nothing answers the address byte, so the transaction told ends there. -/
theorem absentDeviceTranscript : Obligations.AbsentDeviceTranscript := by
  unfold Obligations.AbsentDeviceTranscript
  intro s size kind v hi hrel hsda hscl hx hr hc hd
  have hlet : lets s.env.expander = true := by rw [hx]; rfl
  have hnone : s.told.start.dev = none := congrArg (Option.map fun x : Expander => x.react .start) hx
  obtain ⟨t, hexec, hend, hrel', -, htold⟩ := exec_sendc_wire size kind v hi
    (idleWires_of_released hrel hsda hscl hlet) (quiet_of_free hr hc hd)
  rw [send_absent _ hnone] at htold
  have hok : t.lastok = false := congrArg Prod.snd htold
  have hlog := congrArg (fun T => T.1.log) htold
  rw [hok] at hend
  refine ⟨t, hexec, hend, hrel', hlog.trans ?_⟩
  simp [Told.start, Told.stop, State.told]

end Sys2Proof.Machine

/-! PROOF. The packed bytes (R85, R142, R143) and what the controller latches from them (R150, R151). -/

namespace Sys2Proof.Machine

/-! ### The two nibbles of a phase -/

/-- `CTL(k, 1)` with its enable bit written out (R87). -/
theorem ctl_enabled (bl k : Bool) : ctl bl k true = (flagByte bl <<< 3) ||| 0x04 ||| flagByte k := rfl

theorem ctl_disabled (bl k : Bool) : ctl bl k false = (flagByte bl <<< 3) ||| flagByte k := by
  rw [ctl, show flagByte false <<< 2 = 0#8 from rfl, BitVec.or_zero]

/-- The kind is bit 0 of the control nibble (R87). -/
theorem ctl_data (bl e : Bool) : ctl bl true e = ctl bl false e ||| 1 := by
  revert bl e; decide

/-- `LO` needs no mask on its high nibble: the shift has left nothing below it (R87). -/
theorem lo_eq_and (v : Byte) : lo v = (v <<< 4) &&& 0xF0 := by
  refine BitVec.eq_of_getLsbD_eq fun b hb => ?_
  rw [lo, BitVec.getLsbD_and]
  interval_cases b <;> simp

/-- Only the low nibble of a byte is in `LO` (R87, R143). -/
theorem lo_eq_of_low {u v : Byte} (h : u &&& 0x0F = v &&& 0x0F) : lo u = lo v := by
  have hlow (w : Byte) : lo w = (w &&& 0x0F) <<< 4 := by
    refine BitVec.eq_of_getLsbD_eq fun b hb => ?_
    interval_cases b <;> simp [lo]
  rw [hlow, h, ← hlow]

/-- Settles O21: phase by phase; the nibble-only bytes hold `LO` alone. -/
theorem packedPhases : Obligations.PackedPhases := by
  unfold Obligations.PackedPhases
  intro bl kind v
  refine ⟨?_, rfl, fun u hu => ?_⟩
  · simp only [packBytes, packFull, ctl_enabled, ctl_disabled, lo_eq_and, hi, BitVec.or_assoc]
    rfl
  · simp only [packBytes, packNibble, lo_eq_of_low hu]

/-! ### The strobes -/

/-- What a byte of the expander is to the display's controller: the register select, the enable and the
nibble on the data lines (R85). -/
structure Phase (b : Byte) (rs en : Bool) (d : Nibble) : Prop where
  rs : b.getLsbD 0 = rs
  en : enBit b = en
  data : b.extractLsb' 4 4 = d

/-- A data nibble over a control nibble (R87). -/
theorem Phase.of_or {x : Byte} {d : Nibble} (hlow : ∀ b, b < 4 → x.getLsbD b = false)
    (hd : x.extractLsb' 4 4 = d) (bl k e : Bool) : Phase (x ||| ctl bl k e) k e d where
  rs := by rw [BitVec.getLsbD_or, hlow 0 (by decide), ctl_getLsbD]; rfl
  en := by rw [enBit, BitVec.getLsbD_or, hlow 2 (by decide), ctl_getLsbD]; rfl
  data := by
    have hctl : (ctl bl k e).extractLsb' 4 4 = 0#4 := by revert bl k e; decide
    rw [BitVec.extractLsb'_or, hctl, hd, BitVec.or_zero]

theorem hi_data (v : Byte) : (hi v).extractLsb' 4 4 = v.extractLsb' 4 4 := by
  refine BitVec.eq_of_getLsbD_eq fun b hb => ?_
  interval_cases b <;> simp [hi]

theorem lo_data (v : Byte) : (lo v).extractLsb' 4 4 = v.extractLsb' 0 4 := by
  refine BitVec.eq_of_getLsbD_eq fun b hb => ?_
  interval_cases b <;> simp [lo]

theorem phase_hi (bl k e : Bool) (v : Byte) : Phase (hi v ||| ctl bl k e) k e (v.extractLsb' 4 4) :=
  .of_or (fun _ => hi_getLsbD_of_lt v) (hi_data v) bl k e

theorem phase_lo (bl k e : Bool) (v : Byte) : Phase (lo v ||| ctl bl k e) k e (v.extractLsb' 0 4) :=
  .of_or (fun _ => lo_getLsbD_of_lt v) (lo_data v) bl k e

/-- The last phase, and the backlight-only byte: nothing on the data lines (R141, R147). -/
theorem phase_ctl (bl k e : Bool) : Phase (ctl bl k e) k e 0 := by
  simpa using Phase.of_or (x := 0) (d := 0) (fun _ _ => BitVec.getLsbD_zero) rfl bl k e

section

variable {prev b : Byte} {rs rs' : Bool} {d d' : Nibble} {l : List Byte}

/-- A phase with enable high latches nothing (R150). -/
theorem Phase.latched_high (h : Phase b rs true d) : latched prev (b :: l) = latched b l := by
  rw [latched, strobe, h.en, Bool.not_true, Bool.and_false]
  rfl

/-- A phase with enable low, after one with enable high, latches its nibble (R150). -/
theorem Phase.latched_fall (hp : Phase prev rs' true d') (h : Phase b rs false d) :
    latched prev (b :: l) = (rs, d) :: latched b l := by
  rw [latched, strobe, hp.en, h.en, h.rs, h.data]
  rfl

end

/-- Settles O23: enable falls once a nibble, and is high at both ends. -/
theorem strobesOfAPackedByte : Obligations.StrobesOfAPackedByte := by
  unfold Obligations.StrobesOfAPackedByte
  intro prev bl kind v _
  have hhi (e : Bool) := phase_hi bl kind.toBool e v
  have hlo (e : Bool) := phase_lo bl kind.toBool e v
  have hlast := phase_ctl bl false true
  have hnibble (p : Byte) :
      latched p (packBytes bl .nibble kind v) = [(kind.toBool, v.extractLsb' 0 4)] := by
    rw [packBytes, packNibble, (hlo true).latched_high, (hlo true).latched_fall (hlo false),
      hlast.latched_high, latched]
  refine ⟨?_, hnibble prev, hlast.latched_high, fun size => ?_, hlast.en⟩
  · calc latched prev (packBytes bl .full kind v)
        = (kind.toBool, v.extractLsb' 4 4)
            :: latched (hi v ||| ctl bl kind.toBool false) (packBytes bl .nibble kind v) := by
          rw [packBytes, packFull, (hhi true).latched_high, (hhi true).latched_fall (hhi false)]
          rfl
      _ = _ := by rw [hnibble]
  · cases size with
    | full => exact ⟨(hhi true).en, hlast.en⟩
    | nibble => exact ⟨(hlo true).en, hlast.en⟩

end Sys2Proof.Machine

/-! PROOF. `PACK` (R144), and the delays of the hook (R149; R7, R89, U10). -/

namespace Sys2Proof.Machine

variable {s : State}

/-! ### `PACK` -/

/-- The two kinds of a byte differ in bit 0 of every phase but the last (R142, R143). -/
theorem packBytes_data (bl : Bool) (size : Size) (v : Byte) {j : Nat} (hj : j < packedCount size) :
    (packBytes bl size .data v).getD j 0
      = (packBytes bl size .command v).getD j 0 ||| (if j + 1 < packedCount size then 1 else 0) := by
  have hphase (x : Byte) (e : Bool) : x ||| ctl bl true e = x ||| ctl bl false e ||| 1 := by
    rw [ctl_data, BitVec.or_assoc]
  by_cases hlast : j + 1 < packedCount size
  · rw [if_pos hlast]
    have hj' : j < packedCount size - 1 := by omega
    cases size <;> rw [packedCount] at hj' <;> interval_cases j <;> exact hphase _ _
  · rw [if_neg hlast]
    obtain rfl : j = packedCount size - 1 := by omega
    cases size <;> exact BitVec.or_zero.symm

theorem packed_wf (hbuf : s.txbuf.wf = true) (size : Size) (kind : Kind) (v : Byte) :
    (s.packed size kind v).txbuf.wf = true := by
  refine Memory.store_wf _ hbuf ?_
  rw [packBytes_length]
  cases size <;> decide

theorem modField_high (w : CmdWord) : (modField w).extractLsb' 2 2 = w.extractLsb' 10 2 := by
  refine BitVec.eq_of_getLsbD_eq fun k hk => ?_
  interval_cases k <;> simp [modField]

/-- Settles O24: `PACK` is its one step's effect, and bits 11:10 are two that R81 says must be 0. -/
theorem packFillsTheBuffer : Obligations.PackFillsTheBuffer := by
  unfold Obligations.PackFillsTheBuffer
  refine ⟨fun s size kind v hbuf h0 => ?_, fun bl size v j => packBytes_data bl size v,
    fun w hop hw => ?_⟩
  · have hpacked := holdsPacked_packed (s := s.latch) hbuf size kind v
    exact ⟨_, exec_of_oneStep rfl nofun rfl h0, ⟨rfl, rfl, rfl⟩, oneStep_effect (.pack size kind v) s,
      hpacked, packed_wf hbuf size kind v, ⟨rfl, rfl, rfl⟩, ⟨rfl, rfl, rfl⟩, ⟨rfl, rfl⟩,
      ⟨rfl, rfl, rfl⟩⟩
  · refine decode_eq_none_of_row (j := .pack .full .data 0) hop (.inl ?_)
    rw [zerosHold, modField_high]
    exact beq_eq_false_iff_ne.mpr hw

/-! ### The delays -/

/-- The delay timer's cycles are the least whole number, at least 1, not short of the delay (R89, R219). -/
theorem cycles_least (p : Config.Timing ℝ) (d : Delay) : 1 ≤ d.cycles p
    ∧ d.us p * p.clkHz / 1000000 ≤ d.cycles p
    ∧ ∀ n : Nat, 1 ≤ n → d.us p * p.clkHz / 1000000 ≤ n → d.cycles p ≤ n :=
  ⟨le_max_left _ _, (Nat.le_ceil _).trans (Nat.cast_le.mpr (le_max_right _ _)),
    fun _ h1 hn => max_le h1 (Nat.ceil_le.mpr hn)⟩

/-- The defaults are legal on every clock (R7, R149, U10). -/
theorem offered_legal {clk : ℝ} (h : 0 < clk) : (Config.Timing.offered clk).Legal :=
  ⟨h, by norm_num [Config.Timing.offered, Config.fSclHzDefault], le_refl _, le_refl _⟩

/-- Settles O25: position, lengths, minimums, defaults, and the rounding up of R89. -/
theorem hookDelays : Obligations.HookDelays := by
  unfold Obligations.HookDelays
  refine ⟨fun i n => ?_, fun p => ⟨rfl, rfl, rfl⟩, fun p hp => ⟨hp.en, ?_, ?_⟩,
    fun clk h => ⟨offered_legal h, rfl, rfl, ?_⟩, fun p d _ => cycles_least p d, fun p _ => ?_⟩
  · have hpos : i.toNat + 2 = n.toNat ↔ (i.toNat : Int) = n.toNat - 2 := by omega
    simp only [hookDelay, hpos]
  · exact add_le_add hp.en hp.prearm
  · exact div_pos (by norm_num) (Nat.cast_pos.mpr hp.bus)
  · norm_num [Delay.us, Config.Timing.tHalfUs, Config.Timing.offered, Config.fSclHzDefault]
  · rw [Delay.cycles, Delay.us, Config.Timing.tHalfUs, div_mul_eq_mul_div, div_div]

end Sys2Proof.Machine

/-! PROOF. `EMITC`, `SENDC` and `BLNOW` on a free clock, whatever devices answer (R112, R144 to R147,
R258). -/

namespace Sys2Proof.Machine

variable {i : Instr} {s t : State} {n k : Nat}

/-! ### The bytes sent -/

/-- The first bytes of a buffer that holds a packed byte are its first phases (R140, R144). -/
theorem HoldsPacked.map_get {size : Size} {kind : Kind} {v : Byte} (h : HoldsPacked s t size kind v)
    (hn : n ≤ packedCount size) :
    (List.range n).map t.txbuf.get = (packBytes s.bl size kind v).take n := by
  obtain ⟨hget, -⟩ := h
  have hlen := packBytes_length s.bl size kind v
  refine List.ext_getElem (by simp [hlen, hn]) fun j hj hj' => ?_
  have hjn : j < n := by simpa using hj
  rw [List.getElem_map, List.getElem_range, hget, if_pos (by omega), List.getElem_take,
    List.getD_eq_getElem]

theorem loopBytes_le (n k : Nat) : loopBytes n k ≤ n := min_le_right _ _

theorem packedCount_pos (size : Size) : 1 ≤ packedCount size := by cases size <;> decide

theorem packedCount_le (size : Size) : packedCount size ≤ 5 := by cases size <;> decide

/-- The backlight-only byte (R147). -/
theorem backlightByte_eq (bl : Bool) : backlightByte bl = if bl then 0x0C else 0x04 := by
  cases bl <;> rfl

/-- A loop of one byte has it acknowledged or not (R112). -/
theorem ackedBefore_one (ack : Nat → Bool) : decide (ackedBefore ack 1 = 1) = ack 0 := by
  rw [ackedBefore]
  cases ack 0 <;> rfl

/-! ### `EMITC` -/

/-- Settles O43: the byte loop, entered at index 0 with the buffer packed, ends `EMITC`. -/
theorem emitcSendsThePhases : Obligations.EmitcSendsThePhases := by
  unfold Obligations.EmitcSendsThePhases
  intro s size kind v hi hbuf hr hc
  have hpacked := holdsPacked_packed hbuf size kind v
  obtain ⟨u, k, a, e, c, hbegin, -, -, -, hk, hc', hL, hx⟩ := leads_beginLoop
    (i := .emitc size kind v) (s := (s.packed size kind v).accept (.emitc size kind v) .idle) rfl hr hc
    hpacked.2 (packedCount_pos size) (packedCount_le size)
  have hcount : byteCount ((s.packed size kind v).accept (.emitc size kind v) .idle)
      (.emitc size kind v) ≠ 0 := packed_txlen_ne_zero size kind v s
  obtain rfl : entered (.emitc size kind v) s = u :=
    Host.Outcome.next.inj ((beginLoop_of_count hcount).symm.trans hbegin)
  have hbound : c ≤ runBound := by
    have := packedCount_le size
    unfold runBound
    omega
  rw [loopDone_of_not_closes rfl] at hL
  refine ⟨_, k, hk, (exec_of_drives ⟨rfl, fun _ => hi⟩ rfl).trans (hL.ended rfl hbound),
    ⟨rfl, rfl, rfl⟩, .of_loopLeft a hk (packedCount_le size) _ e _ _, rfl,
    took_loopSpent (s := s) (h := true) rfl, hpacked.congr rfl rfl, rfl, ⟨rfl, rfl, rfl⟩,
    ⟨_, hbegin, (hL.sent rfl hbound).trans (hpacked.map_get (loopBytes_le _ k))⟩, fun hnone => ?_⟩
  rw [loopAck_zero]
  exact hx hnone

/-! ### A whole transaction -/

theorem drives_of_closes (h : closes i = true) : drives i = true := by
  cases i with
  | sendc | blnow => rfl
  | _ => cases h

/-- What the state before `SENDC` and `BLNOW` and the state at their first step share. -/
structure Opens (i : Instr) (s : State) : Prop where
  ustep : (entered i s).ustep = .start .fallSda
  spent : (entered i s).spent = s.spent
  loop : SameLoop s (entered i s)
  addr : frameAddr (entered i s) i = s.addr

theorem opens_of_closes (h : closes i = true) (s : State) : Opens i s := by
  cases i with
  | sendc | blnow => exact ⟨rfl, rfl, ⟨rfl, rfl⟩, rfl⟩
  | _ => cases h

/-- A transaction whose address byte was not acknowledged has ended with NACK, and has sent nothing else
(R146, R147). -/
structure Unanswered (i : Instr) (s t : State) : Prop where
  ended : Ended t .nack 0
  lastok : t.lastok = false
  shreg : t.shreg = 0
  bitcnt : t.bitcnt = 8
  loop : SameLoop s t
  took : Took s t 23 0 0
  sent : bytesBegun runBound (entered i s) = [frameOf s.addr]

/-- A transaction of `n` bytes whose address byte was acknowledged has ended after its byte loop, which had
`k` bytes acknowledged (R112, R146, R147). -/
structure Answered (i : Instr) (n k : Nat) (s t : State) : Prop where
  le : k ≤ n
  ended : Ended t (statusOf (decide (k = n))) 0
  left : LoopLeft t n k
  took : Took s t (23 + 18 * loopBytes n k) (loopHooks (hooked i) k) (loopPrearms (hooked i) n k)
  sent : bytesBegun runBound (entered i s)
    = frameOf s.addr :: (List.range (loopBytes n k)).map (entered i s).txbuf.get
  sampled : s.env.expander = none → k = ackedBefore (loopAck s.env 52 (hooked i)) n

/-- A whole transaction is closed in every outcome, its first byte acknowledged or not (R146, R147). -/
structure Transacted (i : Instr) (n : Nat) (ack : Bool) (s t : State) : Prop where
  keeps : Keeps (entered i s) t
  released : t.released = true
  isOpen : t.isOpen = false
  sampled : s.env.expander = none → ack = s.env.ackAt 48
  nack : ack = false → Unanswered i s t
  acked : ack = true → ∃ k, Answered i n k s t

/-- The state in which a transaction ends that has sent its bytes (R112, R146). -/
def closedAfterLoop (i : Instr) (n k : Nat) (a : Bool) (s : State) (e : Env) : State :=
  { closed s (decide (k = n)) a e with
      sentcnt := BitVec.ofNat 3 k, byteidx := BitVec.ofNat 3 (min k (n - 1))
      spent := loopSpent (hooked i) n 0 k { s.spent with half := s.spent.half + 23 } }

theorem loopLeft_closedAfterLoop (i : Instr) (hk : k ≤ n) (h5 : n ≤ 5) (a : Bool) (s : State) (e : Env) :
    LoopLeft (closedAfterLoop i n k a s e) n k where
  sentcnt := by simp [closedAfterLoop]; omega
  byteidx := by simp [closedAfterLoop]; omega
  lastok := rfl
  shreg := rfl
  bitcnt := rfl

/-- The delays of a transaction are those of its byte loop and of the start condition, the address byte and
the stop condition (R258). -/
theorem took_closedAfterLoop (h : t.spent = s.spent) (i : Instr) (n k : Nat) (a : Bool) (e : Env) :
    Took s (closedAfterLoop i n k a t e) (23 + 18 * loopBytes n k) (loopHooks (hooked i) k)
      (loopPrearms (hooked i) n k) := by
  refine ⟨?_, ?_, ?_⟩ <;>
    simp [closedAfterLoop, loopSpent, loopBytes, loopHooks, loopPrearms, h, Nat.add_assoc]

/-- `SENDC` and `BLNOW` are whole transactions of the bytes they have put into the buffer. -/
theorem exec_transaction (hcl : closes i = true) (hl : Legal i s) (hr : s.env.noReset)
    (hc : s.env.clockFree) (hn : (byteCount (entered i s) i).toNat = n) (h1 : 1 ≤ n) (h5 : n ≤ 5) :
    ∃ t ack, exec i s = .next t ∧ Transacted i n ack s t := by
  have hd := drives_of_closes hcl
  have henv := entered_env i s
  obtain ⟨hu, hspent, ⟨hidx, hsent⟩, haddr⟩ := opens_of_closes hcl s
  obtain ⟨ack, hsample, h0, h1'⟩ := run_transaction hcl (entered_curOp (needsInit_of_drives hd) s) hu
    (henv ▸ hr) (henv ▸ hc) hn h1 h5
  rw [henv] at hsample
  have hexec := exec_of_drives hl hd
  cases ack with
  | false =>
    obtain ⟨hbytes, e, a, hrun⟩ := h0 rfl
    have htook : Took s (closed (entered i s) false a e) 23 0 0 := by
      refine ⟨?_, ?_, ?_⟩ <;> simp [closed, hspent]
    exact ⟨_, false, hexec.trans hrun, ⟨rfl, rfl, rfl, rfl, rfl, rfl⟩, rfl, rfl, hsample, fun _ =>
      ⟨⟨rfl, rfl, rfl⟩, rfl, rfl, rfl, ⟨hidx, hsent⟩, htook, haddr ▸ hbytes⟩, nofun⟩
  | true =>
    obtain ⟨k, e, a, hk, hx, hbytes, hrun⟩ := h1' rfl
    rw [henv] at hx
    exact ⟨closedAfterLoop i n k a (entered i s) e, true, hexec.trans hrun,
      ⟨rfl, rfl, rfl, rfl, rfl, rfl⟩, rfl, rfl, hsample, nofun, fun _ => ⟨k, hk, ⟨rfl, rfl, rfl⟩,
        loopLeft_closedAfterLoop i hk h5 a _ e, took_closedAfterLoop hspent i n k a e,
        haddr ▸ hbytes, hx⟩⟩

/-- Settles O44: `SENDC` is a transaction of the packed bytes. -/
theorem sendcIsAWholeTransaction : Obligations.SendcIsAWholeTransaction := by
  unfold Obligations.SendcIsAWholeTransaction
  intro s size kind v hi hbuf hr hc
  have hpacked := holdsPacked_packed hbuf size kind v
  obtain ⟨t, ack, hexec, h⟩ := exec_transaction (i := .sendc size kind v) rfl ⟨rfl, fun _ => hi⟩ hr hc
    hpacked.2 (packedCount_pos size) (packedCount_le size)
  refine ⟨t, ack, hexec, hpacked.congr h.keeps.txbuf h.keeps.txlen, h.released, h.isOpen,
    ⟨h.keeps.addr, h.keeps.bl, h.keeps.initd⟩, h.sampled, fun hack => ?_, fun hack => ?_⟩
  · obtain ⟨hend, hok, hshreg, hbitcnt, hloop, htook, hsent⟩ := h.nack hack
    exact ⟨hend, hok, hshreg, hbitcnt, hloop, htook, hsent⟩
  · obtain ⟨k, hk, hend, hleft, htook, hsent, hx⟩ := h.acked hack
    refine ⟨k, hk, hend, hleft, htook, hsent.trans ?_, hx⟩
    exact congrArg _ (hpacked.map_get (loopBytes_le _ k))

/-- Settles O45: `BLNOW` is a transaction of one byte, without a hook. -/
theorem blnowSendsTheBacklight : Obligations.BlnowSendsTheBacklight := by
  unfold Obligations.BlnowSendsTheBacklight
  intro s hi hbuf hr hc
  have hget (j : Nat) : s.packedBacklight.txbuf.get j
      = if 0 = j then (if s.bl then 0x0C else 0x04) else s.txbuf.get j := by
    rw [← backlightByte_eq]
    exact Memory.get_write 0 j _ hbuf
  obtain ⟨t, ack, hexec, h⟩ := exec_transaction (i := .blnow) (n := 1) rfl ⟨rfl, fun _ => hi⟩ hr hc
    rfl le_rfl (by decide)
  have hbuf' : t.txbuf = s.packedBacklight.txbuf := h.keeps.txbuf
  refine ⟨t, ack, hexec, hbuf' ▸ hget 0, fun j hj => hbuf' ▸ (hget j).trans (if_neg hj.symm),
    h.keeps.txlen, h.released, h.isOpen, ⟨h.keeps.addr, h.keeps.bl, h.keeps.initd⟩, h.sampled,
    fun hack => ?_, fun hack => ?_⟩
  · obtain ⟨hend, hok, hshreg, hbitcnt, hloop, htook, hsent⟩ := h.nack hack
    exact ⟨hend, hok, hshreg, hbitcnt, hloop, htook, hsent⟩
  · obtain ⟨k, hk, hend, hleft, htook, hsent, hx⟩ := h.acked hack
    have hone : loopBytes 1 k = 1 := min_eq_right (by omega)
    rw [hone] at htook hsent
    have hk' : (if decide (k = 1) then 1 else 0) = k := by
      interval_cases k <;> rfl
    refine ⟨decide (k = 1), hend, hk'.symm ▸ hleft, htook, hsent.trans (congrArg _ ?_), fun hnone => ?_⟩
    · exact congrArg (· :: []) (hget 0)
    · rw [hx hnone, ackedBefore_one]
      rfl

end Sys2Proof.Machine

/-! PROOF. The commands that are legal at any time (R176), and the configuration and read-back commands
`SETADDR`, `SETBL` and `RDREG` (R39, R170, R171, R174). -/

namespace Sys2Proof.Machine

variable {i : Instr} {s : State}

/-! ### Before `INIT` -/

theorem not_legal_of_uninitialised (hn : i.needsInit = true) (hi : s.initd = false) :
    ¬ Legal i s := fun hl => by simp [hl.initd hn] at hi

/-- A command that needs no `INITD` takes one step (log entry 3). -/
theorem drives_of_not_needsInit (h : i.needsInit = false) : drives i = false :=
  Bool.eq_false_iff.mpr fun hd => by simp [needsInit_of_drives hd] at h

/-- Settles O12: the checks refuse the nine; the six need no `INITD` and are one step each. -/
theorem lineCommandsNeedInit : Obligations.LineCommandsNeedInit := by
  unfold Obligations.LineCommandsNeedInit
  refine ⟨fun s v h n a size kind hi h0 => ?_, fun s i h0 hw hn => ?_⟩
  · have refused {i : Instr} (hn : i.needsInit = true) : AnswersIllegal (exec i s) s :=
      exec_answersIllegal (not_legal_of_uninitialised hn hi) h0
    exact ⟨refused rfl, refused rfl, refused rfl, refused rfl, refused rfl, refused rfl, refused rfl,
      refused rfl, refused rfl⟩
  · exact ⟨_, _, exec_of_oneStep hw (by simp [hn]) (drives_of_not_needsInit hn) h0, rfl⟩

/-! ### `RDREG` -/

/-- Numbers 8 to 12 are the five bytes of the buffer (R39). -/
theorem readReg_buffer {r : BitVec 4} (hl : legalReg r = true) (h8 : 8 ≤ r.toNat) (s : State) :
    s.readReg r = s.txbuf.get (r.toNat - 8) := by
  have h12 : r.toNat ≤ 12 := by simp [legalReg] at hl; omega
  unfold State.readReg
  generalize r.toNat = n at h8 h12
  interval_cases n <;> rfl

theorem flagByte_toNat (b : Bool) : (flagByte b).toNat = b.toNat := by cases b <;> rfl

theorem immField_extractLsb' (w : CmdWord) {j k : Nat} (h : j + k ≤ 8) :
    (immField w).extractLsb' j k = w.extractLsb' j k :=
  BitVec.extractLsb'_extractLsb'_of_le h

/-- Bits 11:4 of a word are `MOD` and the upper half of `IMM` (R80). -/
theorem modField_append_imm_high (w : CmdWord) :
    modField w ++ (immField w).extractLsb' 4 4 = w.extractLsb' 4 8 := by
  rw [immField_extractLsb' w (by decide)]
  exact BitVec.extractLsb'_append_extractLsb'_eq_extractLsb' rfl

/-- Settles O18: the one step writes nothing and answers the register read at it. -/
theorem rdregReturnsTheRegister : Obligations.RdregReturnsTheRegister := by
  unfold Obligations.RdregReturnsTheRegister
  refine ⟨fun s r h0 hl => ?_, fun s r h0 hr => ?_, fun w hop h => ?_⟩
  · refine ⟨_, s.latch.readReg r, exec_of_oneStep hl nofun rfl h0, ⟨rfl, rfl, rfl⟩,
      oneStep_effect (.rdreg r) s,
      ⟨⟨rfl, rfl, rfl⟩, fun _ => rfl, rfl, ⟨rfl, rfl, rfl⟩, ⟨rfl, rfl⟩, ⟨rfl, rfl, rfl⟩⟩,
      ?_, ?_, ?_, ?_, ?_, ?_, ?_, fun h8 => readReg_buffer hl h8 s.latch⟩ <;> rintro rfl
    · rfl
    · exact BitVec.toNat_setWidth_of_le (by decide)
    · exact flagByte_toNat s.bl
    · exact BitVec.toNat_setWidth_of_le (by decide)
    · exact BitVec.toNat_setWidth_of_le (by decide)
    · rfl
    · rfl
  · have reserved : legalReg r = false := by
      rcases hr with rfl | rfl | rfl | rfl <;> rfl
    exact exec_answersIllegal (fun hl => Bool.false_ne_true (reserved.symm.trans hl.wf)) h0
  · refine decode_eq_none_of_row (j := .rdreg 0) hop (h.imp (fun hbits => ?_) fun hreg => ?_)
    · refine Bool.eq_false_iff.mpr fun hz => hbits ?_
      simp only [zerosHold, Bool.and_eq_true, beq_iff_eq] at hz
      obtain ⟨hmod, himm⟩ := hz
      rw [← modField_append_imm_high, hmod, himm]
      rfl
    · rw [fromFields, immField_low w (by decide)]
      exact hreg

/-! ### `SETADDR` and `SETBL` -/

/-- A start condition that goes on to an address byte has loaded it: the frame of the address the command
means (R102, R130). -/
theorem ticks_start_frameLoaded (hop : s.curOp = some i) (hu : s.ustep = .start .fallSda)
    (ha : addresses i = true) (hr : s.env.noReset) :
    ∃ t, ticks 4 s = .next t ∧ FrameLoaded t (frameAddr s i) := by
  obtain ⟨e, h⟩ := run_start hop hu hr
  have hlast := tick_holdScl (i := i) (by exact hop) rfl (h.after.noReset hr 0)
  rw [afterStart, if_pos ha] at hlast
  exact ⟨_, (ticks_of_reaches h.reaches 1).trans (congrArg (andThen · (ticks 0)) hlast),
    congrArg frameOf (by cases i <;> rfl), rfl, rfl⟩

/-- Settles O16: `SETADDR` is its one step's effect, and the start condition of `SENDC` and `BLNOW` loads
the frame of `ADDR`. -/
theorem setaddrStoresTheAddress : Obligations.SetaddrStoresTheAddress := by
  unfold Obligations.SetaddrStoresTheAddress
  refine ⟨fun s a h0 => ?_, fun s a size kind v => ⟨rfl, rfl, rfl⟩, fun s size kind v hr => ⟨?_, ?_⟩,
    fun w hop h => ?_⟩
  · exact ⟨_, exec_of_oneStep rfl nofun rfl h0, ⟨rfl, rfl, rfl⟩, oneStep_effect (.setaddr a) s, rfl, rfl,
      rfl, fun _ => rfl, rfl, ⟨rfl, rfl, rfl⟩, ⟨rfl, rfl⟩, ⟨rfl, rfl, rfl⟩⟩
  · exact ticks_start_frameLoaded (s := entered (.sendc size kind v) s) rfl rfl rfl hr
  · exact ticks_start_frameLoaded (s := entered .blnow s) rfl rfl rfl hr
  · refine decode_eq_none_of_row (j := .setaddr 0) hop (.inl (Bool.and_eq_false_iff.mpr ?_))
    refine h.symm.imp beq_eq_false_iff_ne.mpr fun h7 => ?_
    simpa [immField] using h7

/-- Settles O17: `SETBL` is its one step's effect, which writes no byte of the buffer. -/
theorem setblStoresTheFlag : Obligations.SetblStoresTheFlag := by
  unfold Obligations.SetblStoresTheFlag
  refine ⟨fun s b h0 => ?_, fun w hop h => ?_⟩
  · exact ⟨_, exec_of_oneStep rfl nofun rfl h0, ⟨rfl, rfl, rfl⟩, oneStep_effect (.setbl b) s, rfl, rfl,
      rfl, fun _ => rfl, rfl, ⟨rfl, rfl, rfl⟩, ⟨rfl, rfl⟩, ⟨rfl, rfl, rfl⟩⟩
  · refine decode_eq_none_of_row (j := .setbl false) hop (.inl (Bool.and_eq_false_iff.mpr ?_))
    rw [immField_extractLsb' w (by decide)]
    exact h.symm.imp beq_eq_false_iff_ne.mpr beq_eq_false_iff_ne.mpr

end Sys2Proof.Machine

/-! PROOF. What the host's action does to the host at a step between commands, and the idle steps among them
(R20, R43; log entries 15, 24). -/

namespace Sys2Proof.Machine

variable {s t : State} {w : CmdWord} {a : HostAct} {q : List HostAct}

/-! ### The host after its action -/

theorem idleStep_host (h : idleStep s = .next t) : t.host = s.host :=
  clocked_host (fun h => by cases h; rfl) h

theorem issueWord_host (h : issueWord w s = .next t) : t.host = s.host := by
  unfold issueWord at h
  split at h
  · exact exec_host h
  · exact illegalCommand_host h

/-- Of the host, an action changes the session, by its own update (R184 to R191), and whether a response is
waited for (R189, R190). -/
theorem hostAct_host (h : hostAct a s = .next t) :
    t.host = { s.host with
      session := sessionAfter s.host.session [a], tracking := t.host.tracking } := by
  cases a with
  | issue w => rw [issueWord_host h]; rfl
  | track w => rw [issueWord_host h]; rfl
  | ifOk w =>
    rw [hostAct] at h
    split at h
    · rw [issueWord_host h]; rfl
    · rw [idleStep_host h]; rfl
  | wait d => rw [idleStep_host h]; rfl
  | width w => rw [idleStep_host h]; rfl
  | cursor x y => rw [idleStep_host h]; rfl
  | ready => rw [idleStep_host h]; rfl

/-- A step between commands makes the update of the action it takes off the queue and no other, whether or
not it samples `rst` 1, and changes `ok` only by the response it reads. -/
theorem step_of_queue_host (hop : s.curOp = none) (hq : s.host.queue = a :: q) (h : step s = .next t) :
    t.host.session = sessionAfter s.host.session [a] ∧ t.host.queue = q
      ∧ t.host.ok = s.hostReads.host.ok := by
  rw [step_of_queue hop hq] at h
  rw [hostAct_host h]
  exact ⟨congrArg (sessionAfter · [a]) (hostReads_session s), rfl, rfl⟩

/-! ### Steps that present no command -/

/-- An action that is no command presents none (R43). -/
theorem cmdValid_of_command_none (hq : s.host.queue = a :: q) (ha : a.command = none) :
    s.cmdValid = false := by
  rw [State.cmdValid, hostReads_queue, hq]
  cases a with
  | issue w | track w | ifOk w => cases ha
  | wait d | width w | cursor x y | ready => rfl

/-- A command under `ok` is not presented once `ok` is false (R189, R190). -/
theorem cmdValid_of_not_ok (hq : s.host.queue = .ifOk w :: q) (hok : s.hostReads.host.ok = false) :
    s.cmdValid = false := by
  rw [State.cmdValid, hostReads_queue, hq]
  exact hok

/-- A step with no command presented leaves the block as it is, and no response is there after it. -/
theorem step_sameBlock_of_not_cmdValid (hop : s.curOp = none) (hv : s.cmdValid = false)
    (hr : (s.env.ahead 0).rst = false) :
    ∃ t, step s = .next t ∧ t.busy = false ∧ t.rsp = none ∧ SameBlock s t := by
  obtain ⟨-, -, -, -, -, -, -, hidle⟩ := stepRunsTheDecodedCommand
  exact hidle s (by rw [State.cmdReady, State.busy, hop]; rfl) hv hr

end Sys2Proof.Machine

/-! PROOF. Where each session operation leaves the tracked cursor (R184 to R192). -/

namespace Sys2Proof.Machine

variable {p : HostParams} {addr : Addr7} {v : Session} {op : SessionOp} {acts : List HostAct}

/-! ### The updates of an expansion -/

/-- The session with its tracked cursor at a cell. -/
def Session.movedTo (v : Session) (c : Nat × Nat) : Session := { v with curX := c.1, curY := c.2 }

/-- Commands under `ok` update nothing of the session (R189, R190). -/
theorem sessionAfter_map_ifOk (v : Session) (f : Byte → CmdWord) (l : List Byte) :
    sessionAfter v (l.map fun c => .ifOk (f c)) = v := by
  induction l with
  | nil => rfl
  | cons c l ih => exact ih

/-- The cell `put_char` of the model moves on to is R187's. -/
theorem putCharCursor_eq_nextCell (width x y : Nat) : putCharCursor width x y = nextCell width (x, y) := by
  simp only [putCharCursor, wraps, nextCell, decide_eq_true_eq, ← Nat.not_lt, ite_not]

theorem sessionAfter_putCharActs_movedTo (c : Byte) :
    sessionAfter v (putCharActs p v.width v.curX v.curY c) = v.movedTo (nextCell v.width v.cursor) := by
  rw [sessionAfter_putCharActs, putCharCursor_eq_nextCell]
  rfl

/-- `put_string` moves the cursor as that many `put_char` do (R188). -/
theorem sessionAfter_putStringActs (l : List Byte) : ∀ v : Session,
    sessionAfter v (putStringActs p v.width v.curX v.curY l)
      = v.movedTo (l.foldl (fun cell _ => nextCell v.width cell) v.cursor) := by
  induction l with
  | nil => intro v; rfl
  | cons c l ih =>
    intro v
    rw [putStringActs, sessionAfter_append, sessionAfter_putCharActs_movedTo, putCharCursor_eq_nextCell]
    exact ih (v.movedTo (nextCell v.width v.cursor))

/-- `put_string_fast` counts the raw length (R189). -/
theorem sessionAfter_putStringFastActs (v : Session) (addr : Addr7) (x y : Nat) (l : List Byte) :
    sessionAfter v (putStringFastActs addr x y l) = v.movedTo (x + l.length, y) := by
  rw [putStringFastActs, sessionAfter_append, sessionAfter_append, sessionAfter_map_ifOk]
  rfl

theorem sessionAfter_putStringAtFastActs (v : Session) (p : HostParams) (addr : Addr7) (x y : Nat)
    (l : List Byte) :
    sessionAfter v (putStringAtFastActs p addr x y l) = v.movedTo (x + l.length, y) := by
  rw [putStringAtFastActs, sessionAfter_append, sessionAfter_append, sessionAfter_map_ifOk]
  rfl

/-! ### The updates of an operation -/

/-- The cell at which an operation leaves the tracked cursor (R184 to R192). -/
def SessionOp.cursorAfter (v : Session) : SessionOp → Nat × Nat
  | .setup _ _ _ => (0, 0)
  | .moveCursor x y => (x, y)
  | .clear => (0, 0)
  | .putChar _ => nextCell v.width v.cursor
  | .putString l => l.foldl (fun cell _ => nextCell v.width cell) v.cursor
  | .putStringFast l => (v.curX + l.length, v.curY)
  | .putStringAtFast x y l => (x + l.length, y)
  | .setBacklight _ _ => v.cursor
  | .askBacklight => v.cursor
  | .askWidth => v.cursor
  | .askColumn => v.cursor
  | .askRow => v.cursor

/-- Every operation but the setup moves the cursor and updates nothing else of the session. -/
theorem sessionAfter_expand (hop : ∀ a w b, op ≠ .setup a w b) (h : op.expand p addr v = some acts) :
    sessionAfter v acts = v.movedTo (op.cursorAfter v) := by
  cases op with
  | setup a w on => exact absurd rfl (hop a w on)
  | moveCursor x y =>
    obtain ⟨-, ⟨⟩⟩ := Option.ite_none_right_eq_some.mp h
    exact sessionAfter_moveCursorActs v p x y
  | clear =>
    obtain ⟨-, ⟨⟩⟩ := Option.ite_none_right_eq_some.mp h
    exact sessionAfter_clearActs v p
  | putChar c =>
    obtain ⟨-, ⟨⟩⟩ := Option.ite_none_right_eq_some.mp h
    exact sessionAfter_putCharActs_movedTo c
  | putString l =>
    obtain ⟨-, ⟨⟩⟩ := Option.ite_none_right_eq_some.mp h
    exact sessionAfter_putStringActs l v
  | putStringFast l =>
    obtain ⟨-, ⟨⟩⟩ := Option.ite_none_right_eq_some.mp h
    exact sessionAfter_putStringFastActs v addr v.curX v.curY l
  | putStringAtFast x y l =>
    obtain ⟨-, ⟨⟩⟩ := Option.ite_none_right_eq_some.mp h
    exact sessionAfter_putStringAtFastActs v p addr x y l
  | setBacklight on now =>
    obtain ⟨-, ⟨⟩⟩ := Option.ite_none_right_eq_some.mp h
    exact sessionAfter_setBacklightActs v on now
  | askBacklight | askWidth | askColumn | askRow =>
    obtain ⟨-, ⟨⟩⟩ := Option.ite_none_right_eq_some.mp h
    rfl

/-- Settles O59: a step makes the update of its action, and the updates of an expansion are one move of the
cursor. -/
theorem trackedCursorOfEachOperation : Obligations.TrackedCursorOfEachOperation := by
  unfold Obligations.TrackedCursorOfEachOperation
  refine ⟨fun s t a q hop hq h => ?_, fun s a q hop hq ha hr => ?_, fun p addr v w a on acts h => ?_,
    fun p addr v x y c l on now acts hv => ?_⟩
  · obtain ⟨hsession, hqueue, -⟩ := step_of_queue_host hop hq h
    exact ⟨hsession, hqueue⟩
  · exact step_sameBlock_of_not_cmdValid hop (cmdValid_of_command_none hq ha) hr
  · obtain ⟨-, ⟨⟩⟩ := Option.ite_none_right_eq_some.mp h
    rw [sessionAfter_setupActs]
    exact ⟨rfl, rfl⟩
  · have leaves {op : SessionOp} (hop : ∀ a w b, op ≠ .setup a w b)
        (h : op.expand p addr v = some acts) : (sessionAfter v acts).cursor = op.cursorAfter v :=
      congrArg Session.cursor (sessionAfter_expand hop h)
    refine ⟨leaves nofun, leaves nofun, leaves nofun, leaves nofun, leaves nofun, leaves nofun,
      sessionAfter_expand nofun, fun op hask h => ?_, fun op hop h => ?_⟩
    · rcases hask with rfl | rfl | rfl | rfl <;> exact sessionAfter_expand (by nofun) h
    · rw [sessionAfter_expand hop h]
      exact ⟨rfl, hv⟩

end Sys2Proof.Machine

/-! PROOF. A batch stops issuing at the first failure and is still closed (R189, R190). -/

namespace Sys2Proof.Machine

variable {s : State}

/-! ### The variable `ok` -/

/-- With no response waited for, or none there, the host reads nothing. -/
theorem hostReads_of_unread (h : s.host.tracking = false ∨ s.rsp = none) : s.hostReads = s := by
  rcases h with h | h
  · unfold State.hostReads
    split
    · exact if_neg (Bool.eq_false_iff.mp h)
    · rfl
  · exact hostReads_of_none h

/-- The response waited for is read into `ok` (R84, R100 (e); log entry 29). -/
theorem hostReads_of_tracking {r : Response} (hr : s.rsp = some r) (ht : s.host.tracking = true) :
    s.hostReads = { s with host := { s.host with ok := decide (r.st = .ok), tracking := false } } := by
  simp only [State.hostReads, hr, ht, if_true]

/-- A command that is presented and waited for leaves the host waiting for its response (R189, R190). -/
theorem step_tracking {t : State} {w : CmdWord} {q : List HostAct} (hop : s.curOp = none)
    (hq : s.host.queue = .track w :: q ∨ (s.host.queue = .ifOk w :: q ∧ s.hostReads.host.ok = true))
    (h : step s = .next t) : t.host.tracking = true := by
  have hissue : step s = issueWord w ((s.hostReads.withQueue q).withTracking true) := by
    rcases hq with hq | ⟨hq, hok⟩
    · exact step_of_queue hop hq
    · exact (step_of_queue hop hq).trans (if_pos hok)
  rw [issueWord_host (hissue ▸ h)]
  rfl

/-! ### The commands of a batch, under `ok` and not -/

theorem guarded_append (l m : List HostAct) : guarded (l ++ m) = guarded l ++ guarded m :=
  List.filterMap_append

theorem unguarded_append (l m : List HostAct) : unguarded (l ++ m) = unguarded l ++ unguarded m :=
  List.filterMap_append

theorem guarded_map_ifOk (f : Byte → CmdWord) (l : List Byte) :
    guarded (l.map fun c => .ifOk (f c)) = l.map f := by
  induction l with
  | nil => rfl
  | cons c l ih => exact congrArg (f c :: ·) ih

theorem unguarded_map_ifOk (f : Byte → CmdWord) (l : List Byte) :
    unguarded (l.map fun c => .ifOk (f c)) = [] := by
  induction l with
  | nil => rfl
  | cons c l ih => exact ih

/-- Every `EMITC` of `put_string_fast` is under `ok`, one a character (R189). -/
theorem guarded_putStringFastActs (addr : Addr7) (x y : Nat) (l : List Byte) :
    guarded (putStringFastActs addr x y l) = l.map emitData := by
  rw [putStringFastActs, guarded_append, guarded_append, guarded_map_ifOk]
  exact List.append_nil _

theorem unguarded_putStringFastActs (addr : Addr7) (x y : Nat) (l : List Byte) :
    unguarded (putStringFastActs addr x y l) = [encode (.beginw addr), encode .endt] := by
  rw [putStringFastActs, unguarded_append, unguarded_append, unguarded_map_ifOk]
  rfl

/-- Every `EMITC` of `put_string_at_fast` is under `ok`, the position command before the characters
(R190). -/
theorem guarded_putStringAtFastActs (p : HostParams) (addr : Addr7) (x y : Nat) (l : List Byte) :
    guarded (putStringAtFastActs p addr x y l)
      = encode (.emitc .full .command (setAddressByte p x y)) :: l.map emitData := by
  rw [putStringAtFastActs, guarded_append, guarded_append, guarded_map_ifOk]
  exact List.append_nil _

theorem unguarded_putStringAtFastActs (p : HostParams) (addr : Addr7) (x y : Nat) (l : List Byte) :
    unguarded (putStringAtFastActs p addr x y l) = [encode (.beginw addr), encode .endt] := by
  rw [putStringAtFastActs, unguarded_append, unguarded_append, unguarded_map_ifOk]
  rfl

/-- Settles O60: the steps of the host on a batch's commands, and the two lists of actions. -/
theorem failedBatchIsStillClosed : Obligations.FailedBatchIsStillClosed := by
  unfold Obligations.FailedBatchIsStillClosed
  refine ⟨fun s w q hop hq hok hr => ?_, fun s t w q hop hq h => step_tracking hop hq h,
    fun s r hr ht => ?_, fun s h => ?_, fun p addr x y l => ?_, fun p addr x y l => ?_⟩
  · obtain ⟨t, ht, -, hrsp, hsame⟩ := step_sameBlock_of_not_cmdValid hop (cmdValid_of_not_ok hq hok) hr
    obtain ⟨-, hqueue, hstays⟩ := step_of_queue_host hop hq ht
    exact ⟨t, ht, hqueue, hstays.trans hok, hrsp, hsame⟩
  · rw [hostReads_of_tracking hr ht]
  · rw [hostReads_of_unread h]
  · exact ⟨guarded_putStringFastActs addr x y l, guarded_putStringAtFastActs p addr x y l,
      unguarded_putStringFastActs addr x y l, unguarded_putStringAtFastActs p addr x y l,
      List.mem_cons_self, List.mem_cons_of_mem _ List.mem_cons_self⟩
  · exact ⟨List.getLast?_concat, _, rfl⟩

end Sys2Proof.Machine

/-! PROOF. The session before and after the setup operation (R181, R184, R192). -/

namespace Sys2Proof.Machine

variable {p : HostParams} {op : SessionOp} {s t : State}

/-! ### Calls and accessors -/

/-- Before the setup operation no other has an expansion (R181, U2). -/
theorem expand_of_uninitialized {v : Session} (hv : v.state = .uninitialized)
    (hop : ∀ a w b, op ≠ .setup a w b) (addr : Addr7) : op.expand p addr v = none := by
  have hready : v.state ≠ .ready := by rw [hv]; decide
  cases op with
  | setup a w on => exact absurd rfl (hop a w on)
  | moveCursor x y => exact if_neg fun h => hready h.1
  | putStringAtFast x y l => exact if_neg fun h => hready h.1
  | clear | putChar c | putString l | putStringFast l | setBacklight on now | askBacklight | askWidth
  | askColumn | askRow => exact if_neg hready

/-- A call that is accepted finds the host and the block at rest, and queues the operation's expansion. -/
theorem call_eq_some : s.call p op = some t ↔
    (s.host.queue = [] ∧ s.busy = false)
      ∧ ∃ acts, op.expand p s.addr s.host.session = some acts ∧ s.withQueue acts = t := by
  rw [State.call, Option.ite_none_right_eq_some]
  cases op.expand p s.addr s.host.session <;> simp

theorem call_eq_none_of_expand (h : op.expand p s.addr s.host.session = none) : s.call p op = none := by
  simp [State.call, h]

theorem whenReady_of_ready {α : Type} (x : α) (h : s.host.session.state = .ready) :
    s.whenReady x = some x := if_pos h

theorem whenReady_of_uninitialized {α : Type} (x : α) (h : s.host.session.state = .uninitialized) :
    s.whenReady x = none := if_neg (by rw [h]; decide)

/-- Register 2 is the backlight flag, zero-extended (R39). -/
theorem readReg_backlight (s : State) : s.readReg 2 = flagByte s.bl := rfl

theorem flagByte_getLsbD_zero (b : Bool) : (flagByte b).getLsbD 0 = b := by cases b <;> rfl

/-- `RDREG 2`, whatever the host holds, answers the flag and changes nothing of the block (R174). -/
theorem exec_rdreg_backlight (hr : (s.env.ahead 0).rst = false) (a : HostAgent) :
    ∃ u, exec (.rdreg 2) { s with host := a } = .next u
      ∧ u.rsp = some { st := .ok, data := flagByte s.bl } ∧ SameBlock s u := by
  refine ⟨_, exec_of_oneStep rfl nofun rfl hr, rfl, ?_⟩
  exact ⟨⟨rfl, rfl, rfl⟩, fun _ => rfl, rfl, ⟨rfl, rfl, rfl⟩, ⟨rfl, rfl⟩, ⟨rfl, rfl, rfl⟩⟩

/-- The step after a call of the flag's accessor is `RDREG 2` (R192; log entry 27). -/
theorem step_askBacklight (h : s.call p .askBacklight = some t) (hr : (s.env.ahead 0).rst = false) :
    ∃ u, step t = .next u ∧ u.rsp = some { st := .ok, data := flagByte s.bl } ∧ SameBlock s u := by
  obtain ⟨⟨-, hbusy⟩, acts, hacts, rfl⟩ := call_eq_some.mp h
  obtain ⟨-, ⟨⟩⟩ := Option.ite_none_right_eq_some.mp hacts
  have hop : s.curOp = none := by simpa [State.busy] using hbusy
  have hword : decode (encode (.rdreg 2)) = some (.rdreg 2) := decodeOfEncodeIsIdentity (.rdreg 2) rfl
  rw [step_of_queue (s := s.withQueue askBacklightActs) hop rfl, hostAct, issueWord_of_decode hword,
    hostReads_eq]
  exact exec_rdreg_backlight (s := s) hr _

/-- Settles O57: by the expansions, the accessors' guard, and the one step of `RDREG 2`. -/
theorem sessionNeedsInitialize : Obligations.SessionNeedsInitialize := by
  unfold Obligations.SessionNeedsInitialize
  refine ⟨fun p op s hs hop => ?_, fun s hs => ?_, fun s hs => ?_, fun p s t h hr => ?_,
    fun p v a w b addr h1 h40 => ?_⟩
  · exact call_eq_none_of_expand (expand_of_uninitialized hs hop s.addr)
  · exact ⟨whenReady_of_uninitialized _ hs, whenReady_of_uninitialized _ hs,
      whenReady_of_uninitialized _ hs, whenReady_of_uninitialized _ hs⟩
  · refine ⟨?_, whenReady_of_ready _ hs, whenReady_of_ready _ hs, whenReady_of_ready _ hs⟩
    rw [State.backlight, whenReady_of_ready _ hs, readReg_backlight, flagByte_getLsbD_zero]
  · obtain ⟨-, acts, hacts, -⟩ := call_eq_some.mp h
    obtain ⟨hready, -⟩ := Option.ite_none_right_eq_some.mp hacts
    obtain ⟨u, hu, hrsp, hsame⟩ := step_askBacklight h hr
    exact ⟨u, _, hu, hrsp, hsame, whenReady_of_ready _ hready,
      (flagByte_toNat s.bl).trans_le (Bool.toNat_le s.bl)⟩
  · exact ⟨_, if_pos ⟨h1, h40⟩, sessionAfter_setupActs v p a w b⟩

end Sys2Proof.Machine

/-! PROOF. What is refused and what happens before `INIT` (R176, R211, R218), and the hang of a clock that no
slave releases (R107, R212). -/

namespace Sys2Proof.Machine

variable {i : Instr} {s t u : State}

/-! ### Refusals -/

/-- Settles O11: an illegal word is IllegalCommand, and the checks refuse a line-driving command. -/
theorem illegalCommandChangesNothing : Obligations.IllegalCommandChangesNothing := by
  unfold Obligations.IllegalCommandChangesNothing
  refine ⟨fun s w h0 hd => ?_, fun s i h0 hn hi => ?_⟩
  · rw [issueWord_of_illegal hd]
    exact illegalCommand_answers h0
  · exact exec_answersIllegal (not_legal_of_uninitialised hn hi) h0

/-! ### Before `INIT` -/

/-- The uninitialised mode is `INITD` 0 (R218). -/
theorem mode_eq_uninitialised : s.mode = .uninitialised ↔ s.initd = false := by
  cases hi : s.initd <;> cases ho : s.isOpen <;> simp [State.mode, hi, ho]

/-- `INITD` is 0, both lines are released and nothing runs (R176, R218, R240). -/
structure Untouched (s : State) : Prop where
  initd : s.initd = false
  released : s.released = true
  busy : s.busy = false

/-- The invariant has the block untouched in the uninitialised mode. -/
theorem untouched_of_inv (h : s.Inv) (hm : s.mode = .uninitialised) : Untouched s := by
  have hi := mode_eq_uninitialised.mp hm
  obtain ⟨-, -, -, hun, -, -⟩ := h
  simp only [State.uninitOk, hi, Bool.false_or, Bool.and_eq_true, Bool.not_eq_true'] at hun
  obtain ⟨⟨hrel, -⟩, hb⟩ := hun
  exact ⟨hi, hrel, hb⟩

theorem untouched_resetBlock (s : State) : Untouched s.resetBlock := ⟨rfl, rfl, rfl⟩

/-- A clocked step leaves the block untouched if its effect does: the reset column is untouched (R240). -/
theorem clocked_untouched {f : State → Result} (hf : f s.latch = .next t → Untouched t)
    (h : clocked s f = .next t) : Untouched t := by
  rcases clocked_cases s f with hc | hc <;> rw [hc] at h
  · cases h; exact untouched_resetBlock _
  · exact hf h

/-- The effect of a command of one step, `INIT` apart, leaves `INITD` and the drives alone (R111, R112, R144,
R170, R171, R174). -/
theorem Untouched.effect (h : Untouched s) (hi : i ≠ .init) (st : Status) (d : Byte) :
    Untouched ((effect i s).finish st d) := by
  cases i with
  | init => exact absurd rfl hi
  | _ => exact ⟨h.initd, h.released, rfl⟩

/-- Settles O56: what drives the lines is refused, and no other command but `INIT` writes `INITD` or a
drive. -/
theorem uninitialisedModeTouchesNoLine : Obligations.UninitialisedModeTouchesNoLine := by
  unfold Obligations.UninitialisedModeTouchesNoLine
  intro s t i hinv hm hne h
  have hs := untouched_of_inv hinv hm
  have hl : Untouched s.latch := ⟨hs.initd, hs.released, hs.busy⟩
  have ht : Untouched t := by
    obtain hc | ⟨-, hi, hc⟩ := exec_cases i s <;> rw [hc] at h
    · exact clocked_untouched (fun h => by cases h; exact ⟨hl.initd, hl.released, hl.busy⟩) h
    · have hn : i.needsInit = false := by simpa [hs.initd] using hi
      rw [course, if_neg (by simp [drives_of_not_needsInit hn])] at h
      exact clocked_untouched (fun h => by cases h; exact hl.effect hne _ _) h
  exact ⟨mode_eq_uninitialised.mpr ht.initd, ht.released, ht.busy⟩

/-! ### A clock held for ever -/

theorem SameBlock.refl (s : State) : SameBlock s s :=
  ⟨⟨rfl, rfl, rfl⟩, fun _ => rfl, rfl, ⟨rfl, rfl, rfl⟩, ⟨rfl, rfl⟩, ⟨rfl, rfl, rfl⟩⟩

theorem SameBlock.trans (h : SameBlock s t) (h' : SameBlock t u) : SameBlock s u where
  settings := ⟨h'.settings.addr.trans h.settings.addr, h'.settings.bl.trans h.settings.bl,
    h'.settings.initd.trans h.settings.initd⟩
  buffer j := (h'.buffer j).trans (h.buffer j)
  txlen := h'.txlen.trans h.txlen
  shift := ⟨h'.shift.shreg.trans h.shift.shreg, h'.shift.bitcnt.trans h.shift.bitcnt,
    h'.shift.lastok.trans h.shift.lastok⟩
  loop := ⟨h'.loop.byteidx.trans h.loop.byteidx, h'.loop.sentcnt.trans h.loop.sentcnt⟩
  lines := ⟨h'.lines.sdaOut.trans h.lines.sdaOut, h'.lines.sclOut.trans h.lines.sclOut,
    h'.lines.isOpen.trans h.lines.isOpen⟩

/-- The steps of a run after its first. -/
theorem run_succ {M : Host.Core} {s t : M.State} (h : M.step s = .next t) (n : Nat) :
    M.run (n + 1) s = M.run n t := by rw [Host.Core.run, h]

/-- What holds of every coming input holds of those after a step. -/
theorem OneStep.ahead_forall {p : Input → Prop} (h : OneStep s t) (hp : ∀ n, p (s.env.ahead n)) (n : Nat) :
    p (t.env.ahead n) := h.ahead n ▸ hp (n + 1)

/-- Settles O32, by induction on the steps: each is a read of the clock that finds it low and leaves a state
of the same kind. -/
theorem heldClockHangsForever : Obligations.HeldClockHangsForever := by
  unfold Obligations.HeldClockHangsForever
  intro s hw hn hc hr n
  induction n generalizing s with
  | zero =>
    obtain ⟨hb, -⟩ := (Bool.and_eq_true _ _).mp hw
    exact ⟨s, rfl, hb, by simp [State.cmdReady, hb], rfl, rfl, hn, .refl s⟩
  | succ n ih =>
    obtain ⟨t, hstep, hw', hop, hu, hn', hsame, hone⟩ :=
      waitStaysWhileTheClockIsLow s hw (hc 0) (hr 0)
    obtain ⟨v, hrun, hb, hready, hop', hu', hrsp, hsame'⟩ :=
      ih t hw' hn' (hone.ahead_forall (p := (·.scl = false)) hc)
        (hone.ahead_forall (p := (·.rst = false)) hr)
    exact ⟨v, (run_succ (M := core) hstep n).trans hrun, hb, hready, hop'.trans hop, hu'.trans hu, hrsp, hsame.trans hsame'⟩

end Sys2Proof.Machine

/-! PROOF. What a NACK records (R106, R112, R130, R146, R147, R210, R215), followed through the positions of
a command's body, reads of a clock found low among them. -/

namespace Sys2Proof.Machine

variable {i : Instr} {r : ByteRole} {s t : State}

/-! ### `SHREG` and `BITCNT` along a byte -/

/-- The byte in the transmitter is out: `SHREG` is 0 and `BITCNT` 8 (R106). -/
structure ByteOut (s : State) : Prop where
  shreg : s.shreg = 0
  bitcnt : s.bitcnt = 8

/-- At a position of the byte transmitter: in a data clock some of a byte's bits are shifted away, and after
the eighth the byte is out (R106, R108). -/
structure ShiftsOut (s : State) (u : UStep) : Prop where
  bits : inDataClock u = true → ∃ v k, Shifted s.shreg s.bitcnt v k
  out : inDataClock u = false → ByteOut s

theorem ShiftsOut.congr {u v : UStep} (h : ShiftsOut s u) (huv : inDataClock v = inDataClock u)
    (hs : t.shreg = s.shreg) (hb : t.bitcnt = s.bitcnt) : ShiftsOut t v where
  bits hv := by rw [hs, hb]; exact h.bits (huv ▸ hv)
  out hv := ⟨hs.trans (h.out (huv ▸ hv)).shreg, hb.trans (h.out (huv ▸ hv)).bitcnt⟩

/-- No bit is out at the head of a byte. -/
theorem shiftsOut_head (hb : s.bitcnt = 0) : ShiftsOut s (.byte r .putBit) :=
  ⟨fun _ => ⟨s.shreg, 0, by decide, by rw [hb]; rfl, (BitVec.shiftLeft_zero _).symm⟩, nofun⟩

/-- The end of a data clock puts one more bit out, and the byte after the eighth (R108). -/
theorem shiftsOut_afterBit (h : ShiftsOut s (.byte r .fall)) :
    ShiftsOut (afterBit r s) (afterBit r s).ustep := by
  obtain ⟨v, k, hk, hcount, hshreg⟩ := h.bits rfl
  have hcount' : (s.bitcnt + 1).toNat = k + 1 := by rw [BitVec.toNat_add, hcount]; simp; omega
  have hshreg' : s.shreg <<< 1 = v <<< (k + 1) := by rw [hshreg, BitVec.shiftLeft_add]
  by_cases h8 : (s.bitcnt + 1).toNat < 8
  · have hu : (afterBit r s).ustep = .byte r .putBit := congrArg (UStep.byte r) (if_pos h8)
    exact hu ▸ ⟨fun _ => ⟨v, k + 1, by omega, hcount', hshreg'⟩, nofun⟩
  · have hu : (afterBit r s).ustep = .byte r .ackRelease := congrArg (UStep.byte r) (if_neg h8)
    obtain rfl : k = 7 := by omega
    exact hu ▸ ⟨nofun, fun _ =>
      ⟨hshreg'.trans (BitVec.shiftLeft_eq_zero le_rfl), BitVec.eq_of_toNat_eq hcount'⟩⟩

/-! ### The course of a command up to its answer -/

/-- Command `i` runs and has not answered. -/
structure OnCourse (i : Instr) (s : State) : Prop where
  op : s.curOp = some i
  rsp : s.rsp = none

/-- What a NACK of command `i` leaves (R210, R215): the result, the byte out, a byte loop's counters at the
byte that failed, and a whole transaction closed. -/
structure NackLeft (i : Instr) (t : State) : Prop where
  lastok : t.lastok = false
  out : ByteOut t
  sends : ∃ r, belongs i (.byte r .parkSda) = true
  loop : loops i = true → closes i = false →
    t.sentcnt = t.byteidx ∧ t.byteidx.toNat < (byteCount t i).toNat
  closed : closes i = true → t.isOpen = false ∧ t.released = true

/-- Command `i` is on its way through its body, or has ended and left what a NACK leaves if it answered one.
On the way a byte is shifted out from its first step on and out after its last clock, the byte loop is where
its counters say, and a transaction that closes has its last byte out. -/
inductive AckCourse (i : Instr) (t : State) : Prop
  | starts (p : StartPos) : OnCourse i t → t.ustep = .start p → AckCourse i t
  | sends (r : ByteRole) (p : BytePos) : OnCourse i t → t.ustep = .byte r p →
      belongs i (.byte r p) = true → loopOk t i (.byte r p) = true → ShiftsOut t (.byte r p) →
      AckCourse i t
  | hooks : OnCourse i t → t.ustep = .hook → hooked i = true → loopOk t i .hook = true → ByteOut t →
      AckCourse i t
  | stops (p : StopPos) : OnCourse i t → t.ustep = .stop p → (closes i = true → ByteOut t) →
      t.linesOk = true → AckCourse i t
  | ended : t.curOp = none → (t.rsp = some { st := .nack, data := 0 } → NackLeft i t) → AckCourse i t

/-- A command that ends with the boolean `ok` answers NACK for false only (R84, R100 (e)). -/
theorem AckCourse.of_finish {ok : Bool} (h : ok = false → NackLeft i (s.finish (statusOf ok) 0)) :
    AckCourse i (s.finish (statusOf ok) 0) :=
  .ended rfl fun hr => by
    cases ok with
    | false => exact h rfl
    | true => cases hr

/-! ### The byte loop -/

theorem AckCourse.of_loopDone {ok : Bool} (a : OnCourse i s) (ho : ByteOut s)
    (hn : ok = false → closes i = false → NackLeft i (s.finish (statusOf ok) 0)) :
    AckCourse i (loopDone i ok s) := by
  unfold loopDone
  split
  · exact .stops .fallSda ⟨a.op, a.rsp⟩ rfl (fun _ => ⟨ho.shreg, ho.bitcnt⟩) rfl
  · next hc => exact .of_finish fun hok => hn hok (by simpa using hc)

theorem lt_byteCount_congr {n : Nat} (hn : t.txlen = s.txlen) (h : n < (byteCount s i).toNat) :
    n < (byteCount t i).toNat := by rwa [byteCount_of_txlen hn]

theorem AckCourse.of_loadByte (a : OnCourse i s) (hl : loops i = true)
    (hlt : s.byteidx.toNat < (byteCount s i).toNat) (hs : s.sentcnt.toNat = s.byteidx.toNat)
    (h : loadByte s = .next t) : AckCourse i t := by
  unfold loadByte at h
  split at h <;> cases h
  refine .sends .data .putBit ⟨a.op, a.rsp⟩ rfl hl ?_ (shiftsOut_head rfl)
  simp only [loopOk, Bool.and_eq_true]
  exact ⟨decide_eq_true (lt_byteCount_congr rfl hlt), decide_eq_true hs⟩

theorem AckCourse.of_beginLoop (a : OnCourse i s) (hl : loops i = true) (ho : ByteOut s)
    (h : beginLoop i s = .next t) : AckCourse i t := by
  unfold beginLoop at h
  dsimp only at h
  split at h
  · cases h
    exact .of_loopDone ⟨a.op, a.rsp⟩ ⟨ho.shreg, ho.bitcnt⟩ nofun
  · next hn =>
    refine .of_loadByte (s := { s with sentcnt := 0, byteidx := 0 }) ⟨a.op, a.rsp⟩ hl ?_ rfl h
    exact Nat.pos_of_ne_zero fun h => hn (BitVec.eq_of_toNat_eq h)

theorem AckCourse.of_nextByte (a : OnCourse i s) (hl : loops i = true) (ho : ByteOut s)
    (hs : s.sentcnt.toNat = s.byteidx.toNat + 1) (h : nextByte i s = .next t) : AckCourse i t := by
  unfold nextByte at h
  split at h
  · next hlt =>
    have hb : (s.byteidx + 1).toNat = s.byteidx.toNat + 1 := by
      rw [BitVec.toNat_add]; simp; omega
    refine .of_loadByte (s := { s with byteidx := s.byteidx + 1 }) ⟨a.op, a.rsp⟩ hl ?_
      (hs.trans hb.symm) h
    exact lt_byteCount_congr rfl (hb.trans_lt hlt)
  · cases h
    exact .of_loopDone a ho nofun

/-! ### One step -/

theorem closes_of_addresses_loops (ha : addresses i = true) (hl : loops i = true) : closes i = true := by
  cases i with
  | sendc | blnow => rfl
  | beginw => cases hl
  | _ => cases ha

theorem wbyte_of_single {p : BytePos} (h : belongs i (.byte .single p) = true) : ∃ v, i = .wbyte v := by
  cases i with
  | wbyte v => exact ⟨v, rfl⟩
  | _ => cases h

/-- The result of a byte (R106): a NACK, or what follows the byte. -/
theorem AckCourse.of_afterByte (a : OnCourse i s) (hb : belongs i (.byte r .parkSda) = true)
    (hl : loopOk s i (.byte r .parkSda) = true) (ho : ByteOut s) (h : afterByte i r s = .next t) :
    AckCourse i t := by
  have ho' : ByteOut { s with lastok := !s.ackLevel } := ⟨ho.shreg, ho.bitcnt⟩
  have a' : OnCourse i { s with lastok := !s.ackLevel } := ⟨a.op, a.rsp⟩
  cases r with
  | single =>
    cases h
    obtain ⟨v, rfl⟩ := wbyte_of_single hb
    exact .of_finish fun hok => ⟨hok, ⟨ho.shreg, ho.bitcnt⟩, ⟨_, hb⟩, nofun, nofun⟩
  | frame =>
    simp only [afterByte, afterFrame] at h
    split at h
    · next hc =>
      split at h
      · exact .of_beginLoop a' (loops_of_closes hc) ho' h
      · cases h
        exact .of_loopDone a' ho' fun _ hc' => by simp [hc] at hc'
    · next hc =>
      cases h
      exact .of_finish fun hok => ⟨hok, ⟨ho.shreg, ho.bitcnt⟩, ⟨_, hb⟩,
        fun hl => absurd (closes_of_addresses_loops hb hl) hc, fun h => absurd h hc⟩
  | data =>
    simp only [loopOk, Bool.and_eq_true, decide_eq_true_eq] at hl
    obtain ⟨hlt, hs⟩ := hl
    simp only [afterByte, afterData] at h
    split at h
    · have hs' : (s.sentcnt + 1).toNat = s.byteidx.toNat + 1 := by
        rw [BitVec.toNat_add]; simp; omega
      split at h
      · next hh =>
        cases h
        refine .hooks ⟨a.op, a.rsp⟩ rfl hh ?_ ⟨ho.shreg, ho.bitcnt⟩
        simp only [loopOk, Bool.and_eq_true]
        exact ⟨decide_eq_true (lt_byteCount_congr rfl hlt), decide_eq_true hs'⟩
      · exact .of_nextByte (s := { s with lastok := !s.ackLevel, sentcnt := s.sentcnt + 1 })
          ⟨a.op, a.rsp⟩ hb ⟨ho.shreg, ho.bitcnt⟩ hs' h
    · next hack =>
      cases h
      exact .of_loopDone a' ho' fun _ hc => ⟨by simpa using hack, ⟨ho.shreg, ho.bitcnt⟩, ⟨_, hb⟩,
        fun _ _ => ⟨BitVec.eq_of_toNat_eq hs, lt_byteCount_congr rfl hlt⟩, by simp [hc]⟩

theorem AckCourse.of_startStep {p : StartPos} (a : OnCourse i s) (h : startStep i p s = .next t) :
    AckCourse i t := by
  cases p
  case holdScl =>
    simp only [startStep, afterStart] at h
    split at h
    · next ha =>
      cases h
      exact .sends .frame .putBit ⟨a.op, a.rsp⟩ rfl ha rfl (shiftsOut_head rfl)
    · cases h
      exact .of_finish (ok := true) nofun
  all_goals
    cases h
    exact .starts _ ⟨a.op, a.rsp⟩ rfl

theorem loopOk_byte_congr (hn : t.txlen = s.txlen) (hy : t.byteidx = s.byteidx)
    (hs : t.sentcnt = s.sentcnt) (i : Instr) (r : ByteRole) (p q : BytePos) :
    loopOk t i (.byte r q) = loopOk s i (.byte r p) := by
  rw [loopOk_congr hn hy hs]
  cases r <;> rfl

theorem AckCourse.of_byteStep {p : BytePos} (a : OnCourse i s) (hu : s.ustep = .byte r p)
    (hb : belongs i (.byte r p) = true) (hl : loopOk s i (.byte r p) = true)
    (hs : ShiftsOut s (.byte r p)) (h : byteStep i r p s = .next t) : AckCourse i t := by
  have hmove {t : State} {q : BytePos} (a' : OnCourse i t) (hq : t.ustep = .byte r q)
      (hk : SameLoop s t) (hn : t.txlen = s.txlen) (hs' : ShiftsOut t (.byte r q)) : AckCourse i t :=
    .sends r q a' hq (by cases r <;> exact hb)
      ((loopOk_byte_congr hn hk.byteidx hk.sentcnt i r p q).trans hl) hs'
  cases p
  case parkSda =>
    exact .of_afterByte (s := s.setSda false) ⟨a.op, a.rsp⟩ hb
      ((loopOk_congr rfl rfl rfl i _).trans hl) ⟨(hs.out rfl).shreg, (hs.out rfl).bitcnt⟩ h
  case fall =>
    cases h
    have hs' := shiftsOut_afterBit (r := r) (hs.congr (t := s.setScl false) rfl rfl rfl)
    exact hmove (q := if (s.bitcnt + 1).toNat < 8 then .putBit else .ackRelease) ⟨a.op, a.rsp⟩ rfl
      ⟨rfl, rfl⟩ rfl hs'
  case ackWait =>
    cases h
    split
    · exact hmove ⟨a.op, a.rsp⟩ rfl ⟨rfl, rfl⟩ rfl (hs.congr rfl rfl rfl)
    · exact hmove a hu ⟨rfl, rfl⟩ rfl hs
  all_goals
    cases h
    exact hmove ⟨a.op, a.rsp⟩ rfl ⟨rfl, rfl⟩ rfl (hs.congr rfl rfl rfl)

theorem AckCourse.of_hookStep (a : OnCourse i s) (hh : hooked i = true)
    (hl : loopOk s i .hook = true) (ho : ByteOut s) (h : hookStep i s = .next t) : AckCourse i t := by
  simp only [loopOk, Bool.and_eq_true, decide_eq_true_eq] at hl
  exact .of_nextByte (s := s.delay _) ⟨a.op, a.rsp⟩ (loops_of_hooked hh) ⟨ho.shreg, ho.bitcnt⟩ hl.2 h

theorem AckCourse.of_stopStep {p : StopPos} (a : OnCourse i s) (hu : s.ustep = .stop p)
    (ho : closes i = true → ByteOut s) (hl : s.linesOk = true) (h : stopStep i p s = .next t) :
    AckCourse i t := by
  have hl' := hl
  rw [State.linesOk, hu] at hl
  have ho' {t : State} (hs : t.shreg = s.shreg) (hb : t.bitcnt = s.bitcnt) (hc : closes i = true) :
      ByteOut t := ⟨hs.trans (ho hc).shreg, hb.trans (ho hc).bitcnt⟩
  cases p
  case freeHold =>
    cases h
    cases hc : closes i with
    | false => exact .ended rfl (by simp [State.finish])
    | true =>
      exact .of_finish (s := { s.delay .half with isOpen := false }) fun hok =>
        ⟨hok, ho' rfl rfl hc, ⟨.data, loops_of_closes hc⟩, by simp [hc], fun _ => ⟨rfl, hl⟩⟩
  case waitScl =>
    cases h
    split
    · exact .stops .highHold ⟨a.op, a.rsp⟩ rfl (ho' rfl rfl) hl
    · exact .stops .waitScl a hu ho hl'
  case raise =>
    cases h
    exact .stops _ ⟨a.op, a.rsp⟩ rfl (ho' rfl rfl) (by simpa [State.linesOk, linesAt] using hl)
  case riseSda =>
    cases h
    exact .stops _ ⟨a.op, a.rsp⟩ rfl (ho' rfl rfl) ((Bool.and_eq_true _ _).mp hl).2
  all_goals
    cases h
    exact .stops _ ⟨a.op, a.rsp⟩ rfl (ho' rfl rfl) hl

/-- Every step of a running command keeps to the course: one lemma a body. -/
theorem AckCourse.tick (h : AckCourse i s) (hop : s.curOp.isSome = true) (hr : s.env.noReset)
    (ht : tick s = .next t) : AckCourse i t := by
  rw [tick_of_low (hr 0)] at ht
  have latched (a : OnCourse i s) : OnCourse i s.latch := ⟨a.op, rfl⟩
  cases h with
  | starts p a hu =>
    simp only [primitive, latch_curOp, latch_ustep, a.op, hu] at ht
    exact .of_startStep (latched a) ht
  | sends r p a hu hb hl hs =>
    simp only [primitive, latch_curOp, latch_ustep, a.op, hu] at ht
    exact .of_byteStep (latched a) hu hb ((loopOk_congr rfl rfl rfl i _).trans hl)
      (hs.congr rfl rfl rfl) ht
  | hooks a hu hh hl ho =>
    simp only [primitive, latch_curOp, latch_ustep, a.op, hu] at ht
    exact .of_hookStep (latched a) hh ((loopOk_congr rfl rfl rfl i _).trans hl)
      ⟨ho.shreg, ho.bitcnt⟩ ht
  | stops p a hu ho hl =>
    simp only [primitive, latch_curOp, latch_ustep, a.op, hu] at ht
    exact .of_stopStep (latched a) hu (fun hc => ⟨(ho hc).shreg, (ho hc).bitcnt⟩) hl ht
  | ended hn _ => simp [hn] at hop

/-! ### Whole commands -/

/-- A response before a command is gone at its first step (R84). -/
theorem runCommand_clear_rsp (s : State) : runCommand { s with rsp := none } = runCommand s := rfl

/-- Where a command that drives the lines begins, the response before it cleared. -/
theorem ackCourse_entered (hd : drives i = true) (s : State) :
    AckCourse i { entered i s with rsp := none } := by
  have a : OnCourse i { entered i s with rsp := none } :=
    ⟨entered_curOp (needsInit_of_drives hd) s, rfl⟩
  cases i with
  | start | beginw | sendc | blnow => exact .starts .fallSda a rfl
  | stop | endt => exact .stops .fallSda a rfl nofun rfl
  | wbyte v => exact .sends .single .putBit a rfl rfl rfl (shiftsOut_head rfl)
  | wbytes h n =>
    have hp := placed_loopHead (i := .wbytes h n) (s := s.accept (.wbytes h n) .idle) rfl
      (of_decide_eq_true hd)
    exact .sends .data .putBit a rfl rfl hp.loop (shiftsOut_head rfl)
  | emitc size kind v =>
    have hp := placed_loopHead (i := .emitc size kind v)
      (s := (s.packed size kind v).accept (.emitc size kind v) .idle) rfl
      (packed_txlen_ne_zero size kind v s)
    exact .sends .data .putBit a rfl rfl hp.loop (shiftsOut_head rfl)
  | _ => cases hd

/-- However often its clock was found low, a command keeps to the course. -/
theorem Carried.ackCourse (hl : Legal i s) (hd : drives i = true) (hr : s.env.noReset)
    (h : Carried i s t) : AckCourse i t := by
  refine (h.of_tick (P := AckCourse i) (fun he => ?_) AckCourse.tick).1
  rw [exec_of_drives hl hd, ← runCommand_clear_rsp] at he
  exact runSteps_induction AckCourse.tick _ (ackCourse_entered hd s)
    (by simp [entered_curOp (needsInit_of_drives hd)]) (by simpa only [entered_env] using hr) he

/-- A refusal and a command of one step answer no NACK; a command that drives the lines ends with it. -/
theorem Carried.nackLeft (hr : s.env.noReset) (h : Carried i s t)
    (ht : t.rsp = some { st := .nack, data := 0 }) : Legal i s ∧ t.busy = false ∧ NackLeft i t := by
  cases h.stands hr with
  | refused _ => cases ht
  | done _ _ => cases ht
  | ran hl hd _ _ =>
    cases h.ackCourse hl hd hr with
    | starts _ a _ | sends _ _ a _ _ _ _ | hooks a _ _ _ _ | stops _ a _ _ _ => simp [a.rsp] at ht
    | ended hn hleft => exact ⟨hl, by rw [State.busy, hn]; rfl, hleft ht⟩

/-- Settles O48: a NACK leaves what the byte that failed has left, and the lemma on `BEGINW` has `OPEN`. -/
theorem nackIsRecorded : Obligations.NackIsRecorded := by
  unfold Obligations.NackIsRecorded
  intro i s t hr h ht
  obtain ⟨hl, hb, hleft⟩ := h.nackLeft hr ht
  refine ⟨hleft.lastok, hleft.out.shreg, hleft.out.bitcnt, ?_⟩
  obtain ⟨r, hsends⟩ := hleft.sends
  cases i with
  | wbyte v => trivial
  | beginw a => exact (carried_beginw_ended (hl.initd rfl) hr h hb).2.1
  | wbytes hk n => exact hleft.loop rfl rfl
  | emitc size kind v => exact hleft.loop rfl rfl
  | sendc size kind v => exact hleft.closed rfl
  | blnow => exact hleft.closed rfl
  | _ => cases r <;> cases hsends

end Sys2Proof.Machine

/-! PROOF. `rst` during a running command (R240, R241). -/

namespace Sys2Proof.Machine

variable {s : State}

/-- A tick that samples `rst` 1 resets the block, whichever primitive was due, a clock wait included. -/
theorem tick_of_rst (h : (s.env.ahead 0).rst = true) : tick s = .next s.latch.resetBlock :=
  clocked_of_rst h primitive

/-- The reset of the block leaves the inputs to come as the step's arrival left them (log entry 12). -/
theorem latch_resetBlock_script (s : State) :
    s.latch.resetBlock.env.script = s.env.advance.script := by simp

/-- Settles O14: `rst` wins over the due primitive, so the position of the command does not matter. -/
theorem resetAbandonsTheCommand : Obligations.ResetAbandonsTheCommand := by
  unfold Obligations.ResetAbandonsTheCommand
  intro s i _ hrst
  have hcol : ResetColumn s.latch.resetBlock := (resetColumn_resetBlock s.latch).1
  have hrsp : s.latch.resetBlock.rsp = none := resetBlock_rsp s.latch
  have hhost : s.latch.resetBlock.host = s.host := resetBlock_host s.latch
  exact ⟨_, tick_of_rst hrst, hcol, hrsp, latch_resetBlock_script s, hhost⟩

end Sys2Proof.Machine
